-- ==== Sys2Proof/Word.lean ====
section
/-! DEFINITION. The data types of the samenew AFSK block: words, bytes, samples (00_scope R14, 20_memory R50). -/

namespace Sys2Proof

/-- A 32-bit word: an element of PMEM, a control register, a header register (20_memory R50, 10_state R26). -/
abbrev Word := BitVec 32

/-- An 8-bit element of BMEM (20_memory R50). -/
abbrev Byte := BitVec 8

/-- An IEEE 754 binary32 sample, as its 32 bits (00_scope R14, 40_tone_generator R114). -/
abbrev Sample := BitVec 32

/-- An input memory with elements of `w` bits: the elements written since reset, each with its address,
addresses strictly rising. An address that is not listed is unwritten and holds no value (10_state R44,
20_memory R68). At `w = 8` this is `List Host.Cell`. -/
abbrev Mem (w : Nat) := List (Nat × BitVec w)

end Sys2Proof
end

