-- ==== Sys2Proof/Config.lean ====
section
/-! DEFINITION. The parameters of 00_scope R7: the protocol constants under their names (R8), and the OPEN
parameters as constants without a value, so that nothing can be proved of the value an implementation gives them. -/

namespace Sys2Proof.Config

/-- `DUR_TICK` is 1/100000 s: how many ticks make a second (00_scope R7, 30_encoding R77). -/
def ticksPerSecond : Nat := 100000
/-- `FREQ_UNIT` is 1/1000 Hz: how many units make a hertz (00_scope R7, 30_encoding R78). -/
def unitsPerHertz : Nat := 1000
/-- `BIT_DUR`, 1.92 ms, in ticks (00_scope R7). -/
def bitDur : Nat := 192
/-- `MARK_CYCLES` (00_scope R7, 30_encoding R80). -/
def markCycles : BitVec 3 := 4
/-- `SPACE_CYCLES` (00_scope R7, 30_encoding R80). -/
def spaceCycles : BitVec 3 := 3
/-- `PREAMBLE_BYTE` (00_scope R7, 42_protocol_framer R142). -/
def preambleByte : Byte := 0xAB
/-- `PREAMBLE_LEN` (00_scope R7, 42_protocol_framer R142). -/
def preambleLen : Nat := 16
/-- `ATTN_MIN`, 8.0 s, in ticks (00_scope R7, 43_attention_signal R161). -/
def attnMin : Nat := 800000
/-- `F_SINGLE`, 1050 Hz, in frequency units (00_scope R7, 43_attention_signal R162). -/
def fSingle : List Word := [1050000]
/-- `F_COMB`, 853 Hz and 960 Hz in that order, in frequency units (00_scope R7, 43_attention_signal R163). -/
def fComb : List Word := [853000, 960000]
/-- `MAX_LOC` (00_scope R7, 42_protocol_framer R151). -/
def maxLoc : Nat := 31
/-- `GAP`, 1.0 s, in ticks (00_scope R7, 44_section_sequencer R180). -/
def gap : BitVec 30 := 100000
/-- `PREROLL_LONG`, 4.0 s, in ticks (00_scope R7, 44_section_sequencer R182). -/
def prerollLong : BitVec 30 := 400000
/-- `TRAIL`, 1.0 s, in ticks (00_scope R7, 44_section_sequencer R183, D13). -/
def trail : BitVec 30 := 100000
/-- `CALL_SUBST`, the byte that replaces `-` in a callsign, as printed (42_protocol_framer R148, D35). -/
def callSubst : Byte := 0x5C

/-! The OPEN sizes (00_scope R7, D10, D20). Each is a free constant between the minimum the spec states and the 2^32
elements that a 32-bit element index can name (20_memory R50), so every size in that range is an instance and no other
is. -/

/-- Selects `PMEM_WORDS`. -/
opaque pmemSelect : Nat
/-- Selects `BMEM_BYTES`. -/
opaque bmemSelect : Nat
/-- Selects `AMEM_SAMPLES`. -/
opaque amemSelect : Nat
/-- Selects `NFREQ_MAX`. -/
opaque nfreqSelect : Nat

/-- `PMEM_WORDS`, at least 64; 4294967233 is 2^32 - 63. -/
def pmemWords : Nat := pmemSelect % 4294967233 + 64
/-- `BMEM_BYTES`, at least 288; 4294967009 is 2^32 - 287. -/
def bmemBytes : Nat := bmemSelect % 4294967009 + 288
/-- `AMEM_SAMPLES`, at least 0; 4294967297 is 2^32 + 1. -/
def amemSamples : Nat := amemSelect % 4294967297
/-- `NFREQ_MAX`, at least 2 and at most 15 (D10). -/
def nfreqMax : Nat := nfreqSelect % 14 + 2

/-! The OPEN numerics (40_tone_generator R103, R109; 93_implementation_defined U2). -/

/-- The free bits behind `TONE_SAMPLE`, a function of the phase in cycles alone (property P3). The required
properties P0 and P1 are put on top of it in `Machine.toneSample`. -/
opaque toneBits : Rat → Sample
/-- The free bits behind `MIX`, a function of the list alone (property M4). The required properties M0, M1
and M3 are put on top of it in `Machine.mix`. -/
opaque mixBits : List Sample → Sample

end Sys2Proof.Config
end

