-- ==== Sys2Proof/Syntax.lean ====
section
/-! DEFINITION. The instructions: one constructor per row of spec/opcode_table.json. -/

namespace Sys2Proof

/-- The eight rows of the opcode table: the four section descriptors (30_encoding R70), the two AFSK symbols
(30_encoding R80) and the two attention kinds (30_encoding R82). -/
inductive Instr where
  /-- `SILENCE`, format S: `DUR` in ticks (30_encoding R72). -/
  | silence (dur : BitVec 30)
  /-- `TONEBYTES`, format B: `LEN` bytes from BMEM address `BASE` (30_encoding R73). -/
  | tonebytes (len : BitVec 30) (base : Word)
  /-- `TONE`, format T: `DUR` in ticks, bits 31:4 of word 1 (reserved, legal only as zero), and the `NF`
  frequencies in millihertz (30_encoding R74). `NF` is the length of `freqs`. -/
  | tone (dur : BitVec 30) (rsvd : BitVec 28) (freqs : List Word)
  /-- `AUDIO`, format A: `LEN` samples from AMEM address `BASE` (30_encoding R75). -/
  | audio (len : BitVec 30) (base : Word)
  /-- `MARK`, the symbol 1 (30_encoding R80). -/
  | mark
  /-- `SPACE`, the symbol 0 (30_encoding R80). -/
  | space
  /-- `ATTN_SINGLE`, the attention kind `ATTNK` = 0 (30_encoding R82). -/
  | attnSingle
  /-- `ATTN_COMBINED`, the attention kind `ATTNK` = 1 (30_encoding R82). -/
  | attnCombined
  deriving DecidableEq, Repr

end Sys2Proof
end

