-- ==== Sys2Proof/WellFormed.lean ====
section
/-! DEFINITION. Which instructions the spec calls legal (30_encoding R84). -/

namespace Sys2Proof

/-- The reserved bits of a TONE are zero (30_encoding R74, R84). -/
def rsvdClear (rsvd : BitVec 28) : Bool := rsvd == 0

/-- A TONE names one or more frequencies (30_encoding R84). -/
def hasFreq (freqs : List Word) : Bool := 0 < freqs.length

/-- A TONE names at most `NFREQ_MAX` frequencies (30_encoding R84). -/
def freqsFit (freqs : List Word) : Bool := freqs.length ≤ Config.nfreqMax

/-- The instruction is one that 30_encoding R84 calls neither illegal nor reserved by its own words. Every word of
the other descriptors is legal, and the bounds of `BASE + LEN` are the machine's to check (20_memory R60). -/
def wellFormed : Instr → Bool
  | .silence _ => true
  | .tonebytes _ _ => true
  | .tone _ rsvd freqs => rsvdClear rsvd && hasFreq freqs && freqsFit freqs
  | .audio _ _ => true
  | .mark => true
  | .space => true
  | .attnSingle => true
  | .attnCombined => true

/-- The instruction has an encoding at all: the count of a TONE's frequencies fits the four bits of `NF`
(30_encoding R74). Weaker than `wellFormed`: an illegal TONE has an encoding too. -/
def encodable : Instr → Bool
  | .silence _ => true
  | .tonebytes _ _ => true
  | .tone _ _ freqs => freqs.length < 16
  | .audio _ _ => true
  | .mark => true
  | .space => true
  | .attnSingle => true
  | .attnCombined => true

end Sys2Proof
end

