-- ==== Sys2Proof/Decode.lean ====
section
/-! DEFINITION. Decoding and encoding (30_encoding R70 to R82, R89). -/

namespace Sys2Proof

/-- What a list of words that is no whole descriptor is refused as. There is no illegal tag (30_encoding R70). -/
inductive DecodeError where
  /-- Word `k` of the descriptor is missing. -/
  | truncated (k : Nat)
  deriving DecidableEq, Repr

/-- `TAG`, bits 31:30 of word 0 (30_encoding R71). -/
def tagOf (w0 : Word) : BitVec 2 := w0.extractLsb' 30 2

/-- `OPA`, bits 29:0 of word 0 (30_encoding R71). -/
def opaOf (w0 : Word) : BitVec 30 := w0.extractLsb' 0 30

/-- `NF`, bits 3:0 of word 1 of a TONE (30_encoding R74). -/
def nfOf (w1 : Word) : Nat := (w1.extractLsb' 0 4).toNat

/-- Bits 31:4 of word 1 of a TONE, reserved (30_encoding R74). -/
def rsvdOf (w1 : Word) : BitVec 28 := w1.extractLsb' 4 28

/-- Words `k`, `k + 1`, ..., `k + n - 1` through `read`, in address order, stopping at the first that fails. -/
def readRun {ε α : Type} (read : Nat → Except ε α) (k : Nat) : Nat → Except ε (List α)
  | 0 => .ok []
  | n + 1 =>
    match read k with
    | .error e => .error e
    | .ok w =>
      match readRun read (k + 1) n with
      | .error e => .error e
      | .ok ws => .ok (w :: ws)

/-- The descriptor whose word `k` is `read k`: word 0 first, then as many further words as the tag, and for a TONE
`NF`, ask for, in address order (30_encoding R76, R89; 60_exceptions R217 "in a FETCH" (1) to (3)). -/
def decodeWith {ε : Type} (read : Nat → Except ε Word) : Except ε Instr :=
  match read 0 with
  | .error e => .error e
  | .ok w0 =>
    if tagOf w0 = 0 then .ok (.silence (opaOf w0))
    else
      match read 1 with
      | .error e => .error e
      | .ok w1 =>
        if tagOf w0 = 1 then .ok (.tonebytes (opaOf w0) w1)
        else if tagOf w0 = 2 then
          match readRun read 2 (nfOf w1) with
          | .error e => .error e
          | .ok fs => .ok (.tone (opaOf w0) (rsvdOf w1) fs)
        else .ok (.audio (opaOf w0) w1)

/-- How many PMEM words the descriptor takes (30_encoding R70, R76); the symbols and the attention kinds are no
descriptors and take none. -/
def wordsOf : Instr → Nat
  | .silence _ => 1
  | .tonebytes _ _ => 2
  | .tone _ _ freqs => 2 + freqs.length
  | .audio _ _ => 2
  | .mark => 0
  | .space => 0
  | .attnSingle => 0
  | .attnCombined => 0

/-- Element `k` of a list of words, refused by name when it is missing. -/
def wordAt (ws : List Word) (k : Nat) : Except DecodeError Word :=
  match ws[k]? with
  | some w => .ok w
  | none => .error (.truncated k)

/-- The first descriptor of a list of words, with the words after it. -/
def decode (ws : List Word) : Except DecodeError (Instr × List Word) :=
  match decodeWith (wordAt ws) with
  | .error e => .error e
  | .ok i => .ok (i, ws.drop (wordsOf i))

/-- All the descriptors of a list of words, packed without gaps (20_memory R51); `fuel` bounds their number. -/
def decodeAll : Nat → List Word → Option (List Instr)
  | _, [] => some []
  | 0, _ :: _ => none
  | fuel + 1, w :: ws =>
    match decode (w :: ws) with
    | .error _ => none
    | .ok (i, rest) => (decodeAll fuel rest).map (i :: ·)

/-- The symbol a bit is (30_encoding R80): 1 is MARK, 0 is SPACE. -/
def decodeSymbol (b : Bool) : Instr := if b then .mark else .space

/-- The attention kind a value of `CFG.ATTNK` is (30_encoding R82): 0 is ATTN_SINGLE, 1 is ATTN_COMBINED. -/
def decodeAttn (b : Bool) : Instr := if b then .attnCombined else .attnSingle

/-- What an instruction is written as: PMEM words for a descriptor, one bit of a byte for a symbol, the bit
`CFG.ATTNK` for an attention kind (30_encoding R89). -/
inductive Code where
  /-- The words of a descriptor. -/
  | words (ws : List Word)
  /-- One bit of a BMEM byte. -/
  | symbol (b : Bool)
  /-- The bit `CFG.ATTNK`. -/
  | attnKind (b : Bool)
  deriving DecidableEq, Repr

/-- Decoding of any code, with the PMEM words left over. -/
def decodeCode : Code → Except DecodeError (Instr × List Word)
  | .words ws => decode ws
  | .symbol b => .ok (decodeSymbol b, [])
  | .attnKind b => .ok (decodeAttn b, [])

/-! The encoder, from the same tables. -/

/-- Word 0 from its tag and operand (30_encoding R71). -/
def word0 (tag : BitVec 2) (opa : BitVec 30) : Word := tag ++ opa

/-- Word 1 of a TONE from its reserved bits and `NF` (30_encoding R74). -/
def toneWord1 (rsvd : BitVec 28) (nf : Nat) : Word := rsvd ++ BitVec.ofNat 4 nf

/-- The PMEM words of a descriptor (30_encoding R72 to R75). -/
def encodeWords : Instr → List Word
  | .silence dur => [word0 0 dur]
  | .tonebytes len base => [word0 1 len, base]
  | .tone dur rsvd freqs => word0 2 dur :: toneWord1 rsvd freqs.length :: freqs
  | .audio len base => [word0 3 len, base]
  | .mark => []
  | .space => []
  | .attnSingle => []
  | .attnCombined => []

/-- The code of an instruction (30_encoding R72 to R75, R80, R82). -/
def encode : Instr → Code
  | .silence dur => .words (encodeWords (.silence dur))
  | .tonebytes len base => .words (encodeWords (.tonebytes len base))
  | .tone dur rsvd freqs => .words (encodeWords (.tone dur rsvd freqs))
  | .audio len base => .words (encodeWords (.audio len base))
  | .mark => .symbol true
  | .space => .symbol false
  | .attnSingle => .attnKind false
  | .attnCombined => .attnKind true

/-- The longest descriptor, a TONE of 15 frequencies, has 17 words (20_memory R58). -/
def longestWords : Nat := 17

/-- The words of an instruction whose first `nbits` bits are `w`, bit 0 the least significant bit of word 0, every
later bit zero, up to the longest descriptor. -/
def tableWords (nbits w : Nat) : List Word :=
  (List.range longestWords).map fun k => BitVec.ofNat 32 ((w % 2 ^ nbits) >>> (32 * k))

/-- The instruction the decoder reads from table bits. A code shorter than one word is no descriptor: it is taken
as a symbol, the bit sent first, bit 0 (20_memory R55; log 18). -/
def decodeTableWord (nbits w : Nat) : Option Instr :=
  if nbits < 32 then some (decodeSymbol (w.testBit 0))
  else
    match decode (tableWords nbits w) with
    | .ok (i, _) => some i
    | .error _ => none

end Sys2Proof
end

