-- ==== Sys2Proof/Machine/State.lean ====
section
/-! DEFINITION. The state of the block, as plain data, and the reasons a step can stop (10_state R20 to R45). -/

namespace Sys2Proof.Machine

/-- `ST`, the run state (10_state R28). -/
inductive RunState where
  | idle
  | run
  | done
  | error
  deriving DecidableEq, Repr

/-- The causes of an error (60_exceptions R211). -/
inductive ErrCause where
  | locCount
  | attnDur
  | noFreq
  | nFreq
  | rsvd
  | org
  | time
  | bounds
  | uninit
  deriving DecidableEq, Repr

/-- One access of the outside world (10_state R45, 70_reset_and_hazards R230). Reads are functions of the state
(`hostReadCr`, `hostReadHr`, the field `out`), since they never change it (10_state R45). -/
inductive HostOp where
  /-- The host writes control register CR`n`; the commands START and CLEAR are writes to CR0 (10_state R26, R27). -/
  | writeCr (n : Fin 16) (v : Word)
  /-- The host writes header register HR`n` (10_state R37, R38). -/
  | writeHr (n : Fin 69) (v : Word)
  /-- The host writes element `a` of PMEM (20_memory R50). -/
  | writePmem (a : Word) (v : Word)
  /-- The host writes element `a` of BMEM (20_memory R50). -/
  | writeBmem (a : Word) (v : Byte)
  /-- The host writes element `a` of AMEM (20_memory R50). -/
  | writeAmem (a : Word) (v : Sample)
  /-- Reset, from outside the block, in any state (70_reset_and_hazards R230). -/
  | reset
  /-- The host changes nothing for one step: the block makes its own. -/
  | hold
  deriving DecidableEq, Repr

/-- The whole state of the block (10_state R20). The counters that R23 lets a model hold as unbounded naturals are
naturals (log 10); `outcnt` is one as R34 says. -/
structure State where
  /-- W0 `PCW`, word address in PMEM of the current descriptor (10_state R22). -/
  pcw : Nat
  /-- W1 `SECP`, ordinal of that descriptor (10_state R22). -/
  secp : Nat
  /-- W2 `BYTEP`, index of the byte being modulated (10_state R22). -/
  bytep : Nat
  /-- W3 `BITP`, index of the bit being modulated (10_state R22). -/
  bitp : BitVec 3
  /-- W4 `SAMP`, index of the next sample of the current segment (10_state R22). -/
  samp : Nat
  /-- W5 `NCUR`, length of the current segment (10_state R22). -/
  ncur : Nat
  /-- W6 `CCUR`, cycle count of the current bit (10_state R22). -/
  ccur : BitVec 3
  /-- W7 `SHREG`, the byte being modulated (10_state R22). -/
  shreg : Byte
  /-- The field `ST` of CR1 `STATUS` (10_state R28). -/
  st : RunState
  /-- CR2 `SRATE` (10_state R29). -/
  srate : Word
  /-- CR3 `CFG` (10_state R30). -/
  cfg : Word
  /-- CR4 `ATTN_DUR` (10_state R31). -/
  attnDur : Word
  /-- CR5 `MSG_BASE` (10_state R32). -/
  msgBase : Word
  /-- CR6 `MSG_LEN` (10_state R32). -/
  msgLen : Word
  /-- CR7 `PLEN` (10_state R33). -/
  plen : Word
  /-- CR8 and CR9 `OUTCNT` (10_state R34). -/
  outcnt : Nat
  /-- CR10 `ERRINFO` (10_state R35). -/
  errinfo : Word
  /-- HR0 to HR68 (10_state R37, R38). -/
  hr : Vector (BitVec 32) 69
  /-- The *written* marks of HR0 to HR68 (10_state R44). -/
  hrWritten : Vector Bool 69
  /-- PMEM, the written elements (20_memory R51, 10_state R44). -/
  pmem : List (Nat × BitVec 32)
  /-- BMEM, the written elements (20_memory R52, 10_state R44). -/
  bmem : List Host.Cell
  /-- AMEM, the written elements (20_memory R53, 10_state R44). -/
  amem : List (Nat × BitVec 32)
  /-- OUT, the samples emitted since the last START, first one first (10_state R40, 20_memory R54). -/
  out : List (BitVec 32)
  /-- The model's own field (log 1): the accesses the outside world has still to make, next one first. -/
  inputs : List HostOp
  deriving DecidableEq, Repr

/-- Why the machine stops with a fault: for no reason, so there is no constructor. The block's own errors are no faults,
since `raise` is a next state (60_exceptions R214), and a host access is allowed or ignored (60_exceptions R222). -/
inductive Fault where
  deriving DecidableEq, Repr

/-- Why the model gives a step no meaning. -/
inductive Refusal where
  /-- Raised by an instruction that is still without a meaning; none is. Safe. -/
  | notModelled (mnemonic : String)
  /-- Raised by the emission that would bring `OUTCNT` to 2^64: such a run has no meaning (10_state R34;
  93_implementation_defined U11, treatment `refuse`). Safe: the model stops where an implementation would wrap
  (log 9). -/
  | outputTooLong
  deriving DecidableEq, Repr

/-- The block right after reset (10_state R43, 70_reset_and_hazards R230). The contents of the header registers, which
the spec leaves unspecified, are zero and unwritten (log 3, DESIGN CHOICE, unsafe). -/
def State.reset : State where
  pcw := 0
  secp := 0
  bytep := 0
  bitp := 0
  samp := 0
  ncur := 0
  ccur := 0
  shreg := 0
  st := .idle
  srate := 0
  cfg := 0
  attnDur := 0
  msgBase := 0
  msgLen := 0
  plen := 0
  outcnt := 0
  errinfo := 0
  hr := Vector.replicate 69 0
  hrWritten := Vector.replicate 69 false
  pmem := []
  bmem := []
  amem := []
  out := []
  inputs := []

end Sys2Proof.Machine
end

