-- ==== Sys2Proof/Machine/Operands.lean ====
section
/-! DEFINITION. Operand forms and numerics: durations, frequencies, sample counts, cycle counts, phases, and the
tone and mixer functions with the properties the spec requires of them (30_encoding R77 to R81,
40_tone_generator R100 to R114, 41_bit_modulator R121, R122). -/

namespace Sys2Proof.Machine

/-! Durations, frequencies and sample counts. -/

/-- A duration field in seconds (30_encoding R77). -/
def seconds (ticks : Nat) : Rat := mkRat ticks Config.ticksPerSecond

/-- A frequency field in hertz (30_encoding R78). -/
def hertz (freq : Nat) : Rat := mkRat freq Config.unitsPerHertz

/-- `Ncount(sr, d) = floor(sr * d)` for a duration of `ticks`, exactly (00_scope R17, 40_tone_generator R101). -/
def ncount (sr ticks : Nat) : Nat := sr * ticks / Config.ticksPerSecond

/-- `NBIT(sr)`, the samples of one bit (00_scope R17, 41_bit_modulator R122). -/
def nbit (sr : Nat) : Nat := ncount sr Config.bitDur

/-! Symbols and cycle counts. -/

/-- `Sym(v, k)`, bit `k` of a byte (41_bit_modulator R121, 20_memory R55). -/
def sym (v : Byte) (k : Nat) : Bool := v.getLsbD k

/-- `Cyc(b)`, the sine cycles of one bit (41_bit_modulator R122). -/
def cyc (b : Bool) : BitVec 3 := if b then Config.markCycles else Config.spaceCycles

/-! Sample values. -/

/-- `+0.0`, bit pattern 0 (44_section_sequencer R172, 40_tone_generator R114). -/
def posZero : Sample := 0

/-- The sample lies in [-1.0, 1.0], so it is no NaN and no infinity: its magnitude bits are at most those of 1.0
(00_scope R14, property P1 of 40_tone_generator R103). -/
def inUnit (v : Sample) : Bool := v.extractLsb' 0 31 ≤ 0x3F800000#31

/-- The exact value of a finite binary32 sample (40_tone_generator R114: IEEE 754 binary32). -/
def sampleValue (v : Sample) : Rat :=
  let e := (v.extractLsb' 23 8).toNat
  let m := (v.extractLsb' 0 23).toNat
  let sign : Rat := if v.getLsbD 31 then -1 else 1
  if e = 0 then sign * m * (2 : Rat) ^ (-149 : Int)
  else sign * (2 ^ 23 + m : Nat) * (2 : Rat) ^ ((e : Int) - 150)

/-- A sample in range from free bits: every sample in range is its value for some bits, and it has no other. -/
def intoUnit (v : Sample) : Sample := if inUnit v then v else posZero

/-- `TONE_SAMPLE`, the emitted sample for a phase in cycles (40_tone_generator R103): free but for P0 (`+0.0` at
phase 0) and P1 (in [-1, 1]); P3 holds because it is a function of the phase; P2 is `SineAccurate` below. -/
def toneSample (phase : Rat) : Sample :=
  if phase = 0 then posZero else intoUnit (Config.toneBits phase)

/-- `MIX`, the mixer (40_tone_generator R109): free but for M0 (all `+0.0` gives `+0.0`), M1 (inputs in range give a
result in range) and M3 (one input is passed on); M4 holds because it is a function of the list; M2 is
`MixAccurate` below. Its contract needs one input or more (R111), so nothing is said of the empty list. -/
def mix (vs : List Sample) : Sample :=
  match vs with
  | [] => Config.mixBits []
  | [v] => v
  | v :: w :: rest =>
    if (v :: w :: rest).all (· == posZero) then posZero
    else if (v :: w :: rest).all inUnit then intoUnit (Config.mixBits (v :: w :: rest))
    else Config.mixBits (v :: w :: rest)

/-- Property P2 (40_tone_generator R103) for the OPEN bound `tol`: a premise for claims about sample values. -/
def SineAccurate (tol : ℝ) : Prop :=
  ∀ phase : Rat, 0 ≤ phase → |((sampleValue (toneSample phase) : Rat) : ℝ) - Real.sin (2 * Real.pi * (phase : ℝ))| ≤ tol

/-- Property M2 (40_tone_generator R109) for the OPEN bound `tol`, on inputs in range: a premise for claims about
sample values. -/
def MixAccurate (tol : ℝ) : Prop :=
  ∀ vs : List Sample, vs ≠ [] → vs.all inUnit = true →
    |((sampleValue (mix vs) : Rat) : ℝ) - (((vs.map sampleValue).sum / (vs.length : Rat) : Rat) : ℝ)| ≤ tol

/-! Phases and the samples EMIT computes from them. -/

/-- The phase in cycles of sample `i` of a segment of `n >= 2` samples spanning `cycles` whole cycles: divisor
`n - 1` (40_tone_generator R104). -/
def bitPhase (n cycles i : Nat) : Rat := mkRat (i * cycles : Nat) (n - 1)

/-- The sample EMIT of a bit segment computes: sample `i` of `Single(n, cycles)`, with the guard `+0.0` for a
segment of one sample (40_tone_generator R105, 41_bit_modulator R129). -/
def bitSample (n cycles i : Nat) : Sample := if n ≤ 1 then posZero else toneSample (bitPhase n cycles i)

/-- The phase in cycles of sample `i` of carrier `freq` in a TONE of `dur` ticks and `n` samples: divisor `n`
(40_tone_generator R108, R115). -/
def carrierPhase (n dur freq i : Nat) : Rat :=
  mkRat (i * freq * dur : Nat) (n * (Config.unitsPerHertz * Config.ticksPerSecond))

/-- The sample EMIT of a TONE computes (40_tone_generator R115). -/
def toneMix (n dur : Nat) (freqs : List Word) (i : Nat) : Sample :=
  mix (freqs.map fun f => toneSample (carrierPhase n dur f.toNat i))

end Sys2Proof.Machine
end

