-- ==== Sys2Proof/Machine/Flags.lean ====
section
/-! DEFINITION. Status bits, register fields and register images (10_state R26 to R39, 60_exceptions R211). The block
has no condition codes (10_state R39). -/

namespace Sys2Proof.Machine

/-- The value of the field `ST` (10_state R28). -/
def stCode : RunState → BitVec 2
  | .idle => 0
  | .run => 1
  | .done => 2
  | .error => 3

/-- `BUSY` (10_state R28). -/
def busy (s : State) : Bool := s.st == .run
/-- `DONEF` (10_state R28). -/
def donef (s : State) : Bool := s.st == .done
/-- `ERRF` (10_state R28). -/
def errf (s : State) : Bool := s.st == .error

/-- The word CR1 `STATUS` reads as (10_state R28). -/
def statusWord (s : State) : Word :=
  (0 : BitVec 27) ++ BitVec.ofBool (errf s) ++ BitVec.ofBool (donef s) ++ BitVec.ofBool (busy s) ++ stCode s.st

/-- The code `ERRCODE` records for a cause (60_exceptions R211). -/
def errCode : ErrCause → BitVec 4
  | .locCount => 1
  | .attnDur => 2
  | .noFreq => 3
  | .nFreq => 4
  | .rsvd => 5
  | .org => 6
  | .time => 7
  | .bounds => 8
  | .uninit => 9

/-- `ERRSEC`, `SECP` saturated at 2^28 - 1 (10_state R35, 60_exceptions R214). -/
def errSec (secp : Nat) : BitVec 28 := BitVec.ofNat 28 (min secp (2 ^ 28 - 1))

/-- The word CR10 `ERRINFO` holds after an error (10_state R35). -/
def errWord (e : ErrCause) (secp : Nat) : Word := errSec secp ++ errCode e

/-- `ERRINFO.ERRCODE` (10_state R35). -/
def errCodeOf (s : State) : BitVec 4 := s.errinfo.extractLsb' 0 4
/-- `ERRINFO.ERRSEC` (10_state R35). -/
def errSecOf (s : State) : BitVec 28 := s.errinfo.extractLsb' 4 28

/-! The fields of CR3 `CFG` (10_state R30). -/

/-- `CFG.CRIT`. -/
def crit (s : State) : Bool := s.cfg.getLsbD 0
/-- `CFG.MSGP`. -/
def msgp (s : State) : Bool := s.cfg.getLsbD 1
/-- `CFG.ATTNK`: false is SingleTone, true is CombinedTone. -/
def attnk (s : State) : Bool := s.cfg.getLsbD 2
/-- `CFG.APOL`: false is GATED, true is ALWAYS. -/
def apol (s : State) : Bool := s.cfg.getLsbD 3
/-- `CFG.PREROLL`: false is 1.0 s, true is 4.0 s. -/
def preroll (s : State) : Bool := s.cfg.getLsbD 4
/-- `CFG.MODE`: false is WARNING, true is DIRECT. -/
def modeDirect (s : State) : Bool := s.cfg.getLsbD 5

/-! Which bits of a register hold a value; the others read zero and ignore writes (10_state R26, R37, R38). -/

/-- The named bits of `CFG` (10_state R30). -/
def cfgMask : Word := 0x0000003F
/-- The named bits of `MSG_LEN` (10_state R32). -/
def msgLenMask : Word := 0x3FFFFFFF
/-- The named bits of HR`n` (10_state R37, R38). -/
def hrMask (n : Nat) : Word :=
  if n = 0 then 0x00000007
  else if n = 1 then 0x00FFFFFF
  else if n = 2 then 0x0000003F
  else if n = 4 then 0x01FF1F3F
  else if n < 8 then 0xFFFFFFFF
  else if n % 2 = 0 then 0x0000FFFF
  else 0xFFFFFFFF

/-! The fields of the header registers (10_state R37, R38). -/

/-- `HR0.ORG`. -/
def orgOf (s : State) : Nat := (s.hr[0].extractLsb' 0 3).toNat
/-- `HR2.NLOC`. -/
def nlocOf (s : State) : Nat := (s.hr[2].extractLsb' 0 6).toNat
/-- `HR4.MIN`. -/
def minOf (s : State) : Nat := (s.hr[4].extractLsb' 0 6).toNat
/-- `HR4.HOUR`. -/
def hourOf (s : State) : Nat := (s.hr[4].extractLsb' 8 5).toNat
/-- `HR4.DOY`. -/
def doyOf (s : State) : Nat := (s.hr[4].extractLsb' 16 9).toNat

/-- HR`n` by a number; a number past HR68 names no register and no rule asks for one. -/
def hrAt (s : State) (n : Nat) : Word := s.hr[n]?.getD 0

/-- The *written* mark of HR`n` (10_state R44). -/
def hrMark (s : State) (n : Nat) : Bool := s.hrWritten[n]?.getD false

/-- Byte `j` of a packed word: the byte with the lower string index is in the less significant bits (20_memory R56). -/
def byteOf (w : Word) (j : Nat) : Byte := w.extractLsb' (8 * j) 8

/-- The first `n` bytes of a packed word, in string order (20_memory R56). -/
def bytesOf (w : Word) (n : Nat) : List Byte := (List.range n).map (byteOf w)

/-- `EVT[0..2]` (10_state R37). -/
def evtBytes (s : State) : List Byte := bytesOf s.hr[1] 3
/-- `PURGE[0..3]` (10_state R37). -/
def purgeBytes (s : State) : List Byte := bytesOf s.hr[3] 4
/-- `CALL[0..7]` (10_state R37). -/
def callBytes (s : State) : List Byte := bytesOf s.hr[5] 4 ++ bytesOf s.hr[6] 4
/-- `LOC[k][0..5]` (10_state R38). -/
def locBytes (s : State) (k : Nat) : List Byte := bytesOf (hrAt s (7 + 2 * k)) 4 ++ bytesOf (hrAt s (8 + 2 * k)) 2

end Sys2Proof.Machine
end

