-- ==== Sys2Proof/Machine/Ops.lean ====
section
/-! DEFINITION. The shared operations: memory, emission, taking an error and returning from one, and the moves of the
position (20_memory, 44_section_sequencer R195 to R201, 60_exceptions R214, R219). -/

namespace Sys2Proof.Machine

/-! Memory (20_memory R50, R68). -/

/-- The element at an address, none when it has not been written since reset. -/
def memRead {w : Nat} (m : Mem w) (a : Nat) : Option (BitVec w) :=
  match m with
  | [] => none
  | (b, v) :: rest => if b = a then some v else memRead rest a

/-- Write an element; its *written* mark is its being listed (10_state R44). -/
def memWrite {w : Nat} (m : Mem w) (a : Nat) (v : BitVec w) : Mem w :=
  match m with
  | [] => [(a, v)]
  | (b, x) :: rest =>
    if a < b then (a, v) :: (b, x) :: rest
    else if a = b then (a, v) :: rest
    else (b, x) :: memWrite rest a v

/-- Write consecutive elements from an address up. -/
def memWriteMany {w : Nat} (m : Mem w) (a : Nat) (vs : List (BitVec w)) : Mem w :=
  match vs with
  | [] => m
  | v :: rest => memWriteMany (memWrite m a v) (a + 1) rest

/-- Read `n` consecutive elements from an address up, none when one of them is unwritten. -/
def memReadMany {w : Nat} (m : Mem w) (a : Nat) (n : Nat) : Option (List (BitVec w)) :=
  match n with
  | 0 => some []
  | n + 1 =>
    match memRead m a with
    | none => none
    | some v => (memReadMany m (a + 1) n).map (v :: ·)

/-- The canonical form: addresses strictly rising. An unlisted address holds no value, so no entry can equal what it
reads as. -/
abbrev memWf {w : Nat} (m : Mem w) : Prop := m.Pairwise (fun x y => x.1 < y.1)

/-- Every listed address is below the size of the memory (20_memory R60). -/
abbrev memBelow {w : Nat} (m : Mem w) (size : Nat) : Prop := ∀ x ∈ m, x.1 < size

/-! Taking an error, and the way back. -/

/-- `raise`: the cause and the saturated `SECP` are recorded, `ST` becomes ERROR, and nothing else changes
(60_exceptions R214). -/
def raise (e : ErrCause) (s : State) : State :=
  { s with errinfo := errWord e s.secp, st := .error }

/-- All working registers to 0 (44_section_sequencer R196, 60_exceptions R219). -/
def clearWork (s : State) : State :=
  { s with pcw := 0, secp := 0, bytep := 0, bitp := 0, samp := 0, ncur := 0, ccur := 0, shreg := 0 }

/-- CLEAR, the return from DONE or ERROR to IDLE (60_exceptions R219). -/
def clear (s : State) : State :=
  { clearWork s with st := .idle, errinfo := 0, outcnt := 0, out := [] }

/-- What START resets before anything else (44_section_sequencer R196, first line). -/
def openRun (s : State) : State :=
  { clearWork s with out := [], outcnt := 0, errinfo := 0, st := .run }

/-- FINISH (44_section_sequencer R200). -/
def finish (s : State) : State := { s with st := .done }

/-! Emission (00_scope R13, 10_state R34, R40). -/

/-- Append one sample to OUT and count it. -/
def pushSample (v : Sample) (s : State) : State := { s with out := s.out ++ [v], outcnt := s.outcnt + 1 }

/-- The next sample of the segment (44_section_sequencer R198: EMIT advances `SAMP`). -/
def nextSample (s : State) : State := { s with samp := s.samp + 1 }

/-- `Emit(v)`, then `after`. The sample that would make it 2^64 samples has no meaning (10_state R34, log 9). -/
def emitThen (v : Sample) (after : State → State) (s : State) : Host.Outcome State Fault Refusal :=
  if s.outcnt + 1 < 2 ^ 64 then .next (after (pushSample v s)) else .refused .outputTooLong

/-! The position (10_state R24, R25). -/

/-- RETIRE's move to the next descriptor, `n` words on (44_section_sequencer R199, the first three lines). -/
def advance (n : Nat) (s : State) : State :=
  { s with pcw := s.pcw + n, secp := s.secp + 1, bytep := 0, bitp := 0, samp := 0, ncur := 0, ccur := 0, shreg := 0 }

/-- What the FETCH part of a descriptor's rule leaves: a segment of `n` samples, at its first sample
(44_section_sequencer R197). -/
def openSegment (n : Nat) (s : State) : State := { s with ncur := n, bytep := 0, bitp := 0, samp := 0 }

/-- Load the byte being modulated and the cycle count of its bit `BITP` (41_bit_modulator R129). -/
def loadByte (v : Byte) (s : State) : State := { s with shreg := v, ccur := cyc (sym v s.bitp.toNat) }

/-! Reading the plan (20_memory R51, R60, R68). -/

/-- One word of the plan: `E_BOUNDS` at or beyond `PLEN` or the size of PMEM, `E_UNINIT` when it is unwritten
(60_exceptions R217 "in a FETCH" (1), (2)). -/
def readPlan (s : State) (a : Nat) : Except ErrCause Word :=
  if s.plen.toNat ≤ a then .error .bounds
  else if Config.pmemWords ≤ a then .error .bounds
  else
    match memRead s.pmem a with
    | none => .error .uninit
    | some w => .ok w

/-- The descriptor at word `p` of the plan (30_encoding R76, 44_section_sequencer R197). -/
def descriptorAt (s : State) (p : Nat) : Except ErrCause Instr := decodeWith fun k => readPlan s (p + k)

/-- Write words to the plan from its present end, and move the end (44_section_sequencer R187). -/
def appendPlan (ws : List Word) (s : State) : State :=
  { s with pmem := memWriteMany s.pmem s.plen.toNat ws, plen := BitVec.ofNat 32 (s.plen.toNat + ws.length) }

end Sys2Proof.Machine
end

