-- ==== Sys2Proof/Machine/Attention.lean ====
section
/-! DEFINITION. ATTN: the duration check, the two kinds and their tone specification (43_attention_signal). -/

namespace Sys2Proof.Machine

/-- `AttnCheck` (43_attention_signal R161; 60_exceptions R217 (6), (7)). -/
def attnCheck (s : State) : Option ErrCause :=
  if s.attnDur.toNat < Config.attnMin then some .attnDur
  else if 2 ^ 30 ≤ s.attnDur.toNat then some .rsvd
  else none

/-- The frequency set of a kind (43_attention_signal R164). -/
def attnFreqs (combined : Bool) : List Word := if combined then Config.fComb else Config.fSingle

/-- The section the plan carries for a kind, as its descriptor (43_attention_signal R162, R163). -/
def attnTone (combined : Bool) (s : State) : Instr := .tone (s.attnDur.setWidth 30) 0 (attnFreqs combined)

/-- The plan has no room for `n` more words: PMEM ends before, or `PLEN` does (20_memory R60, 10_state R33). -/
def noRoom (n : Nat) (s : State) : Bool := Config.pmemWords < s.plen.toNat + n || 2 ^ 32 ≤ s.plen.toNat + n

/-- An attention kind: the check, then its descriptor at the end of the plan (43_attention_signal R162, R163,
44_section_sequencer R187); `E_BOUNDS` when there is no room for it (20_memory R60, log 17). -/
def attnConstruct (combined : Bool) (s : State) : Host.Outcome State Fault Refusal :=
  match attnCheck s with
  | some e => .next (raise e s)
  | none =>
    if noRoom (wordsOf (attnTone combined s)) s then .next (raise .bounds s)
    else .next (appendPlan (encodeWords (attnTone combined s)) s)

/-- ATTN_SINGLE (43_attention_signal R162). -/
def execAttnSingle (s : State) : Host.Outcome State Fault Refusal := attnConstruct false s

/-- ATTN_COMBINED (43_attention_signal R163). -/
def execAttnCombined (s : State) : Host.Outcome State Fault Refusal := attnConstruct true s

end Sys2Proof.Machine
end

