-- ==== Sys2Proof/Machine/Fetch.lean ====
section
/-! DEFINITION. FETCH and RETIRE: the FETCH part of each descriptor's rule, its checks in the order of 60_exceptions
R217, and the move to the next descriptor (44_section_sequencer R195, R197, R199). -/

namespace Sys2Proof.Machine

/-! The checks of the FETCH parts. -/

/-- The checks of a TONE, in order (40_tone_generator R115; 60_exceptions R217 "in a FETCH" (4) to (6)). -/
def toneCheck (rsvd : BitVec 28) (freqs : List Word) : Option ErrCause :=
  if rsvd ≠ 0 then some .rsvd
  else if freqs.length = 0 then some .noFreq
  else if Config.nfreqMax < freqs.length then some .nFreq
  else none

/-- The checks of a TONEBYTES, in order: the bounds of `BASE + LEN`, exactly, and then the first byte when one is read
(41_bit_modulator R129; 60_exceptions R217 "in a FETCH" (7), (8)). -/
def tonebytesCheck (len base : Nat) (s : State) : Option ErrCause :=
  if Config.bmemBytes < base + len then some .bounds
  else if 0 < len ∧ 0 < nbit s.srate.toNat ∧ memRead s.bmem base = none then some .uninit
  else none

/-- The check of an AUDIO (44_section_sequencer R173). -/
def audioCheck (len base : Nat) : Option ErrCause :=
  if Config.amemSamples < base + len then some .bounds else none

/-- The checks of a descriptor's FETCH part. -/
def fetchCheck (i : Instr) (s : State) : Option ErrCause :=
  match i with
  | .silence _ => none
  | .tonebytes len base => tonebytesCheck len.toNat base.toNat s
  | .tone _ rsvd freqs => toneCheck rsvd freqs
  | .audio len base => audioCheck len.toNat base.toNat
  | .mark => none
  | .space => none
  | .attnSingle => none
  | .attnCombined => none

/-! What the FETCH parts load once the checks pass. -/

/-- The FETCH part of SILENCE (44_section_sequencer R172). -/
def loadSilence (dur : Nat) (s : State) : State := openSegment (ncount s.srate.toNat dur) s

/-- The FETCH part of TONE (40_tone_generator R115). -/
def loadTone (dur : Nat) (s : State) : State := openSegment (ncount s.srate.toNat dur) s

/-- The FETCH part of AUDIO (44_section_sequencer R173). -/
def loadAudio (len : Nat) (s : State) : State := openSegment len s

/-- The FETCH part of TONEBYTES: the first byte is loaded when there is one and a bit has a sample
(41_bit_modulator R129). -/
def loadTonebytes (len base : Nat) (s : State) : State :=
  let t := openSegment (nbit s.srate.toNat) s
  if 0 < len ∧ 0 < nbit s.srate.toNat then
    match memRead s.bmem base with
    | some v => loadByte v t
    | none => t
  else t

/-- What the FETCH part of a descriptor loads. The symbols and the attention kinds are no descriptors: FETCH never
decodes one. -/
def load (i : Instr) (s : State) : State :=
  match i with
  | .silence dur => loadSilence dur.toNat s
  | .tonebytes len base => loadTonebytes len.toNat base.toNat s
  | .tone dur _ _ => loadTone dur.toNat s
  | .audio len _ => loadAudio len.toNat s
  | .mark => s
  | .space => s
  | .attnSingle => s
  | .attnCombined => s

/-- FETCH at `PCW` (44_section_sequencer R197): nothing at the end of the plan; otherwise the descriptor is read,
checked and loaded. A FETCH that raises loads nothing (60_exceptions R214, log 13). -/
def fetch (s : State) : State :=
  if s.pcw = s.plen.toNat then s
  else
    match descriptorAt s s.pcw with
    | .error e => raise e s
    | .ok i =>
      match fetchCheck i s with
      | some e => raise e s
      | none => load i s

/-- RETIRE of a descriptor of `n` words (44_section_sequencer R199). -/
def retire (n : Nat) (s : State) : State := fetch (advance n s)

/-- `Exhausted()` (44_section_sequencer R195). -/
def exhausted (i : Instr) (s : State) : Bool :=
  match i with
  | .silence _ => s.samp == s.ncur
  | .tonebytes len _ => s.ncur == 0 || s.bytep == len.toNat
  | .tone _ _ _ => s.samp == s.ncur
  | .audio _ _ => s.samp == s.ncur
  | .mark => s.samp == s.ncur
  | .space => s.samp == s.ncur
  | .attnSingle => true
  | .attnCombined => true

/-- One step of the descriptor at `PCW`: an error its FETCH part has to report, else RETIRE when it is exhausted, else
one EMIT (44_section_sequencer R195). In a run the FETCH part has passed before and reports nothing (log 2). -/
def descriptorStep (i : Instr) (emitOne : State → Host.Outcome State Fault Refusal) (s : State) :
    Host.Outcome State Fault Refusal :=
  match fetchCheck i s with
  | some e => .next (raise e s)
  | none => if exhausted i s then .next (retire (wordsOf i) s) else emitOne s

end Sys2Proof.Machine
end

