-- ==== Sys2Proof/Machine/BitModulator.lean ====
section
/-! DEFINITION. The symbols MARK and SPACE and the TONEBYTES descriptor (41_bit_modulator R123, R124, R129). -/

namespace Sys2Proof.Machine

/-- One EMIT of a bit segment of `NBIT(SRATE)` samples and `cycles` cycles: sample `SAMP`, then the next; nothing once
the segment is over, so nothing at all for `NBIT` = 0 (41_bit_modulator R123, R124; log 16). -/
def emitSymbol (cycles : BitVec 3) (s : State) : Host.Outcome State Fault Refusal :=
  if s.samp < nbit s.srate.toNat then
    emitThen (bitSample (nbit s.srate.toNat) cycles.toNat s.samp) nextSample s
  else .next s

/-- MARK, the symbol 1: 4 cycles in one bit interval (41_bit_modulator R123). -/
def execMark (s : State) : Host.Outcome State Fault Refusal := emitSymbol Config.markCycles s

/-- SPACE, the symbol 0: 3 cycles in one bit interval (41_bit_modulator R124). -/
def execSpace (s : State) : Host.Outcome State Fault Refusal := emitSymbol Config.spaceCycles s

/-- The sample about to be emitted is the first of a byte: the EMIT reads the byte (20_memory R58). -/
def startsByte (s : State) : Bool := s.samp == 0 && s.bitp == 0

/-- The move to the next byte: it is loaded when there is one (41_bit_modulator R129, `BITP = 7`). A byte that is
unwritten has no value to load, and the EMIT that starts it reports that (log 12). -/
def nextByte (len base : Nat) (s : State) : State :=
  let t := { s with bitp := 0, bytep := s.bytep + 1 }
  if s.bytep + 1 < len then
    match memRead s.bmem (base + (s.bytep + 1)) with
    | some v => loadByte v t
    | none => t
  else t

/-- The move to the next bit of the byte (41_bit_modulator R129, `BITP` below 7). -/
def nextBit (len : Nat) (s : State) : State :=
  let t := { s with bitp := s.bitp + 1 }
  if s.bytep < len then loadByte s.shreg t else t

/-- What an EMIT of a TONEBYTES does after the sample: the next sample, and when the bit interval is over the gate to
the next bit or byte (41_bit_modulator R129). -/
def gate (len base : Nat) (s : State) : State :=
  if s.samp + 1 = s.ncur then
    let t := { s with samp := 0 }
    if s.bitp = 7 then nextByte len base t else nextBit len t
  else nextSample s

/-- EMIT of a TONEBYTES: sample `SAMP` of the current bit, then the gate; `E_UNINIT` instead, and nothing emitted, when
this EMIT starts a byte that is unwritten (41_bit_modulator R129, 20_memory R58, R68, 44_section_sequencer R198). So OUT
then holds every sample up to the unreadable byte (60_exceptions R215; log 12, DEDUCED). -/
def emitTonebytes (len base : Nat) (s : State) : Host.Outcome State Fault Refusal :=
  if startsByte s = true ∧ memRead s.bmem (base + s.bytep) = none then .next (raise .uninit s)
  else emitThen (bitSample s.ncur s.ccur.toNat s.samp) (gate len base) s

/-- TONEBYTES (41_bit_modulator R129). -/
def execTonebytes (len : BitVec 30) (base : Word) (s : State) : Host.Outcome State Fault Refusal :=
  descriptorStep (.tonebytes len base) (emitTonebytes len.toNat base.toNat) s

end Sys2Proof.Machine
end

