-- ==== Sys2Proof/Machine/Sequencer.lean ====
section
/-! DEFINITION. The SILENCE and AUDIO descriptors (44_section_sequencer R172, R173). -/

namespace Sys2Proof.Machine

/-- EMIT of a SILENCE: one `+0.0` (44_section_sequencer R172). -/
def emitSilence (s : State) : Host.Outcome State Fault Refusal := emitThen posZero nextSample s

/-- SILENCE (44_section_sequencer R172). -/
def execSilence (dur : BitVec 30) (s : State) : Host.Outcome State Fault Refusal :=
  descriptorStep (.silence dur) emitSilence s

/-- EMIT of an AUDIO: sample `SAMP` of the message, bit for bit, or `E_UNINIT` when it is unwritten
(44_section_sequencer R173, R198). -/
def emitAudio (base : Nat) (s : State) : Host.Outcome State Fault Refusal :=
  match memRead s.amem (base + s.samp) with
  | none => .next (raise .uninit s)
  | some v => emitThen v nextSample s

/-- AUDIO (44_section_sequencer R173). -/
def execAudio (len : BitVec 30) (base : Word) (s : State) : Host.Outcome State Fault Refusal :=
  descriptorStep (.audio len base) (emitAudio base.toNat) s

end Sys2Proof.Machine
end

