-- ==== Sys2Proof/Machine/ToneGenerator.lean ====
section
/-! DEFINITION. The TONE descriptor (40_tone_generator R115). -/

namespace Sys2Proof.Machine

/-- EMIT of a TONE: the mix of its carriers at sample `SAMP`, divisor `NCUR` (40_tone_generator R115). -/
def emitTone (dur : Nat) (freqs : List Word) (s : State) : Host.Outcome State Fault Refusal :=
  emitThen (toneMix s.ncur dur freqs s.samp) nextSample s

/-- TONE (40_tone_generator R115). -/
def execTone (dur : BitVec 30) (rsvd : BitVec 28) (freqs : List Word) (s : State) : Host.Outcome State Fault Refusal :=
  descriptorStep (.tone dur rsvd freqs) (emitTone dur.toNat freqs) s

end Sys2Proof.Machine
end

