-- ==== Sys2Proof/Machine/Dispatch.lean ====
section
/-! DEFINITION. The dispatch: one arm per instruction. -/

namespace Sys2Proof.Machine

def exec (i : Instr) (s : State) : Host.Outcome State Fault Refusal :=
  match i with
  | .silence dur => Sys2Proof.Machine.execSilence dur s
  | .tonebytes len base => Sys2Proof.Machine.execTonebytes len base s
  | .tone dur rsvd freqs => Sys2Proof.Machine.execTone dur rsvd freqs s
  | .audio len base => Sys2Proof.Machine.execAudio len base s
  | .mark => Sys2Proof.Machine.execMark s
  | .space => Sys2Proof.Machine.execSpace s
  | .attnSingle => Sys2Proof.Machine.execAttnSingle s
  | .attnCombined => Sys2Proof.Machine.execAttnCombined s

end Sys2Proof.Machine
end

