-- ==== Sys2Proof/Machine/Framer.lean ====
section
/-! DEFINITION. FMT: the header and end-of-message byte strings and the header's validation (42_protocol_framer,
30_encoding R83, R88). -/

namespace Sys2Proof.Machine

/-- `-` (30_encoding R88). -/
def dash : Byte := 0x2D
/-- `+` (30_encoding R88). -/
def plus : Byte := 0x2B

/-- The preamble (42_protocol_framer R142). -/
def preamble : List Byte := List.replicate Config.preambleLen Config.preambleByte

/-- `"ZCZC-"` (42_protocol_framer R141, 30_encoding R88). -/
def startCode : List Byte := [0x5A, 0x43, 0x5A, 0x43, 0x2D]

/-- `OrgBytes(ORG)`: PEP, CIV, WXR, EAS, EAN (42_protocol_framer R143, 30_encoding R83). The values 5 to 7 have no
bytes: START and the assembler refuse them before anything is rendered (42_protocol_framer R151, log 30). -/
def orgBytes (org : Nat) : List Byte :=
  if org = 0 then [0x50, 0x45, 0x50]
  else if org = 1 then [0x43, 0x49, 0x56]
  else if org = 2 then [0x57, 0x58, 0x52]
  else if org = 3 then [0x45, 0x41, 0x53]
  else if org = 4 then [0x45, 0x41, 0x4E]
  else []

/-- The decimal digit `g` (30_encoding R88). -/
def digit (g : Nat) : Byte := 0x30 + BitVec.ofNat 8 g

/-- `Time7(DOY, HOUR, MIN)` (42_protocol_framer R146). -/
def time7 (doy hour min : Nat) : List Byte :=
  [digit (doy / 100), digit (doy / 10 % 10), digit (doy % 10),
   digit (hour / 10), digit (hour % 10), digit (min / 10), digit (min % 10)]

/-- `Call8(CALL)`: each `-` of the callsign replaced (42_protocol_framer R148). -/
def call8 (call : List Byte) : List Byte := call.map fun c => if c = dash then Config.callSubst else c

/-- The location group: each code preceded by `-`, in index order (42_protocol_framer R145). -/
def locGroup (s : State) : List Byte := (List.range (nlocOf s)).flatMap fun k => dash :: locBytes s k

/-- `FmtHeader(h)` for the header registers (42_protocol_framer R141). Registers that fail HdrBuild hold no header, and
START and the assembler refuse them before they ask for its string (42_protocol_framer R151, R152, log 30). -/
def fmtHeader (s : State) : List Byte :=
  preamble ++ startCode ++ orgBytes (orgOf s) ++ dash :: evtBytes s ++ locGroup s ++ plus :: purgeBytes s
    ++ dash :: time7 (doyOf s) (hourOf s) (minOf s) ++ dash :: call8 (callBytes s) ++ [dash]

/-- `FmtEom()` (42_protocol_framer R150). -/
def fmtEom : List Byte := preamble ++ [0x4E, 0x4E, 0x4E, 0x4E]

/-- `HL = 51 + 7 * NLOC`, the length of the header (42_protocol_framer R149, R153). -/
def headerLen (s : State) : Nat := 51 + 7 * nlocOf s

/-- HR0 to HR6 have been written (44_section_sequencer R196). -/
def fixedWritten (s : State) : Bool := (List.range 7).all (hrMark s)

/-- The location registers `k < NLOC` have been written (44_section_sequencer R196). -/
def locsWritten (s : State) : Bool :=
  (List.range (nlocOf s)).all fun k => hrMark s (7 + 2 * k) && hrMark s (8 + 2 * k)

/-- The time fields are out of range (42_protocol_framer R151). -/
def timeBad (s : State) : Bool := doyOf s == 0 || 366 < doyOf s || 23 < hourOf s || 59 < minOf s

/-- The checks of the header registers at a WARNING START, in the order of 60_exceptions R217 (1) to (5): HdrBuild
(42_protocol_framer R151) with the *written* checks between (log 11). -/
def headerCheck (s : State) : Option ErrCause :=
  if fixedWritten s = false then some .uninit
  else if Config.maxLoc < nlocOf s then some .locCount
  else if locsWritten s = false then some .uninit
  else if 4 < orgOf s then some .org
  else if timeBad s = true then some .time
  else none

/-- FMT's write of both strings to BMEM (42_protocol_framer R153). -/
def writeStrings (s : State) : State := { s with bmem := memWriteMany s.bmem 0 (fmtHeader s ++ fmtEom) }

end Sys2Proof.Machine
end

