-- ==== Sys2Proof/Machine/Plan.lean ====
section
/-! DEFINITION. The warning plan and START (44_section_sequencer R180 to R187, R196). -/

namespace Sys2Proof.Machine

/-- The gap `G` (44_section_sequencer R180). -/
def gapInstr : Instr := .silence Config.gap

/-- The header section `H` (44_section_sequencer R187). -/
def headerInstr (s : State) : Instr := .tonebytes (BitVec.ofNat 30 (headerLen s)) 0

/-- The end-of-message section `E` (44_section_sequencer R187). -/
def eomInstr (s : State) : Instr := .tonebytes 20 (BitVec.ofNat 32 (headerLen s))

/-- The attention group is rendered (44_section_sequencer R181). -/
def attended (s : State) : Bool := apol s || (crit s && msgp s)

/-- `Silence(pre)` (44_section_sequencer R182). -/
def prerollInstr (s : State) : Instr := .silence (if preroll s then Config.prerollLong else Config.gap)

/-- `Audio(msg)` (44_section_sequencer R182, R187). -/
def messageInstr (s : State) : Instr := .audio (s.msgLen.setWidth 30) s.msgBase

/-- `P1 = [H, G, H, G, H]` (44_section_sequencer R180). -/
def part1 (s : State) : List Instr := [headerInstr s, gapInstr, headerInstr s, gapInstr, headerInstr s]

/-- `P2 = [G, A, G]`, or nothing (44_section_sequencer R181). -/
def part2 (s : State) : List Instr := if attended s then [gapInstr, attnTone (attnk s) s, gapInstr] else []

/-- `P3 = [Silence(pre), Audio(msg)]`, or nothing (44_section_sequencer R182). -/
def part3 (s : State) : List Instr := if msgp s then [prerollInstr s, messageInstr s] else []

/-- `P4 = [G, E, G, E, G, E, Silence(TRAIL)]` (44_section_sequencer R183). -/
def part4 (s : State) : List Instr :=
  [gapInstr, eomInstr s, gapInstr, eomInstr s, gapInstr, eomInstr s, .silence Config.trail]

/-- `Plan(w)` as descriptors (44_section_sequencer R184, R187). -/
def planInstrs (s : State) : List Instr := part1 s ++ part2 s ++ part3 s ++ part4 s

/-- The words of a list of descriptors, packed without gaps (20_memory R51). -/
def packInstrs (is : List Instr) : List Word := is.flatMap encodeWords

/-- The write of the plan from word 0, and of `PLEN` (44_section_sequencer R187). -/
def writePlan (s : State) : State := appendPlan (packInstrs (planInstrs s)) { s with plen := 0 }

/-- All the checks of a WARNING START, in order (60_exceptions R217 (1) to (7)). -/
def warningCheck (s : State) : Option ErrCause :=
  match headerCheck s with
  | some e => some e
  | none => attnCheck s

/-- The end of START in either mode: the size of the plan, then FETCH of descriptor 0 (44_section_sequencer R196;
60_exceptions R217 (8)). -/
def startPlan (s : State) : State := if Config.pmemWords < s.plen.toNat then raise .bounds s else fetch s

/-- START (44_section_sequencer R196). -/
def start (s : State) : State :=
  let t := openRun s
  if modeDirect t then startPlan t
  else
    match warningCheck t with
    | some e => raise e t
    | none => startPlan (writePlan (writeStrings t))

end Sys2Proof.Machine
end

