-- ==== Sys2Proof/Machine/HostPort.lean ====
section
/-! DEFINITION. The host's accesses: register reads and writes, memory writes, START, CLEAR and reset
(10_state R26 to R45, 70_reset_and_hazards R230 to R236), and the load of a program from outside (log 19). -/

namespace Sys2Proof.Machine

/-! Reads: total, and no part of a step (10_state R45). -/

/-- The word control register CR`n` reads as (10_state R27 to R36). -/
def hostReadCr (n : Fin 16) (s : State) : Word :=
  match n.val with
  | 1 => statusWord s
  | 2 => s.srate
  | 3 => s.cfg
  | 4 => s.attnDur
  | 5 => s.msgBase
  | 6 => s.msgLen
  | 7 => s.plen
  | 8 => BitVec.ofNat 32 s.outcnt
  | 9 => BitVec.ofNat 32 (s.outcnt / 2 ^ 32)
  | 10 => s.errinfo
  | _ => 0

/-- The word header register HR`n` reads as (10_state R37, R38). -/
def hostReadHr (n : Fin 69) (s : State) : Word := s.hr[n]

/-! Writes. -/

/-- A write to CR0 `CTRL` (10_state R27): CLEAR from DONE or ERROR, START from IDLE, both bits at once is CLEAR alone,
anything else is ignored. -/
def writeCtrl (v : Word) (s : State) : State :=
  if v.getLsbD 1 then
    if s.st = .done ∨ s.st = .error then clear s else s
  else if v.getLsbD 0 then
    if s.st = .idle then start s else s
  else s

/-- A write to a control register other than CR0, outside a run: reserved bits and read-only registers ignore it
(10_state R26 to R36). -/
def writeCr (n : Nat) (v : Word) (s : State) : State :=
  match n with
  | 2 => { s with srate := v }
  | 3 => { s with cfg := v &&& cfgMask }
  | 4 => { s with attnDur := v }
  | 5 => { s with msgBase := v }
  | 6 => { s with msgLen := v &&& msgLenMask }
  | 7 => { s with plen := v }
  | _ => s

/-- A host write to control register CR`n`: ignored in a run unless it is CR0 (10_state R45). -/
def hostWriteCr (n : Fin 16) (v : Word) (s : State) : State :=
  if n = 0 then writeCtrl v s else if s.st = .run then s else writeCr n.val v s

/-- A host write to header register HR`n`: its named bits and its *written* mark; ignored in a run (10_state R37, R38,
R44, R45). -/
def hostWriteHr (n : Fin 69) (v : Word) (s : State) : State :=
  if s.st = .run then s
  else { s with hr := s.hr.set n.val (v &&& hrMask n.val), hrWritten := s.hrWritten.set n.val true }

/-- A host write to address `a` of a memory of `size` elements: ignored in a run and allowed otherwise, as `ST` alone
decides (10_state R45, 60_exceptions R222). A write that is allowed at an address where the memory has no element has
nothing to write, so it changes nothing (20_memory R50; log 14, DEDUCED, unsafe). -/
def hostWriteMem (size a : Nat) (write : State → State) (s : State) : State :=
  if s.st = .run then s
  else if a < size then write s
  else s

/-- Reset (10_state R43, 70_reset_and_hazards R230). The outside world's own list of accesses is not the block's. -/
def resetBlock (s : State) : State := { State.reset with inputs := s.inputs }

/-- One access of the outside world other than `hold`, which changes nothing. -/
def hostAccess (op : HostOp) (s : State) : State :=
  match op with
  | .writeCr n v => hostWriteCr n v s
  | .writeHr n v => hostWriteHr n v s
  | .writePmem a v =>
    hostWriteMem Config.pmemWords a.toNat (fun t => { t with pmem := memWrite t.pmem a.toNat v }) s
  | .writeBmem a v =>
    hostWriteMem Config.bmemBytes a.toNat (fun t => { t with bmem := memWrite t.bmem a.toNat v }) s
  | .writeAmem a v =>
    hostWriteMem Config.amemSamples a.toNat (fun t => { t with amem := memWrite t.amem a.toNat v }) s
  | .reset => resetBlock s
  | .hold => s

/-! Loading a program of one instruction from outside (log 19). -/

/-- The state a START leaves with a plan of one descriptor in PMEM, before its FETCH. -/
def placePlan (ws : List Word) (len : Nat) (s : State) : State :=
  { openRun s with pmem := memWriteMany s.pmem 0 ws, plen := BitVec.ofNat 32 len, inputs := [] }

/-- FETCH of the placed plan, left to the step when it would raise. -/
def openPlaced (s : State) : State := if (fetch s).st = .error then s else fetch s

/-- The placed descriptor's own length. -/
def placedLen (ws : List Word) : Nat :=
  match decode ws with
  | .ok (i, _) => wordsOf i
  | .error _ => 0

/-- A plan of the descriptor whose words are `ws` (padded with zeros), fetched and about to be stepped. -/
def placeDescriptor (ws : List Word) (s : State) : State := openPlaced (placePlan ws (placedLen ws) s)

/-- A plan of one TONEBYTES of the one byte `b`, fetched and about to be stepped: its first symbol is bit 0 of `b`. A
symbol is only taken when a bit has a sample, so a rate at which it has none becomes 3125 Hz (log 19). -/
def placeSymbol (b : Byte) (s : State) : State :=
  let t := { s with
    bmem := memWrite s.bmem 0 b
    srate := if nbit s.srate.toNat = 0 then 3125 else s.srate }
  placeDescriptor (encodeWords (.tonebytes 1 0)) t

/-- An instruction given as table bits, placed where the next step runs it. -/
def placeTable (nbits w : Nat) (s : State) : State :=
  if nbits < 32 then placeSymbol (BitVec.ofNat 8 w) s else placeDescriptor (tableWords nbits w) s

end Sys2Proof.Machine
end

