-- ==== Sys2Proof/Machine/Step.lean ====
section
/-! DEFINITION. The step (44_section_sequencer R195): one access of the host, or one step of the block. -/

namespace Sys2Proof.Machine

/-- One step of the block alone (44_section_sequencer R195): in RUN, FINISH at the end of the plan, else the step of
the descriptor at `PCW`; in IDLE, DONE and ERROR nothing (60_exceptions R227, log 20). -/
def blockStep (s : State) : Host.Outcome State Fault Refusal :=
  if s.st = .run then
    if s.pcw = s.plen.toNat then .next (finish s)
    else
      match descriptorAt s s.pcw with
      | .error e => .next (raise e s)
      | .ok i => exec i s
  else .next s

/-- One step: the next access of the outside world if there is one (`hold` leaves the step to the block), else a step
of the block (log 1). -/
def step (s : State) : Host.Outcome State Fault Refusal :=
  match s.inputs with
  | [] => blockStep s
  | .hold :: rest => blockStep { s with inputs := rest }
  | op :: rest => .next (hostAccess op { s with inputs := rest })

/-- The state in which the very next step runs the instruction given as table bits (log 19). -/
def State.withFetchWord (s : State) (nbits w : Nat) : State := placeTable nbits w s

end Sys2Proof.Machine
end

