-- ==== Sys2Proof/Machine/Assembler.lean ====
section
/-! DEFINITION. The assembler over the four descriptors: a line's operands, the directives and the
pseudo-instructions with their expansions (30_encoding R86, R87). A line stands here by its parts, not by its
characters. -/

namespace Sys2Proof.Machine

/-- One line (30_encoding R86, R87). Seconds and hertz are the decimal numbers of the text. -/
inductive AsmLine where
  | silence (sec : Rat)
  | tonebytes (base len : Nat)
  | tone (sec : Rat) (hz : List Rat)
  | audio (base len : Nat)
  /-- The directive `.bytes`. -/
  | bytes (base : Nat) (bs : List Byte)
  /-- The directive `.srate`. -/
  | srate (n : Nat)
  /-- The pseudo-instruction `ATTN.S`. -/
  | attnS (sec : Rat)
  /-- The pseudo-instruction `ATTN.C`. -/
  | attnC (sec : Rat)
  /-- The pseudo-instruction `HEADER`. -/
  | header (base : Nat)
  /-- The pseudo-instruction `EOM`. -/
  | eom (base : Nat)
  /-- The pseudo-instruction `GAP`. -/
  | gap
  /-- The pseudo-instruction `WARNING`. -/
  | warning
  deriving DecidableEq, Repr

/-- What a line assembles to. -/
inductive AsmItem where
  /-- A descriptor of the plan. -/
  | descriptor (i : Instr)
  /-- Initial contents of BMEM. -/
  | initBytes (base : Nat) (bs : List Byte)
  /-- The sample rate. -/
  | setRate (n : Nat)
  deriving DecidableEq, Repr

/-- A number times `scale`, when that is a natural number below `limit`. -/
def scaled (scale limit : Nat) (q : Rat) : Option Nat :=
  if q.num * scale % q.den = 0 ∧ 0 ≤ q.num ∧ q.num * scale / q.den < limit then some (q.num * scale / q.den).toNat
  else none

/-- `<sec>` as a duration field: a multiple of 0.00001 (30_encoding R86). -/
def asmSeconds (sec : Rat) : Option (BitVec 30) :=
  (scaled Config.ticksPerSecond (2 ^ 30) sec).map (BitVec.ofNat 30)

/-- `<hz>` as a frequency field: a multiple of 0.001 (30_encoding R86). -/
def asmHertz (hz : Rat) : Option Word := (scaled Config.unitsPerHertz (2 ^ 32) hz).map (BitVec.ofNat 32)

/-- The frequency operands of a line. -/
def asmFreqs : List Rat → Option (List Word)
  | [] => some []
  | hz :: rest =>
    match asmHertz hz with
    | none => none
    | some f => (asmFreqs rest).map (f :: ·)

/-- A length and a base that fit their fields. -/
def asmBlock (make : BitVec 30 → Word → Instr) (base len : Nat) : Option Instr :=
  if len < 2 ^ 30 ∧ base < 2 ^ 32 then some (make (BitVec.ofNat 30 len) (BitVec.ofNat 32 base)) else none

/-- A TONE from its operands. -/
def asmTone (sec : Rat) (hz : List Rat) : Option Instr :=
  match asmSeconds sec, asmFreqs hz with
  | some dur, some fs => if fs.length < 16 then some (.tone dur 0 fs) else none
  | _, _ => none

/-- An attention pseudo-instruction: the assembler refuses less than 8.0 s (30_encoding R87). -/
def asmAttn (sec : Rat) (freqs : List Word) : Option Instr :=
  match asmSeconds sec with
  | some dur => if dur.toNat < Config.attnMin then none else some (.tone dur 0 freqs)
  | none => none

/-- A byte string in BMEM and the descriptor that sends it (30_encoding R87). -/
def asmString (base : Nat) (bs : List Byte) : Option (List AsmItem) :=
  (asmBlock .tonebytes base bs.length).map fun i => [.initBytes base bs, .descriptor i]

/-- One descriptor, when there is one. -/
def asmOne (i : Option Instr) : Option (List AsmItem) := i.map fun i => [.descriptor i]

/-- `HEADER`: the header string of the header in force and the descriptor that sends it (30_encoding R87). Registers that
fail HdrBuild, unwritten ones among them, hold no header (42_protocol_framer R151, R152): the assembler refuses the line,
where 30_encoding R87 is silent (log 30, DESIGN CHOICE, safe). -/
def asmHeader (base : Nat) (s : State) : Option (List AsmItem) :=
  match headerCheck s with
  | none => asmString base (fmtHeader s)
  | some _ => none

/-- `WARNING`: the descriptors of `Plan(w)` (30_encoding R87). Registers that fail HdrBuild or AttnCheck hold no warning
(43_attention_signal R161, 44_section_sequencer R190): the assembler refuses the line, as it refuses `ATTN.S` and `ATTN.C`
below 8.0 s, where 30_encoding R87 is silent (log 31, DESIGN CHOICE, safe). R87 does not say whether the expansion carries
`.bytes` for the two strings, nor where they lie: it gives the descriptors alone, with the strings at BMEM 0 and `HL` as a
WARNING START has them (44_section_sequencer R187), and no initial bytes (log 32, DESIGN CHOICE, unsafe). -/
def asmWarning (s : State) : Option (List AsmItem) :=
  match warningCheck s with
  | none => some ((planInstrs s).map .descriptor)
  | some _ => none

/-- What a line assembles to, none when the assembler refuses it; `s` holds the header in force and the registers of the
warning (30_encoding R86, R87; logs 27, 30, 31, 32). -/
def assembleLine (s : State) : AsmLine → Option (List AsmItem)
  | .silence sec => asmOne ((asmSeconds sec).map .silence)
  | .tonebytes base len => asmOne (asmBlock .tonebytes base len)
  | .tone sec hz => asmOne (asmTone sec hz)
  | .audio base len => asmOne (asmBlock .audio base len)
  | .bytes base bs => some [.initBytes base bs]
  | .srate n => if n < 2 ^ 32 then some [.setRate n] else none
  | .attnS sec => asmOne (asmAttn sec Config.fSingle)
  | .attnC sec => asmOne (asmAttn sec Config.fComb)
  | .header base => asmHeader base s
  | .eom base => asmString base fmtEom
  | .gap => some [.descriptor gapInstr]
  | .warning => asmWarning s

/-- All the lines of a text, in order. -/
def assemble (s : State) : List AsmLine → Option (List AsmItem)
  | [] => some []
  | l :: rest =>
    match assembleLine s l, assemble s rest with
    | some a, some b => some (a ++ b)
    | _, _ => none

/-- The descriptors of an assembled text, in order: the plan. -/
def asmPlan (items : List AsmItem) : List Instr :=
  items.filterMap fun
    | .descriptor i => some i
    | .initBytes _ _ => none
    | .setRate _ => none

end Sys2Proof.Machine
end

