-- ==== Sys2Proof/Machine/Render.lean ====
section
/-! DEFINITION. The functional definition of the output: what a list of sections renders to, with no machine in it
(40_tone_generator R104 to R108, 41_bit_modulator R122 to R126, 44_section_sequencer R171 to R190). Rule R202 ties it to
the step machine. -/

namespace Sys2Proof.Machine

/-! The renders. -/

/-- `Single(N, C)` (40_tone_generator R104, R105). -/
def single (n : Nat) (cycles : Rat) : List Sample :=
  if n = 0 then []
  else if n = 1 then [posZero]
  else (List.range n).map fun i : Nat => toneSample ((i : Rat) * cycles / ((n : Rat) - 1))

/-- `Multi(sr, d, fs)` for a duration of `ticks` and frequencies in hertz: the oversampled buffers of `N + 1` samples,
mixed sample by sample, the trailing sample dropped (40_tone_generator R108). -/
def multi (sr ticks : Nat) (freqs : List Rat) : List Sample :=
  let n := ncount sr ticks
  let buffers := freqs.map fun f => single (n + 1) (f * seconds ticks)
  let mixed := (List.range (n + 1)).map fun i => mix (buffers.map fun b => b.getD i posZero)
  mixed.dropLast

/-- `BitSeg(sr, b)` (41_bit_modulator R122). -/
def bitSeg (sr : Nat) (b : Bool) : List Sample := single (nbit sr) ((cyc b).toNat : Rat)

/-- `ByteSeg(sr, v)` (41_bit_modulator R125). -/
def byteSeg (sr : Nat) (v : Byte) : List Sample := (List.range 8).flatMap fun k => bitSeg sr (sym v k)

/-- `Bytes(sr, bs)` (41_bit_modulator R126). -/
def bytesRender (sr : Nat) (bs : List Byte) : List Sample := bs.flatMap (byteSeg sr)

/-- A section with its contents (00_scope R16, 44_section_sequencer R171): durations in ticks, frequencies in units. -/
inductive Section where
  /-- `Silence(d)`. -/
  | silence (ticks : Nat)
  /-- `Audio(xs)`. -/
  | audio (xs : List Sample)
  /-- `Tone(d, fs)`. -/
  | tone (ticks : Nat) (freqs : List Word)
  /-- `ToneBytes(bs)`. -/
  | toneBytes (bs : List Byte)
  deriving DecidableEq, Repr

/-- `Render(sr, s)` (44_section_sequencer R171). -/
def render (sr : Nat) : Section → List Sample
  | .silence ticks => List.replicate (ncount sr ticks) posZero
  | .audio xs => xs
  | .tone ticks freqs => multi sr ticks (freqs.map fun f => hertz f.toNat)
  | .toneBytes bs => bytesRender sr bs

/-- `RenderList(sr, ss)` (44_section_sequencer R176). -/
def renderList (sr : Nat) (ss : List Section) : List Sample := ss.flatMap (render sr)

/-! The sections a plan in memory stands for. -/

/-- The section a descriptor stands for, none when an element it has to read is unwritten. At a rate with no sample a
bit a TONEBYTES reads no byte and renders nothing whatever its bytes are (41_bit_modulator R129), so there it stands for
a section even when a byte it names is unwritten: for the empty string (log 29, DESIGN CHOICE, safe). -/
def sectionOf (i : Instr) (s : State) : Option Section :=
  match i with
  | .silence dur => some (.silence dur.toNat)
  | .tonebytes len base =>
    match memReadMany s.bmem base.toNat len.toNat with
    | some bs => some (.toneBytes bs)
    | none => if nbit s.srate.toNat = 0 then some (.toneBytes []) else none
  | .tone dur _ freqs => some (.tone dur.toNat freqs)
  | .audio len base => (memReadMany s.amem base.toNat len.toNat).map .audio
  | .mark => none
  | .space => none
  | .attnSingle => none
  | .attnCombined => none

/-- The sections a list of descriptors stands for. -/
def sectionsOf (is : List Instr) (s : State) : Option (List Section) :=
  match is with
  | [] => some []
  | i :: rest =>
    match sectionOf i s with
    | none => none
    | some x => (sectionsOf rest s).map (x :: ·)

/-- The descriptors PMEM words 0 to `PLEN` - 1 decode to (20_memory R51). -/
def planDescriptors (s : State) : Option (List Instr) :=
  match memReadMany s.pmem 0 s.plen.toNat with
  | none => none
  | some ws => decodeAll ws.length ws

/-- The section list PMEM words 0 to `PLEN` - 1 decode to (44_section_sequencer R202). -/
def planSections (s : State) : Option (List Section) :=
  match planDescriptors s with
  | none => none
  | some is => sectionsOf is s

/-! The plan of a warning as sections (44_section_sequencer R180 to R184). -/

/-- `G`. -/
def gapSection : Section := .silence Config.gap.toNat

/-- `P1`. -/
def sections1 (s : State) : List Section :=
  [.toneBytes (fmtHeader s), gapSection, .toneBytes (fmtHeader s), gapSection, .toneBytes (fmtHeader s)]

/-- `P2`. -/
def sections2 (s : State) : List Section :=
  if attended s then [gapSection, .tone s.attnDur.toNat (attnFreqs (attnk s)), gapSection] else []

/-- `P3` for the message `msg`. -/
def sections3 (s : State) (msg : List Sample) : List Section :=
  if msgp s then [.silence (if preroll s then Config.prerollLong else Config.gap).toNat, .audio msg] else []

/-- `P4`. -/
def sections4 : List Section :=
  [gapSection, .toneBytes fmtEom, gapSection, .toneBytes fmtEom, gapSection, .toneBytes fmtEom,
   .silence Config.trail.toNat]

/-- The message: the `MSG_LEN` samples of AMEM from `MSG_BASE` (44_section_sequencer R182). -/
def message (s : State) : Option (List Sample) := memReadMany s.amem s.msgBase.toNat s.msgLen.toNat

/-- `Plan(w)` for the warning the registers hold and the message `msg` (44_section_sequencer R184). -/
def warningPlan (s : State) (msg : List Sample) : List Section :=
  sections1 s ++ sections2 s ++ sections3 s msg ++ sections4

/-- `Construct(w)` (44_section_sequencer R190), none when construct fails. -/
def construct (s : State) (msg : List Sample) : Option (List Sample) :=
  match warningCheck s with
  | some _ => none
  | none => some (renderList s.srate.toNat (warningPlan s msg))

end Sys2Proof.Machine
end

