-- ==== Sys2Proof/Safety.lean ====
section
/-! DEFINITION. The terms claims use: the observation, the end of a run, what is kept, the invariant of the machine. -/

namespace Sys2Proof.Safety

open Sys2Proof.Machine

/-! Runs (00_scope R18, 44_section_sequencer R200). -/

/-- What a run is observed by (00_scope R18). -/
def observation (s : State) : List Sample × RunState × BitVec 4 := (s.out, s.st, errCodeOf s)

/-- A run has ended (44_section_sequencer R200). -/
abbrev Ended (s : State) : Prop := s.st = .done ∨ s.st = .error

/-- A run has ended successfully (44_section_sequencer R200). -/
abbrev Succeeded (s : State) : Prop := s.st = .done

/-- `k` steps of the machine. -/
abbrev runSteps (k : Nat) (s : State) : Host.Outcome State Fault Refusal := Host.Core.run Sys2Proof.core k s

/-- `k` times the meaning of one instruction, stopping at the first fault or refusal. -/
def repeatExec (i : Instr) : Nat → State → Host.Outcome State Fault Refusal
  | 0, s => .next s
  | k + 1, s =>
    match exec i s with
    | .next t => repeatExec i k t
    | .fault r => .fault r
    | .refused r => .refused r

/-- A run that has stopped in an error stopped at the descriptor at `PCW`, and `tail` is what that descriptor's section had
put into OUT: nothing when the descriptor cannot be read or fails its checks, and for an `E_UNINIT` at EMIT the samples up
to the unreadable element (60_exceptions R215). -/
def RenderedBeforeError (t : State) (tail : List Sample) : Prop :=
  (tail = [] ∧ ∃ e, errCodeOf t = errCode e ∧
    (descriptorAt t t.pcw = .error e ∨ ∃ i, descriptorAt t t.pcw = .ok i ∧ fetchCheck i t = some e)) ∨
  (errCodeOf t = errCode .uninit ∧ ∃ (len : BitVec 30) (base : Word) (bs : List Byte),
    descriptorAt t t.pcw = .ok (.tonebytes len base) ∧ bs.length < len.toNat ∧
    memReadMany t.bmem base.toNat bs.length = some bs ∧ memRead t.bmem (base.toNat + bs.length) = none ∧
    tail = bytesRender t.srate.toNat bs) ∨
  (errCodeOf t = errCode .uninit ∧ ∃ (len : BitVec 30) (base : Word) (xs : List Sample),
    descriptorAt t t.pcw = .ok (.audio len base) ∧ xs.length < len.toNat ∧
    memReadMany t.amem base.toNat xs.length = some xs ∧ memRead t.amem (base.toNat + xs.length) = none ∧ tail = xs)

/-! Frames. -/

/-- Everything the host owns reads the same in both states: control registers, header registers with their marks, every
element of the three memories, and the accesses still to come. -/
structure KeepsInputs (s t : State) : Prop where
  srate : t.srate = s.srate
  cfg : t.cfg = s.cfg
  attnDur : t.attnDur = s.attnDur
  msgBase : t.msgBase = s.msgBase
  msgLen : t.msgLen = s.msgLen
  plen : t.plen = s.plen
  hr : t.hr = s.hr
  hrWritten : t.hrWritten = s.hrWritten
  pmem : ∀ a, memRead t.pmem a = memRead s.pmem a
  bmem : ∀ a, memRead t.bmem a = memRead s.bmem a
  amem : ∀ a, memRead t.amem a = memRead s.amem a
  inputs : t.inputs = s.inputs

/-- The working registers are the same in both states. -/
structure KeepsWork (s t : State) : Prop where
  pcw : t.pcw = s.pcw
  secp : t.secp = s.secp
  bytep : t.bytep = s.bytep
  bitp : t.bitp = s.bitp
  samp : t.samp = s.samp
  ncur : t.ncur = s.ncur
  ccur : t.ccur = s.ccur
  shreg : t.shreg = s.shreg

/-! The invariant. -/

/-- The working registers are all 0. -/
structure WorkClear (s : State) : Prop where
  pcw : s.pcw = 0
  secp : s.secp = 0
  bytep : s.bytep = 0
  bitp : s.bitp = 0
  samp : s.samp = 0
  ncur : s.ncur = 0
  ccur : s.ccur = 0
  shreg : s.shreg = 0

/-- A segment of `n` samples with no bytes in it is being emitted (10_state R22: the registers of a byte are 0 outside a
TONEBYTES). -/
structure PlainSegment (n : Nat) (s : State) : Prop where
  ncur : s.ncur = n
  samp : s.samp ≤ n
  bytep : s.bytep = 0
  bitp : s.bitp = 0
  ccur : s.ccur = 0
  shreg : s.shreg = 0

/-- A string of `len` bytes from `base` is being emitted: while a byte is, `SHREG` holds it and `CCUR` the cycles of its
bit `BITP` (41_bit_modulator R129, 10_state R22). A byte after the first that is unwritten is met at its first sample,
and not loaded (log 12). -/
structure ByteSegment (len base : Nat) (s : State) : Prop where
  ncur : s.ncur = nbit s.srate.toNat
  bytep : s.bytep ≤ len
  silent : s.ncur = 0 → s.bytep = 0
  ended : s.ncur = 0 ∨ s.bytep = len → s.samp = 0 ∧ s.bitp = 0
  samp : 0 < s.ncur → s.samp < s.ncur
  byte : 0 < s.ncur → s.bytep < len →
    (memRead s.bmem (base + s.bytep) = some s.shreg ∧ s.ccur = cyc (sym s.shreg s.bitp.toNat)) ∨
    (memRead s.bmem (base + s.bytep) = none ∧ 0 < s.bytep ∧ s.bitp = 0 ∧ s.samp = 0)

/-- Only the position of the descriptor is left: the other six working registers are 0 (44_section_sequencer R199). -/
structure BetweenDescriptors (s : State) : Prop where
  bytep : s.bytep = 0
  bitp : s.bitp = 0
  samp : s.samp = 0
  ncur : s.ncur = 0
  ccur : s.ccur = 0
  shreg : s.shreg = 0

/-- The descriptor has been fetched: it passed its checks and the working registers hold a place in it
(44_section_sequencer R195, R197). -/
def Loaded (i : Instr) (s : State) : Prop :=
  match i with
  | .silence dur => PlainSegment (ncount s.srate.toNat dur.toNat) s
  | .tonebytes len base => ByteSegment len.toNat base.toNat s
  | .tone dur _ _ => PlainSegment (ncount s.srate.toNat dur.toNat) s
  | .audio len _ => PlainSegment len.toNat s
  | .mark => False
  | .space => False
  | .attnSingle => False
  | .attnCombined => False

/-- While `ST` = RUN, either the plan is at its end or the descriptor at `PCW` has been fetched (44_section_sequencer
R195), and the position is inside the plan (10_state R23, R24). -/
structure Running (s : State) : Prop where
  fits : s.plen.toNat ≤ Config.pmemWords
  inside : s.pcw ≤ s.plen.toNat
  ordinal : s.secp ≤ s.pcw
  fetched : (s.pcw = s.plen.toNat ∧ BetweenDescriptors s) ∨
    ∃ i, descriptorAt s s.pcw = .ok i ∧ fetchCheck i s = none ∧ Loaded i s

/-- The canonical form of the three memories, and no element at or beyond a size (20_memory R50, R60). -/
structure MemoryOk (s : State) : Prop where
  pmem : memWf s.pmem
  bmem : memWf s.bmem
  amem : memWf s.amem
  pmemBelow : memBelow s.pmem Config.pmemWords
  bmemBelow : memBelow s.bmem Config.bmemBytes
  amemBelow : memBelow s.amem Config.amemSamples

/-- The reserved bits of the registers are zero (10_state R26, R37, R38). -/
structure ReservedClear (s : State) : Prop where
  cfg : s.cfg &&& ~~~cfgMask = 0
  msgLen : s.msgLen &&& ~~~msgLenMask = 0
  hr : ∀ n : Fin 69, s.hr[n] &&& ~~~hrMask n.val = 0

/-- The invariant of the machine. -/
structure MachineInv (s : State) : Prop where
  /-- The memories keep their form. -/
  memory : MemoryOk s
  /-- Reserved bits read zero. -/
  reserved : ReservedClear s
  /-- `OUTCNT = len(OUT)`, below 2^64 (10_state R34, R40). -/
  counted : s.outcnt = s.out.length
  /-- See `counted`. -/
  bounded : s.outcnt < 2 ^ 64
  /-- In IDLE nothing is left of a run (10_state R43, 60_exceptions R219). -/
  idle : s.st = .idle → WorkClear s ∧ s.out = [] ∧ s.errinfo = 0
  /-- In RUN the position is that of a fetched descriptor and no error is recorded. -/
  run : s.st = .run → Running s ∧ s.errinfo = 0
  /-- In DONE only the position is left, and no error is recorded (10_state R35). -/
  done : s.st = .done → BetweenDescriptors s ∧ s.errinfo = 0
  /-- In ERROR one of the nine causes is (60_exceptions R211). -/
  error : s.st = .error → ∃ e, errCodeOf s = errCode e

end Sys2Proof.Safety
end

