-- ==== Sys2Proof/Certificates/Slice0/Obligations.lean ====
section
/-! DEFINITION. The statements for the provers. Each says what a rule of spec/ says the block does; a clause that rests
on a choice of the model names its log entry. -/

open Sys2Proof Sys2Proof.Machine Sys2Proof.Safety

/-! ## Encoding -/

/-- Decoding what the encoder writes gives the instruction back, with every operand at every value its field admits
(30_encoding R70 to R76, R80, R82); for a descriptor also when other words follow it. -/
def Obligations.DecodeOfEncodeIsTheInstruction : Prop :=
  ∀ i : Instr, encodable i = true →
    decodeCode (encode i) = .ok (i, []) ∧
    (wordsOf i ≠ 0 → ∀ rest : List Word, decode (encodeWords i ++ rest) = .ok (i, rest))

/-- Whatever the decoder reads, the encoder writes back: a list of words has one meaning, and no bit of it is dropped
(30_encoding R71 to R76). -/
def Obligations.EncodeOfDecodeIsTheWords : Prop :=
  ∀ (ws : List Word) (i : Instr) (rest : List Word), decode ws = .ok (i, rest) →
    encodable i = true ∧ wordsOf i ≠ 0 ∧ ws = encodeWords i ++ rest

/-- No tag is illegal: any 17 words or more begin with a descriptor, and the two top bits of word 0 say which
(30_encoding R70, R89). -/
def Obligations.EveryWordBeginsADescriptor : Prop :=
  ∀ (w0 : Word) (ws : List Word), 16 ≤ ws.length → ∃ i rest, decode (w0 :: ws) = .ok (i, rest) ∧
    (w0.extractLsb' 30 2 = 0#2 → ∃ dur, i = .silence dur ∧ dur = w0.extractLsb' 0 30) ∧
    (w0.extractLsb' 30 2 = 1#2 → ∃ len base, i = .tonebytes len base ∧ len = w0.extractLsb' 0 30) ∧
    (w0.extractLsb' 30 2 = 2#2 → ∃ dur rsvd fs, i = .tone dur rsvd fs ∧ dur = w0.extractLsb' 0 30) ∧
    (w0.extractLsb' 30 2 = 3#2 → ∃ len base, i = .audio len base ∧ len = w0.extractLsb' 0 30)

/-- Descriptors packed without gaps decode, one after the other, to themselves (20_memory R51, 30_encoding R76). -/
def Obligations.PackedPlanDecodesToItsDescriptors : Prop :=
  ∀ is : List Instr, (∀ i ∈ is, encodable i = true ∧ wordsOf i ≠ 0) →
    decodeAll (packInstrs is).length (packInstrs is) = some is

/-- The worked encodings of 30_encoding R90, word for word. -/
def Obligations.WorkedEncodingsDecode : Prop :=
  decode [0x000186A0] = .ok (.silence 100000, []) ∧
  decode [0x00061A80] = .ok (.silence 400000, []) ∧
  decode [0x00000000] = .ok (.silence 0, []) ∧
  decode [0x4000003A, 0x00000000] = .ok (.tonebytes 58 0, []) ∧
  decode [0x40000014, 0x0000003A] = .ok (.tonebytes 20 58, []) ∧
  decode [0x800C3500, 0x00000001, 0x00100590] = .ok (.tone 800000 0 [1050000], []) ∧
  decode [0x800C3500, 0x00000002, 0x000D0408, 0x000EA600] = .ok (.tone 800000 0 [853000, 960000], []) ∧
  decode [0xC0035D54, 0x00000000] = .ok (.audio 220500 0, [])

/-! ## The step -/

/-- When the plan's words at `PCW` decode to a descriptor and the host makes no access, the step is the meaning of that
descriptor; after a `hold` of the host it is that meaning with the `hold` consumed (44_section_sequencer R195; the list
of accesses is log 1). -/
def Obligations.StepRunsTheDecodedDescriptor : Prop :=
  ∀ (s : State) (ws : List Word) (i : Instr) (rest : List HostOp),
    s.st = .run → s.plen.toNat ≤ Config.pmemWords → s.pcw + ws.length ≤ s.plen.toNat →
    memReadMany s.pmem s.pcw ws.length = some ws → decode ws = .ok (i, []) →
    (s.inputs = [] → step s = exec i s) ∧
    (s.inputs = .hold :: rest → step s = exec i { s with inputs := rest })

/-- FINISH changes `ST` alone (44_section_sequencer R200), and outside RUN no step of the block is enabled: in DONE by R200,
in ERROR by 60_exceptions R220, in IDLE, DONE and ERROR by R227 and 10_state R45. That the model's step then answers the
same state is log 20 (DEDUCED). -/
def Obligations.FinishEndsTheRunAndNothingFollows : Prop :=
  ∀ s : State, s.inputs = [] →
    (s.st = .run → s.pcw = s.plen.toNat → step s = .next { s with st := .done }) ∧
    (s.st ≠ .run → step s = .next s)

/-- `Exhausted()` as the rule has it, and RETIRE of an exhausted descriptor that passed its checks: the position moves
by the descriptor's words, the six other working registers become 0, and FETCH follows (44_section_sequencer R195,
R199). -/
def Obligations.ExhaustedDescriptorRetires : Prop :=
  ∀ (i : Instr) (s : State), wordsOf i ≠ 0 →
    ((∀ len base, i = .tonebytes len base → (exhausted i s = true ↔ s.ncur = 0 ∨ s.bytep = len.toNat)) ∧
     ((∀ len base, i ≠ .tonebytes len base) → (exhausted i s = true ↔ s.samp = s.ncur))) ∧
    (fetchCheck i s = none → exhausted i s = true →
      exec i s = .next (fetch { s with
        pcw := s.pcw + wordsOf i, secp := s.secp + 1,
        bytep := 0, bitp := 0, samp := 0, ncur := 0, ccur := 0, shreg := 0 }))

/-- What FETCH loads once the descriptor at `PCW` is read and passes its checks (44_section_sequencer R172, R173, R197,
40_tone_generator R115, 41_bit_modulator R129). -/
def Obligations.FetchLoadsTheSegment : Prop :=
  ∀ s : State, s.pcw ≠ s.plen.toNat →
    (∀ dur, descriptorAt s s.pcw = .ok (.silence dur) →
      fetch s = { s with ncur := s.srate.toNat * dur.toNat / 100000, bytep := 0, bitp := 0, samp := 0 }) ∧
    (∀ dur freqs, descriptorAt s s.pcw = .ok (.tone dur 0 freqs) → freqs ≠ [] → freqs.length ≤ Config.nfreqMax →
      fetch s = { s with ncur := s.srate.toNat * dur.toNat / 100000, bytep := 0, bitp := 0, samp := 0 }) ∧
    (∀ len base, descriptorAt s s.pcw = .ok (.audio len base) → base.toNat + len.toNat ≤ Config.amemSamples →
      fetch s = { s with ncur := len.toNat, bytep := 0, bitp := 0, samp := 0 }) ∧
    (∀ len base, descriptorAt s s.pcw = .ok (.tonebytes len base) → base.toNat + len.toNat ≤ Config.bmemBytes →
      (len = 0 ∨ s.srate.toNat * 192 / 100000 = 0 →
        fetch s = { s with ncur := s.srate.toNat * 192 / 100000, bytep := 0, bitp := 0, samp := 0 }) ∧
      (∀ v, len ≠ 0 → s.srate.toNat * 192 / 100000 ≠ 0 → memRead s.bmem base.toNat = some v →
        fetch s = { s with
          ncur := s.srate.toNat * 192 / 100000, bytep := 0, bitp := 0, samp := 0,
          shreg := v, ccur := if v.getLsbD 0 then 4 else 3 }))

/-- The order of the checks in a FETCH: the words in address order, bounds before unwritten for each, then the reserved
bits, no frequency, too many frequencies, `BASE + LEN`, and the first byte of a TONEBYTES (60_exceptions R217 "in a
FETCH", 30_encoding R84). That a FETCH that raises loads nothing, `NCUR`, `BYTEP`, `BITP` and `SAMP` for an unwritten first
byte among it, is read from R214 (log 13, DEDUCED). -/
def Obligations.FetchReportsTheFirstError : Prop :=
  ∀ s : State, s.pcw ≠ s.plen.toNat → s.plen.toNat ≤ Config.pmemWords →
    (∀ (i : Instr) (j : Nat), encodable i = true → j < wordsOf i →
      (∀ k, k < j → s.pcw + k < s.plen.toNat ∧ memRead s.pmem (s.pcw + k) = (encodeWords i)[k]?) →
      (s.plen.toNat ≤ s.pcw + j → fetch s = raise .bounds s) ∧
      (s.pcw + j < s.plen.toNat → memRead s.pmem (s.pcw + j) = none → fetch s = raise .uninit s)) ∧
    (∀ dur rsvd freqs, descriptorAt s s.pcw = .ok (.tone dur rsvd freqs) →
      (rsvd ≠ 0 → fetch s = raise .rsvd s) ∧
      (rsvd = 0 → freqs = [] → fetch s = raise .noFreq s) ∧
      (rsvd = 0 → Config.nfreqMax < freqs.length → fetch s = raise .nFreq s)) ∧
    (∀ len base, descriptorAt s s.pcw = .ok (.tonebytes len base) →
      (Config.bmemBytes < base.toNat + len.toNat → fetch s = raise .bounds s) ∧
      (base.toNat + len.toNat ≤ Config.bmemBytes → len ≠ 0 → nbit s.srate.toNat ≠ 0 → memRead s.bmem base.toNat = none →
        fetch s = raise .uninit s)) ∧
    (∀ len base, descriptorAt s s.pcw = .ok (.audio len base) → Config.amemSamples < base.toNat + len.toNat →
      fetch s = raise .bounds s)

/-! ## The descriptors and the symbols -/

/-- EMIT of a SILENCE appends one `+0.0`, bit pattern 0, and advances `SAMP`; nothing else changes
(44_section_sequencer R172, R198). -/
def Obligations.SilenceEmitsPositiveZero : Prop :=
  ∀ (dur : BitVec 30) (s : State), s.samp ≠ s.ncur → s.outcnt + 1 < 2 ^ 64 →
    exec (.silence dur) s =
      .next { s with out := s.out ++ [0x00000000#32], outcnt := s.outcnt + 1, samp := s.samp + 1 }

/-- A SILENCE that FETCH has loaded emits `floor(SRATE * DUR / 100000)` samples `+0.0`, one a step, and is then
exhausted (44_section_sequencer R172). -/
def Obligations.SilenceRendersItsDuration : Prop :=
  ∀ (dur : BitVec 30) (s : State),
    let n := s.srate.toNat * dur.toNat / 100000
    s.samp = 0 → s.ncur = n → s.outcnt + n < 2 ^ 64 →
    repeatExec (.silence dur) n s =
      .next { s with out := s.out ++ List.replicate n 0x00000000#32, outcnt := s.outcnt + n, samp := n }

/-- EMIT of an AUDIO copies sample `SAMP` of its run bit for bit and advances `SAMP` (44_section_sequencer R173). -/
def Obligations.AudioCopiesTheSample : Prop :=
  ∀ (len : BitVec 30) (base : Word) (s : State) (v : Sample),
    base.toNat + len.toNat ≤ Config.amemSamples → s.samp ≠ s.ncur → s.outcnt + 1 < 2 ^ 64 →
    memRead s.amem (base.toNat + s.samp) = some v →
    exec (.audio len base) s =
      .next { s with out := s.out ++ [v], outcnt := s.outcnt + 1, samp := s.samp + 1 }

/-- EMIT of a TONE appends the mix of its carriers, carrier `k` at phase `SAMP * f_k * d / NCUR` exactly in the
rationals, and advances `SAMP` (40_tone_generator R115). -/
def Obligations.ToneEmitsTheMixedCarriers : Prop :=
  ∀ (dur : BitVec 30) (freqs : List Word) (s : State),
    freqs ≠ [] → freqs.length ≤ Config.nfreqMax → s.samp ≠ s.ncur → s.outcnt + 1 < 2 ^ 64 →
    exec (.tone dur 0 freqs) s = .next { s with
      out := s.out ++ [mix (freqs.map fun f =>
        toneSample ((s.samp : Rat) * ((f.toNat : Rat) / 1000) * ((dur.toNat : Rat) / 100000) / (s.ncur : Rat)))]
      outcnt := s.outcnt + 1
      samp := s.samp + 1 }

/-- The errors of the descriptors that the meanings report themselves, in the order of the rules: a TONE for its reserved
bits, no frequency, too many; a TONEBYTES or an AUDIO for `BASE + LEN`; a TONEBYTES for its first byte; an AUDIO for the
sample it has to copy, with nothing emitted (40_tone_generator R115, 41_bit_modulator R129, 44_section_sequencer R173,
R198, 30_encoding R84). That a meaning repeats the checks FETCH makes is log 2. -/
def Obligations.DescriptorErrorsInOrder : Prop :=
  ∀ s : State,
    (∀ (dur : BitVec 30) (rsvd : BitVec 28) (freqs : List Word),
      (rsvd ≠ 0 → exec (.tone dur rsvd freqs) s = .next (raise .rsvd s)) ∧
      (rsvd = 0 → freqs = [] → exec (.tone dur rsvd freqs) s = .next (raise .noFreq s)) ∧
      (rsvd = 0 → Config.nfreqMax < freqs.length → exec (.tone dur rsvd freqs) s = .next (raise .nFreq s))) ∧
    (∀ (len : BitVec 30) (base : Word),
      (Config.bmemBytes < base.toNat + len.toNat → exec (.tonebytes len base) s = .next (raise .bounds s)) ∧
      (base.toNat + len.toNat ≤ Config.bmemBytes → len ≠ 0 → nbit s.srate.toNat ≠ 0 →
        memRead s.bmem base.toNat = none → exec (.tonebytes len base) s = .next (raise .uninit s)) ∧
      (Config.amemSamples < base.toNat + len.toNat → exec (.audio len base) s = .next (raise .bounds s)) ∧
      (base.toNat + len.toNat ≤ Config.amemSamples → s.samp ≠ s.ncur → memRead s.amem (base.toNat + s.samp) = none →
        exec (.audio len base) s = .next (raise .uninit s)))

/-- EMIT of a TONEBYTES, all of its cases: `E_UNINIT` with nothing emitted at the first sample of a byte that is unwritten;
otherwise the sample of the current bit with divisor `NCUR - 1` (`+0.0` when the bit has one sample), then the next
sample, the next bit, the next byte or the end of the string (41_bit_modulator R129, 44_section_sequencer R198, 20_memory
R58, 60_exceptions R215). That an unwritten byte is reported by the EMIT that starts it, and not by the one before, which
leaves `SHREG` and `CCUR` as they are, is log 12 (DEDUCED). -/
def Obligations.TonebytesEmitsTheBitSampleAndGates : Prop :=
  ∀ (len : BitVec 30) (base : Word) (s : State),
    base.toNat + len.toNat ≤ Config.bmemBytes → memRead s.bmem base.toNat ≠ none →
    s.ncur ≠ 0 → s.bytep < len.toNat → s.outcnt + 1 < 2 ^ 64 →
    let v : Sample := if s.ncur = 1 then 0 else
      toneSample ((s.samp : Rat) * (s.ccur.toNat : Rat) / ((s.ncur : Rat) - 1))
    let out := s.out ++ [v]
    let cnt := s.outcnt + 1
    let unreadable := s.samp = 0 ∧ s.bitp = 0 ∧ memRead s.bmem (base.toNat + s.bytep) = none
    (unreadable → exec (.tonebytes len base) s = .next (raise .uninit s)) ∧
    (¬ unreadable → s.samp + 1 ≠ s.ncur →
      exec (.tonebytes len base) s = .next { s with out := out, outcnt := cnt, samp := s.samp + 1 }) ∧
    (¬ unreadable → s.samp + 1 = s.ncur → s.bitp ≠ 7 →
      exec (.tonebytes len base) s = .next { s with
        out := out, outcnt := cnt, samp := 0, bitp := s.bitp + 1,
        ccur := if s.shreg.getLsbD (s.bitp.toNat + 1) then 4 else 3 }) ∧
    (s.samp + 1 = s.ncur → s.bitp = 7 → s.bytep + 1 = len.toNat →
      exec (.tonebytes len base) s = .next { s with
        out := out, outcnt := cnt, samp := 0, bitp := 0, bytep := s.bytep + 1 }) ∧
    (∀ b, s.samp + 1 = s.ncur → s.bitp = 7 → s.bytep + 1 < len.toNat →
      memRead s.bmem (base.toNat + (s.bytep + 1)) = some b →
      exec (.tonebytes len base) s = .next { s with
        out := out, outcnt := cnt, samp := 0, bitp := 0, bytep := s.bytep + 1,
        shreg := b, ccur := if b.getLsbD 0 then 4 else 3 }) ∧
    (s.samp + 1 = s.ncur → s.bitp = 7 → s.bytep + 1 < len.toNat →
      memRead s.bmem (base.toNat + (s.bytep + 1)) = none →
      exec (.tonebytes len base) s = .next { s with
        out := out, outcnt := cnt, samp := 0, bitp := 0, bytep := s.bytep + 1 })

/-- MARK and SPACE, sample by sample: sample `SAMP` of a bit of 4 or 3 cycles with divisor `NBIT - 1`, `+0.0` alone for
a bit of one sample, and nothing once the bit is over, so nothing at `NBIT` = 0 (41_bit_modulator R123, R124; one
sample a step is log 16). -/
def Obligations.MarkAndSpaceEmitTheBitSample : Prop :=
  ∀ s : State,
    let n := s.srate.toNat * 192 / 100000
    (s.samp < n → s.outcnt + 1 < 2 ^ 64 →
      exec .mark s = .next { s with
        out := s.out ++ [if n = 1 then 0 else toneSample ((s.samp : Rat) * 4 / ((n : Rat) - 1))]
        outcnt := s.outcnt + 1, samp := s.samp + 1 } ∧
      exec .space s = .next { s with
        out := s.out ++ [if n = 1 then 0 else toneSample ((s.samp : Rat) * 3 / ((n : Rat) - 1))]
        outcnt := s.outcnt + 1, samp := s.samp + 1 }) ∧
    (n ≤ s.samp → exec .mark s = .next s ∧ exec .space s = .next s)

/-- From the first sample of a bit, `NBIT(SRATE)` steps of MARK emit `BitSeg(SRATE, 1) = Single(NBIT, 4)`, and of SPACE
`BitSeg(SRATE, 0) = Single(NBIT, 3)` (41_bit_modulator R122, R123, R124; one sample a step is log 16). -/
def Obligations.MarkAndSpaceRenderBitSegments : Prop :=
  ∀ s : State,
    let n := nbit s.srate.toNat
    s.samp = 0 → s.outcnt + n < 2 ^ 64 →
    repeatExec .mark n s = .next { s with
      out := s.out ++ single n 4, outcnt := s.outcnt + n, samp := n } ∧
    repeatExec .space n s = .next { s with
      out := s.out ++ single n 3, outcnt := s.outcnt + n, samp := n }

/-- A TONEBYTES in the middle of a string emits what the symbol in bit `BITP` of `SHREG` emits: MARK for a set bit,
SPACE for a clear one, bits least significant first (20_memory R55, 30_encoding R80, R81, 41_bit_modulator R120; one
sample of a symbol a step is log 16). -/
def Obligations.TonebytesEmitsItsSymbol : Prop :=
  ∀ (len : BitVec 30) (base : Word) (s t : State),
    ByteSegment len.toNat base.toNat s → s.ncur ≠ 0 → s.bytep < len.toNat →
    exec (.tonebytes len base) s = .next t → t.st = s.st → s.st ≠ .error →
    ∃ u, exec (decodeSymbol (s.shreg.getLsbD s.bitp.toNat)) s = .next u ∧ t.out = u.out ∧ t.outcnt = u.outcnt

/-! ## The attention kinds -/

/-- A valid attention duration: the kind's descriptor is written at the end of the plan, `TONE ATTN_DUR, 1050` or
`TONE ATTN_DUR, 853, 960`, and `PLEN` moves past it; every other word of PMEM reads as before and nothing else changes
(43_attention_signal R162, R163; that the meaning writes at `PLEN` is log 17). -/
def Obligations.AttentionKindExtendsThePlan : Prop :=
  ∀ s : State, 800000 ≤ s.attnDur.toNat → s.attnDur.toNat < 2 ^ 30 →
    (s.plen.toNat + 3 ≤ Config.pmemWords → s.plen.toNat + 3 < 2 ^ 32 →
      ∃ m, exec .attnSingle s = .next { s with pmem := m, plen := s.plen + 3 } ∧
        memRead m s.plen.toNat = some (0x80000000#32 ||| s.attnDur) ∧
        memRead m (s.plen.toNat + 1) = some 0x00000001#32 ∧
        memRead m (s.plen.toNat + 2) = some 0x00100590#32 ∧
        ∀ a, a < s.plen.toNat ∨ s.plen.toNat + 3 ≤ a → memRead m a = memRead s.pmem a) ∧
    (s.plen.toNat + 4 ≤ Config.pmemWords → s.plen.toNat + 4 < 2 ^ 32 →
      ∃ m, exec .attnCombined s = .next { s with pmem := m, plen := s.plen + 4 } ∧
        memRead m s.plen.toNat = some (0x80000000#32 ||| s.attnDur) ∧
        memRead m (s.plen.toNat + 1) = some 0x00000002#32 ∧
        memRead m (s.plen.toNat + 2) = some 0x000D0408#32 ∧
        memRead m (s.plen.toNat + 3) = some 0x000EA600#32 ∧
        ∀ a, a < s.plen.toNat ∨ s.plen.toNat + 4 ≤ a → memRead m a = memRead s.pmem a)

/-- The duration check of both kinds: below 8.0 s `E_ATTNDUR`, never raised to it; at 2^30 ticks and above `E_RSVD`
(43_attention_signal R161). R161 has a WARNING START make the check; that a kind run on its own makes it, in any state and
with the `SECP` it finds, is log 17 (DESIGN CHOICE). -/
def Obligations.AttentionKindsRefuseBadDurations : Prop :=
  ∀ s : State,
    (s.attnDur.toNat < 800000 →
      exec .attnSingle s = .next (raise .attnDur s) ∧ exec .attnCombined s = .next (raise .attnDur s)) ∧
    (2 ^ 30 ≤ s.attnDur.toNat →
      exec .attnSingle s = .next (raise .rsvd s) ∧ exec .attnCombined s = .next (raise .rsvd s))

/-! ## Frames -/

/-- A descriptor's step and a symbol's leave everything the host owns as it was, every element of every memory among it,
and OUT grows by at most one sample at its end (10_state R40, R41, 44_section_sequencer R198, R199). For MARK and SPACE,
whose rules emit the whole interval, at most one sample a step is log 16 (DESIGN CHOICE). -/
def Obligations.SoundingInstructionsFrame : Prop :=
  ∀ (i : Instr) (s t : State), i ≠ .attnSingle → i ≠ .attnCombined → exec i s = .next t →
    KeepsInputs s t ∧
    (t.out = s.out ∧ t.outcnt = s.outcnt ∨ ∃ v, t.out = s.out ++ [v] ∧ t.outcnt = s.outcnt + 1) ∧
    (t.st = s.st ∧ t.errinfo = s.errinfo ∨ t.st = .error)

/-- An EMIT changes OUT, `OUTCNT` and `SAMP`, and in a TONEBYTES the place in the string; the descriptor, its segment's
length, the run state and the error stay (44_section_sequencer R198, which speaks of descriptors; that a step of MARK or
SPACE is such an EMIT of one sample is log 16, DESIGN CHOICE). -/
def Obligations.EmitFrame : Prop :=
  ∀ (i : Instr) (s t : State) (v : Sample), i ≠ .attnSingle → i ≠ .attnCombined →
    exec i s = .next t → t.out = s.out ++ [v] →
    t.pcw = s.pcw ∧ t.secp = s.secp ∧ t.ncur = s.ncur ∧ t.st = s.st ∧ t.errinfo = s.errinfo ∧
    ((∀ len base, i ≠ .tonebytes len base) →
      t = { s with out := s.out ++ [v], outcnt := s.outcnt + 1, samp := s.samp + 1 })

/-- An attention kind changes PMEM inside the words of its descriptor, counted from `PLEN`, and `PLEN`; or it records an
error. Nothing else changes (43_attention_signal R162, R163, log 17). -/
def Obligations.AttentionFrame : Prop :=
  ∀ (combined : Bool) (s t : State), exec (decodeAttn combined) s = .next t →
    (∃ e, t = raise e s) ∨
    (t = { s with pmem := t.pmem, plen := t.plen } ∧
      ∀ a, a < s.plen.toNat ∨ s.plen.toNat + (if combined then 4 else 3) ≤ a → memRead t.pmem a = memRead s.pmem a)

/-- The position never moves backward: a step goes to a later descriptor, or stays in the descriptor and goes to a later
byte, bit or sample, or stays (10_state R25). -/
def Obligations.PositionOnlyMovesForward : Prop :=
  ∀ (i : Instr) (s t : State), wordsOf i ≠ 0 → exec i s = .next t →
    (s.pcw < t.pcw ∧ t.secp = s.secp + 1) ∨
    (t.pcw = s.pcw ∧ t.secp = s.secp ∧
      (s.bytep < t.bytep ∨ t.bytep = s.bytep ∧
        (s.bitp.toNat < t.bitp.toNat ∨ t.bitp = s.bitp ∧ s.samp ≤ t.samp)))

/-! ## Errors, START, CLEAR, reset and the host -/

/-- `raise` records the code of the cause and `SECP` saturated at 2^28 - 1, sets `ST` to ERROR, and changes nothing else;
the codes are those of the table (60_exceptions R211, R214, 10_state R35). -/
def Obligations.RaiseRecordsCauseAndSection : Prop :=
  (∀ (e : ErrCause) (s : State),
    raise e s = { s with st := .error, errinfo := (raise e s).errinfo } ∧
    errCodeOf (raise e s) = errCode e ∧
    (errSecOf (raise e s)).toNat = min s.secp (2 ^ 28 - 1)) ∧
  errCode .locCount = 1 ∧ errCode .attnDur = 2 ∧ errCode .noFreq = 3 ∧ errCode .nFreq = 4 ∧ errCode .rsvd = 5 ∧
  errCode .org = 6 ∧ errCode .time = 7 ∧ errCode .bounds = 8 ∧ errCode .uninit = 9

/-- A write to `CTRL`: CLEAR from DONE or ERROR clears the run and keeps everything else; START from IDLE starts; both
bits at once is CLEAR alone; reading gives 0 (10_state R27, 60_exceptions R219). That bits 31:2 of any value are ignored,
that both bits in IDLE start nothing, and that a write of neither changes nothing, is log 15 (DEDUCED). -/
def Obligations.CtrlWritesStartAndClear : Prop :=
  ∀ (v : Word) (s : State),
    hostReadCr 0 s = 0 ∧
    (v.getLsbD 1 = true → s.st = .done ∨ s.st = .error →
      hostWriteCr 0 v s = { s with
        st := .idle, errinfo := 0, outcnt := 0, out := [],
        pcw := 0, secp := 0, bytep := 0, bitp := 0, samp := 0, ncur := 0, ccur := 0, shreg := 0 }) ∧
    (v.getLsbD 1 = true → s.st = .idle ∨ s.st = .run → hostWriteCr 0 v s = s) ∧
    (v.getLsbD 1 = false → v.getLsbD 0 = true → s.st = .idle → hostWriteCr 0 v s = start s) ∧
    (v.getLsbD 1 = false → v.getLsbD 0 = true → s.st ≠ .idle → hostWriteCr 0 v s = s) ∧
    (v.getLsbD 1 = false → v.getLsbD 0 = false → hostWriteCr 0 v s = s)

/-- START in DIRECT mode: the run is opened, a plan longer than PMEM is `E_BOUNDS`, and otherwise descriptor 0 is
fetched (44_section_sequencer R196). -/
def Obligations.DirectStartFetchesThePlan : Prop :=
  ∀ s : State, modeDirect s = true →
    let t := { s with
      out := [], outcnt := 0, errinfo := 0, st := .run,
      pcw := 0, secp := 0, bytep := 0, bitp := 0, samp := 0, ncur := 0, ccur := 0, shreg := 0 }
    (Config.pmemWords < s.plen.toNat → start s = raise .bounds t) ∧
    (s.plen.toNat ≤ Config.pmemWords → start s = fetch t)

/-- The checks of a WARNING START and their order (60_exceptions R217 "at a WARNING START" (1) to (7),
42_protocol_framer R151, 43_attention_signal R161; that R217's order is followed is log 11). -/
def Obligations.WarningStartChecksInOrder : Prop :=
  ∀ s : State, modeDirect s = false →
    let t := openRun s
    let fixed := ∀ n, n < 7 → hrMark s n = true
    let locs := ∀ k, k < nlocOf s → hrMark s (7 + 2 * k) = true ∧ hrMark s (8 + 2 * k) = true
    let timeOk := 1 ≤ doyOf s ∧ doyOf s ≤ 366 ∧ hourOf s ≤ 23 ∧ minOf s ≤ 59
    (¬ fixed → start s = raise .uninit t) ∧
    (fixed → 31 < nlocOf s → start s = raise .locCount t) ∧
    (fixed → nlocOf s ≤ 31 → ¬ locs → start s = raise .uninit t) ∧
    (fixed → nlocOf s ≤ 31 → locs → 4 < orgOf s → start s = raise .org t) ∧
    (fixed → nlocOf s ≤ 31 → locs → orgOf s ≤ 4 → ¬ timeOk → start s = raise .time t) ∧
    (fixed → nlocOf s ≤ 31 → locs → orgOf s ≤ 4 → timeOk → s.attnDur.toNat < 800000 → start s = raise .attnDur t) ∧
    (fixed → nlocOf s ≤ 31 → locs → orgOf s ≤ 4 → timeOk → 2 ^ 30 ≤ s.attnDur.toNat → start s = raise .rsvd t)

/-- What OUT holds after an error (60_exceptions R215). After a START that raises it is empty; a WARNING START that fails a
check leaves every memory and `PLEN` as they were besides (42_protocol_framer R152, 44_section_sequencer R196). After an
error in the middle of a run it is the render of the sections before the one at `PCW`, `SECP` of them, followed by what
that section had emitted: nothing for an error of its FETCH, and for an `E_UNINIT` at EMIT the samples up to the unreadable
element, none of them missing (that the last sample before an unreadable byte is among them is log 12, DEDUCED; the
section a TONEBYTES at a rate without samples stands for is log 29). -/
def Obligations.OutputAfterAnErrorIsTheRenderSoFar : Prop :=
  (∀ s : State, (start s).st = .error → (start s).out = [] ∧ (start s).outcnt = 0) ∧
  (∀ (s : State) (e : ErrCause), modeDirect s = false → warningCheck s = some e →
    (start s).st = .error ∧ errCodeOf (start s) = errCode e ∧ errSecOf (start s) = 0 ∧
    (start s).out = [] ∧ (start s).outcnt = 0 ∧ KeepsInputs s (start s)) ∧
  ∀ (s t : State) (k : Nat), s.inputs = [] → s.st = .idle → (start s).st = .run →
    runSteps k (start s) = .next t → t.st = .error →
    ∃ ws is ss tail, memReadMany t.pmem 0 t.pcw = some ws ∧ decodeAll ws.length ws = some is ∧ is.length = t.secp ∧
      sectionsOf is t = some ss ∧ t.out = renderList t.srate.toNat ss ++ tail ∧ RenderedBeforeError t tail

/-- A WARNING START that passes writes the header and the end-of-message marker to BMEM from byte 0, the plan to PMEM
from word 0 and its length to `PLEN`, and leaves every other element of BMEM and PMEM, all of AMEM and every other
register of the host as they were (42_protocol_framer R153, 44_section_sequencer R187, 10_state R41). -/
def Obligations.WarningStartStoresStringsAndPlan : Prop :=
  ∀ s : State, modeDirect s = false → warningCheck s = none → s.msgLen.toNat < 2 ^ 30 →
    let hl := 51 + 7 * nlocOf s
    let h : List Word := [0x40000000#32 ||| BitVec.ofNat 32 hl, 0x00000000#32]
    let g : List Word := [0x000186A0#32]
    let a : List Word :=
      if attnk s then [0x80000000#32 ||| s.attnDur, 0x00000002#32, 0x000D0408#32, 0x000EA600#32]
      else [0x80000000#32 ||| s.attnDur, 0x00000001#32, 0x00100590#32]
    let e : List Word := [0x40000014#32, BitVec.ofNat 32 hl]
    let att : List Word := if apol s || (crit s && msgp s) then g ++ a ++ g else []
    let msg : List Word :=
      if msgp s then [if preroll s then 0x00061A80#32 else 0x000186A0#32, 0xC0000000#32 ||| s.msgLen, s.msgBase] else []
    let plan := h ++ g ++ h ++ g ++ h ++ att ++ msg ++ g ++ e ++ g ++ e ++ g ++ e ++ [0x000186A0#32]
    let strings := fmtHeader s ++ fmtEom
    (start s).st = .run ∧ (start s).plen.toNat = plan.length ∧ 18 ≤ plan.length ∧ plan.length ≤ 27 ∧
    strings.length = hl + 20 ∧ hl + 20 ≤ 288 ∧ 288 ≤ Config.bmemBytes ∧
    (∀ j, j < plan.length → memRead (start s).pmem j = plan[j]?) ∧
    (∀ j, plan.length ≤ j → memRead (start s).pmem j = memRead s.pmem j) ∧
    (∀ j, j < hl + 20 → memRead (start s).bmem j = strings[j]?) ∧
    (∀ j, hl + 20 ≤ j → memRead (start s).bmem j = memRead s.bmem j) ∧
    (∀ j, memRead (start s).amem j = memRead s.amem j) ∧
    (start s).hr = s.hr ∧ (start s).hrWritten = s.hrWritten ∧ (start s).srate = s.srate ∧ (start s).cfg = s.cfg ∧
    (start s).attnDur = s.attnDur ∧ (start s).msgBase = s.msgBase ∧ (start s).msgLen = s.msgLen

/-- The state after reset: `ST` = IDLE, every working and control register at the value of the table, header registers
and memories unwritten, OUT empty (10_state R43). -/
def Obligations.ResetState : Prop :=
  State.reset.st = .idle ∧ (∀ n, hostReadCr n State.reset = 0) ∧ WorkClear State.reset ∧
  State.reset.outcnt = 0 ∧ State.reset.out = [] ∧
  (∀ n : Fin 69, State.reset.hrWritten[n] = false) ∧
  (∀ a, memRead State.reset.pmem a = none ∧ memRead State.reset.bmem a = none ∧ memRead State.reset.amem a = none)

/-- While `ST` = RUN every host write is ignored: any list of writes, commands to `CTRL` among them, is consumed and
changes nothing; only a reset gets through, in RUN as in every state (10_state R27, R45, 60_exceptions R218,
70_reset_and_hazards R230, R236; the list of accesses is log 1, and that a reset leaves it is log 28). -/
def Obligations.RunLocksOutTheHost : Prop :=
  (∀ (ops rest : List HostOp) (s : State), s.st = .run → (∀ op ∈ ops, op ≠ .hold ∧ op ≠ .reset) →
    s.inputs = ops ++ rest → runSteps ops.length s = .next { s with inputs := rest }) ∧
  ∀ (s : State) (rest : List HostOp), s.inputs = .reset :: rest →
    step s = .next { State.reset with inputs := rest }

/-- What `STATUS` reads as in each run state, 0 after reset among them; a write to it is ignored (10_state R28). -/
def Obligations.StatusReadsAsTheRunState : Prop :=
  hostReadCr 1 State.reset = 0 ∧
  ∀ s : State, (∀ v, hostWriteCr 1 v s = s) ∧
    (s.st = .idle → hostReadCr 1 s = 0x00000000#32) ∧ (s.st = .run → hostReadCr 1 s = 0x00000005#32) ∧
    (s.st = .done → hostReadCr 1 s = 0x0000000A#32) ∧ (s.st = .error → hostReadCr 1 s = 0x00000013#32)

/-- What the control registers read as in every state, a run included, with the fields of CFG and of ERRINFO at their
bits; and outside a run a write reads back in the named bits and touches no other register, while a read-only or reserved
register ignores it (10_state R26, R28 to R36, R45). -/
def Obligations.ControlRegistersReadBack : Prop :=
  (∀ s : State,
    hostReadCr 2 s = s.srate ∧ hostReadCr 3 s = s.cfg ∧ hostReadCr 4 s = s.attnDur ∧ hostReadCr 5 s = s.msgBase ∧
    hostReadCr 6 s = s.msgLen ∧ hostReadCr 7 s = s.plen ∧ hostReadCr 10 s = s.errinfo ∧
    crit s = (hostReadCr 3 s).getLsbD 0 ∧ msgp s = (hostReadCr 3 s).getLsbD 1 ∧ attnk s = (hostReadCr 3 s).getLsbD 2 ∧
    apol s = (hostReadCr 3 s).getLsbD 3 ∧ preroll s = (hostReadCr 3 s).getLsbD 4 ∧
    modeDirect s = (hostReadCr 3 s).getLsbD 5 ∧
    errCodeOf s = (hostReadCr 10 s).extractLsb' 0 4 ∧ errSecOf s = (hostReadCr 10 s).extractLsb' 4 28 ∧
    (∀ e : ErrCause, (hostReadCr 10 (raise e s)).extractLsb' 0 4 = errCode e ∧
      ((hostReadCr 10 (raise e s)).extractLsb' 4 28).toNat = min s.secp (2 ^ 28 - 1)) ∧
    (∀ n : Fin 16, 11 ≤ n.val → hostReadCr n s = 0) ∧
    (s.outcnt < 2 ^ 64 → (hostReadCr 8 s).toNat + 2 ^ 32 * (hostReadCr 9 s).toNat = s.outcnt)) ∧
  ∀ (v : Word) (s : State), s.st ≠ .run →
    hostWriteCr 2 v s = { s with srate := v } ∧ hostReadCr 2 (hostWriteCr 2 v s) = v ∧
    hostWriteCr 3 v s = { s with cfg := v &&& 0x0000003F#32 } ∧
      hostReadCr 3 (hostWriteCr 3 v s) = v &&& 0x0000003F#32 ∧
    hostWriteCr 4 v s = { s with attnDur := v } ∧ hostReadCr 4 (hostWriteCr 4 v s) = v ∧
    hostWriteCr 5 v s = { s with msgBase := v } ∧ hostReadCr 5 (hostWriteCr 5 v s) = v ∧
    hostWriteCr 6 v s = { s with msgLen := v &&& 0x3FFFFFFF#32 } ∧
      hostReadCr 6 (hostWriteCr 6 v s) = v &&& 0x3FFFFFFF#32 ∧
    hostWriteCr 7 v s = { s with plen := v } ∧ hostReadCr 7 (hostWriteCr 7 v s) = v ∧
    (∀ n : Fin 16, n.val = 1 ∨ 8 ≤ n.val → hostWriteCr n v s = s)

/-- What the header registers read as in every state, with the fields of HR0 to HR68 at their bits, a character with a
lower index in less significant bits; and outside a run a write reads back in the bits the tables name, sets its *written*
mark, and leaves every other header register and mark as it was (10_state R37, R38, R44, 20_memory R56). -/
def Obligations.HeaderRegistersReadBack : Prop :=
  (∀ s : State,
    (∀ n : Fin 69, hostReadHr n s = s.hr[n]) ∧
    orgOf s = ((hostReadHr 0 s).extractLsb' 0 3).toNat ∧ nlocOf s = ((hostReadHr 2 s).extractLsb' 0 6).toNat ∧
    minOf s = ((hostReadHr 4 s).extractLsb' 0 6).toNat ∧ hourOf s = ((hostReadHr 4 s).extractLsb' 8 5).toNat ∧
    doyOf s = ((hostReadHr 4 s).extractLsb' 16 9).toNat ∧
    evtBytes s = ([0, 8, 16].map fun b => (hostReadHr 1 s).extractLsb' b 8) ∧
    purgeBytes s = ([0, 8, 16, 24].map fun b => (hostReadHr 3 s).extractLsb' b 8) ∧
    callBytes s = ([0, 8, 16, 24].map fun b => (hostReadHr 5 s).extractLsb' b 8) ++
      ([0, 8, 16, 24].map fun b => (hostReadHr 6 s).extractLsb' b 8) ∧
    ∀ k : Fin 31, locBytes s k.val =
      ([0, 8, 16, 24].map fun b => (hostReadHr ⟨7 + 2 * k.val, by omega⟩ s).extractLsb' b 8) ++
      ([0, 8].map fun b => (hostReadHr ⟨8 + 2 * k.val, by omega⟩ s).extractLsb' b 8)) ∧
  ∀ (n : Fin 69) (v : Word) (s : State), s.st ≠ .run →
    hostReadHr n (hostWriteHr n v s) = v &&&
      (if n.val = 0 then 0x7#32 else if n.val = 1 then 0xFFFFFF#32 else if n.val = 2 then 0x3F#32
       else if n.val = 4 then 0x01FF1F3F#32 else if 8 ≤ n.val ∧ n.val % 2 = 0 then 0xFFFF#32 else 0xFFFFFFFF#32) ∧
    (hostWriteHr n v s).hrWritten[n] = true ∧
    (∀ k : Fin 69, k ≠ n →
      hostReadHr k (hostWriteHr n v s) = hostReadHr k s ∧ (hostWriteHr n v s).hrWritten[k] = s.hrWritten[k]) ∧
    hostWriteHr n v s = { s with hr := (hostWriteHr n v s).hr, hrWritten := (hostWriteHr n v s).hrWritten }

/-- Outside a run a host write to an element of a memory that exists writes it, marks it written by that, and changes
nothing else (10_state R44, R45, 20_memory R50, 60_exceptions R222). A write at an address where the memory has no element
is allowed too, and that it changes nothing is log 14 (DEDUCED). -/
def Obligations.HostWritesMemory : Prop :=
  ∀ (a : Word) (s : State), s.st ≠ .run →
    (∀ v, a.toNat < Config.pmemWords → ∃ m, hostAccess (.writePmem a v) s = { s with pmem := m } ∧
      ∀ b, memRead m b = if b = a.toNat then some v else memRead s.pmem b) ∧
    (∀ v, a.toNat < Config.bmemBytes → ∃ m, hostAccess (.writeBmem a v) s = { s with bmem := m } ∧
      ∀ b, memRead m b = if b = a.toNat then some v else memRead s.bmem b) ∧
    (∀ v, a.toNat < Config.amemSamples → ∃ m, hostAccess (.writeAmem a v) s = { s with amem := m } ∧
      ∀ b, memRead m b = if b = a.toNat then some v else memRead s.amem b) ∧
    (∀ v, Config.pmemWords ≤ a.toNat → hostAccess (.writePmem a v) s = s) ∧
    (∀ v, Config.bmemBytes ≤ a.toNat → hostAccess (.writeBmem a v) s = s) ∧
    (∀ v, Config.amemSamples ≤ a.toNat → hostAccess (.writeAmem a v) s = s)

/-! ## The framer -/

/-- The length of the header string (42_protocol_framer R149). -/
def Obligations.HeaderLength : Prop :=
  ∀ s : State, orgOf s ≤ 4 → (fmtHeader s).length = 51 + 7 * nlocOf s

/-- The header string, piece by piece, from the bits of the header registers (42_protocol_framer R141 to R148, 30_encoding
R83, 10_state R37, R38, 20_memory R56). That the byte for `-` in the callsign is 0x5C is the spec's decision D35 (log 26,
DEDUCED). -/
def Obligations.HeaderFollowsTheGrammar : Prop :=
  ∀ s : State, ∃ org locs,
    let num := s.hr[0].extractLsb' 0 3
    let nloc := (s.hr[2].extractLsb' 0 6).toNat
    let min := (s.hr[4].extractLsb' 0 6).toNat
    let hour := (s.hr[4].extractLsb' 8 5).toNat
    let doy := (s.hr[4].extractLsb' 16 9).toNat
    let digit : Nat → Byte := fun g => BitVec.ofNat 8 (0x30 + g)
    let callsign : List Byte :=
      [s.hr[5].extractLsb' 0 8, s.hr[5].extractLsb' 8 8, s.hr[5].extractLsb' 16 8, s.hr[5].extractLsb' 24 8,
       s.hr[6].extractLsb' 0 8, s.hr[6].extractLsb' 8 8, s.hr[6].extractLsb' 16 8, s.hr[6].extractLsb' 24 8]
    fmtHeader s =
      List.replicate 16 0xAB#8 ++ [0x5A#8, 0x43#8, 0x5A#8, 0x43#8, 0x2D#8] ++ org ++
      [0x2D#8, s.hr[1].extractLsb' 0 8, s.hr[1].extractLsb' 8 8, s.hr[1].extractLsb' 16 8] ++ locs ++
      [0x2B#8, s.hr[3].extractLsb' 0 8, s.hr[3].extractLsb' 8 8, s.hr[3].extractLsb' 16 8, s.hr[3].extractLsb' 24 8] ++
      [0x2D#8, digit (doy / 100), digit (doy / 10 % 10), digit (doy % 10), digit (hour / 10), digit (hour % 10),
       digit (min / 10), digit (min % 10)] ++
      [0x2D#8] ++ (callsign.map fun c => if c = 0x2D#8 then 0x5C#8 else c) ++ [0x2D#8] ∧
    (num = 0#3 → org = [0x50#8, 0x45#8, 0x50#8]) ∧ (num = 1#3 → org = [0x43#8, 0x49#8, 0x56#8]) ∧
    (num = 2#3 → org = [0x57#8, 0x58#8, 0x52#8]) ∧ (num = 3#3 → org = [0x45#8, 0x41#8, 0x53#8]) ∧
    (num = 4#3 → org = [0x45#8, 0x41#8, 0x4E#8]) ∧
    locs.length = 7 * nloc ∧
    ∀ k, (hk : k < nloc) → k ≤ 30 → ∀ lo hi, s.hr[7 + 2 * k]? = some lo → s.hr[8 + 2 * k]? = some hi →
      (locs.drop (7 * k)).take 7 =
        [0x2D#8, lo.extractLsb' 0 8, lo.extractLsb' 8 8, lo.extractLsb' 16 8, lo.extractLsb' 24 8,
         hi.extractLsb' 0 8, hi.extractLsb' 8 8]

/-- The end-of-message marker: 16 times 0xAB and `NNNN` (42_protocol_framer R150). -/
def Obligations.EomIsTheFixedString : Prop :=
  fmtEom = [0xAB#8, 0xAB#8, 0xAB#8, 0xAB#8, 0xAB#8, 0xAB#8, 0xAB#8, 0xAB#8, 0xAB#8, 0xAB#8, 0xAB#8, 0xAB#8, 0xAB#8,
    0xAB#8, 0xAB#8, 0xAB#8, 0x4E#8, 0x4E#8, 0x4E#8, 0x4E#8]

/-- The seven bytes of the issue time are decimal digits, most significant first, and read as the three numbers
(42_protocol_framer R146). -/
def Obligations.TimeDigitsReadBack : Prop :=
  ∀ doy hour min : Nat, doy < 1000 → hour < 100 → min < 100 →
    ∃ a b c d e f g : Nat, a < 10 ∧ b < 10 ∧ c < 10 ∧ d < 10 ∧ e < 10 ∧ f < 10 ∧ g < 10 ∧
      time7 doy hour min = [a, b, c, d, e, f, g].map (fun x => BitVec.ofNat 8 (0x30 + x)) ∧
      doy = 100 * a + 10 * b + c ∧ hour = 10 * d + e ∧ min = 10 * f + g

/-- The callsign is the eight bytes of HR5 and HR6, the first in the least significant bits of HR5 (10_state R37, 20_memory
R56); in it, byte by byte, `-` becomes 0x5C and every other byte is kept; so no `-` is left (42_protocol_framer R148; the
substitute is the spec's decision D35, log 26, DEDUCED). -/
def Obligations.CallsignDashesAreReplaced : Prop :=
  ∀ s : State,
    callBytes s =
      [s.hr[5].extractLsb' 0 8, s.hr[5].extractLsb' 8 8, s.hr[5].extractLsb' 16 8, s.hr[5].extractLsb' 24 8,
       s.hr[6].extractLsb' 0 8, s.hr[6].extractLsb' 8 8, s.hr[6].extractLsb' 16 8, s.hr[6].extractLsb' 24 8] ∧
    (call8 (callBytes s)).length = 8 ∧ 0x2D#8 ∉ call8 (callBytes s) ∧
    ∀ (j : Nat) (c : Byte), (callBytes s)[j]? = some c →
      (call8 (callBytes s))[j]? = some (if c = 0x2D#8 then 0x5C#8 else c)

/-! ## The renders -/

/-- A sample count is the exact floor of the rate times the duration, in the rationals (40_tone_generator R101, R113). -/
def Obligations.SampleCountIsTheExactFloor : Prop :=
  ∀ sr ticks : Nat, (ncount sr ticks : Int) = ⌊(sr : Rat) * ((ticks : Rat) / 100000)⌋ ∧ ncount sr 192 = nbit sr

/-- The required properties P0 and P1 of the sample function, and M0, M1 and M3 of the mixer, hold whatever the free
values are (40_tone_generator R103, R109; P3 and M4 are their being functions; P2 and M2 are premises, log 7). -/
def Obligations.NumericsHaveTheirProperties : Prop :=
  toneSample 0 = 0x00000000#32 ∧ (∀ p, inUnit (toneSample p) = true) ∧
  (∀ vs : List Sample, vs ≠ [] → (∀ v ∈ vs, v = 0x00000000#32) → mix vs = 0x00000000#32) ∧
  (∀ vs : List Sample, vs ≠ [] → (∀ v ∈ vs, inUnit v = true) → inUnit (mix vs) = true) ∧
  ∀ v : Sample, mix [v] = v

/-- With P2 and M2, a TONE emits the mean of its carriers' sines within the sum of the two bounds, whatever its one to
`NFREQ_MAX` frequencies are, the two of the combined attention tone among them; with P2 alone, a TONE of one frequency
emits its sine within the one bound (40_tone_generator R103 (P2), R109 (M2, M3), R115; the premises P2 and M2 are
log 7). -/
def Obligations.CarriersAreTheMeanOfTheirSines : Prop :=
  ∀ (tol : ℝ), SineAccurate tol → ∀ (n dur i : Nat),
    let sine : Word → ℝ := fun f =>
      Real.sin (2 * Real.pi * ((i : ℝ) * ((f.toNat : ℝ) / 1000) * ((dur : ℝ) / 100000) / (n : ℝ)))
    (∀ f : Word, |((sampleValue (toneMix n dur [f] i) : Rat) : ℝ) - sine f| ≤ tol) ∧
    ∀ (tolMix : ℝ), MixAccurate tolMix → ∀ fs : List Word, fs ≠ [] → fs.length ≤ Config.nfreqMax →
      |((sampleValue (toneMix n dur fs i) : Rat) : ℝ) - (fs.map sine).sum / (fs.length : ℝ)| ≤ tol + tolMix

/-- The single form: its length, its two degenerate cases, the divisor `N - 1`, the first sample `+0.0`, the last at
phase `C`, and its range (40_tone_generator R104, R105, R106). -/
def Obligations.SingleForm : Prop :=
  ∀ (n : Nat) (c : Rat),
    (single n c).length = n ∧ single 0 c = [] ∧ single 1 c = [0x00000000#32] ∧
    (2 ≤ n → ∀ i, i < n → (single n c)[i]? = some (toneSample ((i : Rat) * c / ((n : Rat) - 1)))) ∧
    (1 ≤ n → (single n c)[0]? = some 0x00000000#32) ∧
    (2 ≤ n → (single n c)[n - 1]? = some (toneSample c)) ∧
    ∀ v ∈ single n c, inUnit v = true

/-- The multi form: its length `N`, sample `i` the mix of the carriers at phase `i * f_k * d / N`, the first sample
`+0.0` (40_tone_generator R108, R110). -/
def Obligations.MultiForm : Prop :=
  ∀ (sr ticks : Nat) (fs : List Rat), fs ≠ [] →
    let n := ncount sr ticks
    (multi sr ticks fs).length = n ∧
    (∀ i, i < n → (multi sr ticks fs)[i]? =
      some (mix (fs.map fun f => toneSample ((i : Rat) * f * ((ticks : Rat) / 100000) / (n : Rat))))) ∧
    (1 ≤ n → (multi sr ticks fs)[0]? = some 0x00000000#32)

/-- A byte renders as eight bit segments, least significant bit first, 4 cycles for a set bit and 3 for a clear one,
`8 * NBIT` samples in all; a string as its bytes in order (41_bit_modulator R125, R126). -/
def Obligations.BytesRenderBitByBit : Prop :=
  ∀ (sr : Nat) (v : Byte) (bs : List Byte),
    byteSeg sr v = ([0, 1, 2, 3, 4, 5, 6, 7].flatMap fun k => single (nbit sr) (if v.getLsbD k then 4 else 3)) ∧
    (byteSeg sr v).length = 8 * nbit sr ∧
    bytesRender sr [] = [] ∧ bytesRender sr (v :: bs) = byteSeg sr v ++ bytesRender sr bs ∧
    (bytesRender sr bs).length = 8 * bs.length * nbit sr

/-- The policy table and the size of the plan: a TONE is in the plan exactly when the table has the attention group, an
AUDIO exactly when it has the message group, and the plan has 12 to 17 sections (44_section_sequencer R184, R185). -/
def Obligations.PlanFollowsThePolicyTable : Prop :=
  ∀ (s : State) (msg : List Sample),
    ((∃ dur rsvd freqs, .tone dur rsvd freqs ∈ planInstrs s) ↔ apol s = true ∨ crit s = true ∧ msgp s = true) ∧
    ((∃ len base, .audio len base ∈ planInstrs s) ↔ msgp s = true) ∧
    (attended s = true ↔ apol s = true ∨ crit s = true ∧ msgp s = true) ∧
    (warningPlan s msg).length = 12 + (if attended s then 3 else 0) + (if msgp s then 2 else 0) ∧
    (planInstrs s).length = (warningPlan s msg).length

/-- The length of a warning (44_section_sequencer R191). The last `+ sr` is R191's `Ncount(sr, TRAIL)` at `TRAIL` = 1.0 s,
the spec's decision D13 (R183; log 26, DEDUCED). -/
def Obligations.WarningLength : Prop :=
  ∀ (s : State) (msg : List Sample), orgOf s ≤ 4 → msg.length = s.msgLen.toNat →
    let sr := s.srate.toNat
    (renderList sr (warningPlan s msg)).length =
      3 * 8 * (51 + 7 * nlocOf s) * nbit sr + 2 * sr
      + (if attended s then 2 * sr + ncount sr s.attnDur.toNat else 0)
      + (if msgp s then (if preroll s then 4 * sr else sr) + s.msgLen.toNat else 0)
      + 3 * sr + 3 * 8 * 20 * nbit sr + sr

/-! ## The machine -/

/-- The invariant holds at reset. -/
def Obligations.ResetMeetsTheMachineInvariant : Prop := MachineInv State.reset

/-- Every step keeps the invariant, from every state that has it: the memories keep their canonical form inside their
sizes, reserved bits stay zero, `OUTCNT` is the length of OUT, IDLE holds nothing of a run, RUN is at a fetched
descriptor inside the plan, DONE records no error and ERROR one of the nine causes (10_state R26, R34, R40, R43,
20_memory R60, 44_section_sequencer R195, 60_exceptions R211). -/
def Obligations.StepKeepsTheMachineInvariant : Prop :=
  ∀ s t : State, MachineInv s → step s = .next t → MachineInv t

/-- No working register wraps in a run: `SAMP <= NCUR < 2^46`, `BYTEP < 2^30`, `SECP <= PCW <= PLEN <= PMEM_WORDS`
(10_state R23). -/
def Obligations.WorkingRegistersNeverWrap : Prop :=
  ∀ s : State, MachineInv s → s.st = .run →
    s.samp ≤ s.ncur ∧ s.ncur < 2 ^ 46 ∧ s.bytep < 2 ^ 30 ∧ s.secp ≤ s.pcw ∧ s.pcw ≤ s.plen.toNat ∧
    s.plen.toNat ≤ Config.pmemWords

/-- In a run a step of the block is always enabled, and is FINISH, RETIRE, EMIT of one sample, or an EMIT that raises
`E_UNINIT`: no EMIT fails on bounds, and nothing waits (44_section_sequencer R195, R198, R203, 20_memory R60). -/
def Obligations.RunningBlockNeverStalls : Prop :=
  ∀ s : State, MachineInv s → s.st = .run → s.inputs = [] → s.outcnt + 1 < 2 ^ 64 →
    ∃ t, step s = .next t ∧
      ((t.st = .done ∧ t.out = s.out ∧ KeepsWork s t) ∨
       (s.pcw < t.pcw ∧ t.secp = s.secp + 1 ∧ t.out = s.out) ∨
       (∃ v, t.st = .run ∧ t.out = s.out ++ [v] ∧ t.pcw = s.pcw ∧ t.secp = s.secp) ∨
       (t.st = .error ∧ t.out = s.out ∧ KeepsWork s t ∧ errCodeOf t = errCode .uninit))

/-- The samples the block itself emits lie in [-1.0, 1.0] as long as the messages in AMEM do: a step of the block keeps
that of OUT, and leaves AMEM alone (00_scope R14, 40_tone_generator R106 (d), R110 (f), 70_reset_and_hazards R240). -/
def Obligations.OutputStaysInRange : Prop :=
  ∀ s t : State, (∀ v ∈ s.out, inUnit v = true) → (∀ a v, memRead s.amem a = some v → inUnit v = true) →
    blockStep s = .next t →
    (∀ v ∈ t.out, inUnit v = true) ∧ ∀ a, memRead t.amem a = memRead s.amem a

/-- A DIRECT run over a legal plan whose elements are all written reaches DONE after one EMIT for each sample, one
RETIRE for each descriptor and one FINISH, and OUT is the flat concatenation of the sections' renders
(44_section_sequencer R176, R202, R203). -/
def Obligations.DirectRunRendersThePlan : Prop :=
  ∀ (s : State) (is : List Instr) (ss : List Section),
    s.inputs = [] → s.st = .idle → modeDirect s = true → s.plen.toNat ≤ Config.pmemWords →
    planDescriptors s = some is → (∀ i ∈ is, fetchCheck i s = none) → sectionsOf is s = some ss →
    (renderList s.srate.toNat ss).length < 2 ^ 64 →
    ∃ t, runSteps ((renderList s.srate.toNat ss).length + is.length + 1) (hostWriteCr 0 1 s) = .next t ∧
      Succeeded t ∧ t.out = renderList s.srate.toNat ss ∧ t.errinfo = 0 ∧
      t.pcw = s.plen.toNat ∧ t.secp = is.length

/-- The step machine and the functional definition agree: a run that is never in ERROR (and never refused for its
length, log 9) reaches DONE, with OUT the render of the section list the plan decodes to; in WARNING mode that list is
`Plan(w)` and OUT `Construct(w)`; and OUT is a prefix of it at every moment (44_section_sequencer R202; the section a
TONEBYTES with an unwritten byte stands for at a rate without samples is log 29). -/
def Obligations.RunWithoutErrorRendersThePlan : Prop :=
  ∀ s : State, s.inputs = [] → s.st = .idle →
    (∀ k, ∃ t, runSteps k (hostWriteCr 0 1 s) = .next t ∧ t.st ≠ .error) →
    ∃ k t ss, runSteps k (hostWriteCr 0 1 s) = .next t ∧ Succeeded t ∧
      planSections (hostWriteCr 0 1 s) = some ss ∧ t.out = renderList s.srate.toNat ss ∧
      (modeDirect s = false → s.msgLen.toNat < 2 ^ 30 →
        ∃ msg, (msgp s = true → message s = some msg) ∧ ss = warningPlan s msg ∧ construct s msg = some t.out) ∧
      ∀ j u, runSteps j (hostWriteCr 0 1 s) = .next u → u.out <+: t.out

/-- A WARNING START whose checks pass puts into memory a plan whose section list is `Plan(w)`, at every sample rate
(44_section_sequencer R184, R187, R190, R202). -/
def Obligations.WarningPlanInMemoryIsThePlan : Prop :=
  ∀ (s : State) (msg : List Sample), modeDirect s = false → warningCheck s = none → s.msgLen.toNat < 2 ^ 30 →
    (msgp s = true → message s = some msg) →
    planSections (start s) = some (warningPlan s msg)

/-- A warning whose checks pass, whose message is written and lies inside AMEM, and which is not too long, runs to DONE
with OUT exactly `Construct(w)` (44_section_sequencer R190, R202). -/
def Obligations.WarningRunEmitsConstruct : Prop :=
  ∀ (s : State) (msg : List Sample), s.inputs = [] → s.st = .idle → modeDirect s = false → warningCheck s = none →
    s.msgLen.toNat < 2 ^ 30 →
    (msgp s = true → message s = some msg ∧ s.msgBase.toNat + s.msgLen.toNat ≤ Config.amemSamples) →
    (renderList s.srate.toNat (warningPlan s msg)).length < 2 ^ 64 →
    ∃ k t, runSteps k (hostWriteCr 0 1 s) = .next t ∧ Succeeded t ∧ construct s msg = some t.out ∧ t.errinfo = 0

/-- The pseudo-instructions expand as the table has them, and the attention ones are refused below 8.0 s
(30_encoding R87; a line stands for its text, log 27). That HEADER is refused when HdrBuild fails and WARNING when HdrBuild
or AttnCheck does is logs 30 and 31, and that WARNING gives descriptors alone, with the strings at BMEM 0 and `HL`, is
log 32 (DESIGN CHOICE). -/
def Obligations.PseudoInstructionsExpand : Prop :=
  ∀ (s : State) (ticks : Nat), ticks < 2 ^ 30 →
    (800000 ≤ ticks →
      assembleLine s (.attnS (mkRat ticks 100000)) = some [.descriptor (.tone (BitVec.ofNat 30 ticks) 0 [1050000])] ∧
      assembleLine s (.attnC (mkRat ticks 100000)) =
        some [.descriptor (.tone (BitVec.ofNat 30 ticks) 0 [853000, 960000])]) ∧
    (ticks < 800000 →
      assembleLine s (.attnS (mkRat ticks 100000)) = none ∧ assembleLine s (.attnC (mkRat ticks 100000)) = none) ∧
    assembleLine s (.silence (mkRat ticks 100000)) = some [.descriptor (.silence (BitVec.ofNat 30 ticks))] ∧
    assembleLine s .gap = some [.descriptor (.silence 100000)] ∧
    (headerCheck s = none → ∀ base : Word, assembleLine s (.header base.toNat) =
      some [.initBytes base.toNat (fmtHeader s),
        .descriptor (.tonebytes (BitVec.ofNat 30 (fmtHeader s).length) base)]) ∧
    (headerCheck s ≠ none → ∀ base : Word, assembleLine s (.header base.toNat) = none) ∧
    (∀ base : Word, assembleLine s (.eom base.toNat) =
      some [.initBytes base.toNat fmtEom, .descriptor (.tonebytes 20 base)]) ∧
    (warningCheck s = none → assembleLine s .warning = some ((planInstrs s).map .descriptor)) ∧
    (warningCheck s ≠ none → assembleLine s .warning = none)
end

