-- ==== Sys2Proof/Laws/Config.lean ====
section
/-! SUPPORT. The ranges of the OPEN sizes: all that can be proved of them. -/

namespace Sys2Proof.Config

theorem le_pmemWords : 64 ≤ pmemWords := by unfold pmemWords; exact Nat.le_add_left _ _
theorem pmemWords_le : pmemWords ≤ 2 ^ 32 := by
  unfold pmemWords
  have := Nat.mod_lt pmemSelect (show 4294967233 > 0 by norm_num)
  generalize pmemSelect % 4294967233 = x at *
  omega
theorem le_bmemBytes : 288 ≤ bmemBytes := by unfold bmemBytes; exact Nat.le_add_left _ _
theorem bmemBytes_le : bmemBytes ≤ 2 ^ 32 := by
  unfold bmemBytes
  have := Nat.mod_lt bmemSelect (show 4294967009 > 0 by norm_num)
  generalize bmemSelect % 4294967009 = x at *
  omega
theorem amemSamples_le : amemSamples ≤ 2 ^ 32 := by
  unfold amemSamples
  have := Nat.mod_lt amemSelect (show 4294967297 > 0 by norm_num)
  omega
theorem le_nfreqMax : 2 ≤ nfreqMax := by unfold nfreqMax; exact Nat.le_add_left _ _
theorem nfreqMax_le : nfreqMax ≤ 15 := by
  unfold nfreqMax
  have := Nat.mod_lt nfreqSelect (show 14 > 0 by norm_num)
  omega

end Sys2Proof.Config
end

