-- ==== Sys2Proof/Laws/State.lean ====
section
/-! SUPPORT. One lemma per field per named update of the state, so that no proof unfolds a record update. -/

namespace Sys2Proof.Machine

/-! The fields after `raise`. -/

@[simp] theorem raise_pcw (e : ErrCause) (s : State) : (raise e s).pcw = s.pcw := rfl
@[simp] theorem raise_secp (e : ErrCause) (s : State) : (raise e s).secp = s.secp := rfl
@[simp] theorem raise_bytep (e : ErrCause) (s : State) : (raise e s).bytep = s.bytep := rfl
@[simp] theorem raise_bitp (e : ErrCause) (s : State) : (raise e s).bitp = s.bitp := rfl
@[simp] theorem raise_samp (e : ErrCause) (s : State) : (raise e s).samp = s.samp := rfl
@[simp] theorem raise_ncur (e : ErrCause) (s : State) : (raise e s).ncur = s.ncur := rfl
@[simp] theorem raise_ccur (e : ErrCause) (s : State) : (raise e s).ccur = s.ccur := rfl
@[simp] theorem raise_shreg (e : ErrCause) (s : State) : (raise e s).shreg = s.shreg := rfl
@[simp] theorem raise_st (e : ErrCause) (s : State) : (raise e s).st = .error := rfl
@[simp] theorem raise_srate (e : ErrCause) (s : State) : (raise e s).srate = s.srate := rfl
@[simp] theorem raise_cfg (e : ErrCause) (s : State) : (raise e s).cfg = s.cfg := rfl
@[simp] theorem raise_attnDur (e : ErrCause) (s : State) : (raise e s).attnDur = s.attnDur := rfl
@[simp] theorem raise_msgBase (e : ErrCause) (s : State) : (raise e s).msgBase = s.msgBase := rfl
@[simp] theorem raise_msgLen (e : ErrCause) (s : State) : (raise e s).msgLen = s.msgLen := rfl
@[simp] theorem raise_plen (e : ErrCause) (s : State) : (raise e s).plen = s.plen := rfl
@[simp] theorem raise_outcnt (e : ErrCause) (s : State) : (raise e s).outcnt = s.outcnt := rfl
@[simp] theorem raise_errinfo (e : ErrCause) (s : State) : (raise e s).errinfo = errWord e s.secp := rfl
@[simp] theorem raise_hr (e : ErrCause) (s : State) : (raise e s).hr = s.hr := rfl
@[simp] theorem raise_hrWritten (e : ErrCause) (s : State) : (raise e s).hrWritten = s.hrWritten := rfl
@[simp] theorem raise_pmem (e : ErrCause) (s : State) : (raise e s).pmem = s.pmem := rfl
@[simp] theorem raise_bmem (e : ErrCause) (s : State) : (raise e s).bmem = s.bmem := rfl
@[simp] theorem raise_amem (e : ErrCause) (s : State) : (raise e s).amem = s.amem := rfl
@[simp] theorem raise_out (e : ErrCause) (s : State) : (raise e s).out = s.out := rfl
@[simp] theorem raise_inputs (e : ErrCause) (s : State) : (raise e s).inputs = s.inputs := rfl

/-! The fields after `clearWork`. -/

@[simp] theorem clearWork_pcw (s : State) : (clearWork s).pcw = 0 := rfl
@[simp] theorem clearWork_secp (s : State) : (clearWork s).secp = 0 := rfl
@[simp] theorem clearWork_bytep (s : State) : (clearWork s).bytep = 0 := rfl
@[simp] theorem clearWork_bitp (s : State) : (clearWork s).bitp = 0 := rfl
@[simp] theorem clearWork_samp (s : State) : (clearWork s).samp = 0 := rfl
@[simp] theorem clearWork_ncur (s : State) : (clearWork s).ncur = 0 := rfl
@[simp] theorem clearWork_ccur (s : State) : (clearWork s).ccur = 0 := rfl
@[simp] theorem clearWork_shreg (s : State) : (clearWork s).shreg = 0 := rfl
@[simp] theorem clearWork_st (s : State) : (clearWork s).st = s.st := rfl
@[simp] theorem clearWork_srate (s : State) : (clearWork s).srate = s.srate := rfl
@[simp] theorem clearWork_cfg (s : State) : (clearWork s).cfg = s.cfg := rfl
@[simp] theorem clearWork_attnDur (s : State) : (clearWork s).attnDur = s.attnDur := rfl
@[simp] theorem clearWork_msgBase (s : State) : (clearWork s).msgBase = s.msgBase := rfl
@[simp] theorem clearWork_msgLen (s : State) : (clearWork s).msgLen = s.msgLen := rfl
@[simp] theorem clearWork_plen (s : State) : (clearWork s).plen = s.plen := rfl
@[simp] theorem clearWork_outcnt (s : State) : (clearWork s).outcnt = s.outcnt := rfl
@[simp] theorem clearWork_errinfo (s : State) : (clearWork s).errinfo = s.errinfo := rfl
@[simp] theorem clearWork_hr (s : State) : (clearWork s).hr = s.hr := rfl
@[simp] theorem clearWork_hrWritten (s : State) : (clearWork s).hrWritten = s.hrWritten := rfl
@[simp] theorem clearWork_pmem (s : State) : (clearWork s).pmem = s.pmem := rfl
@[simp] theorem clearWork_bmem (s : State) : (clearWork s).bmem = s.bmem := rfl
@[simp] theorem clearWork_amem (s : State) : (clearWork s).amem = s.amem := rfl
@[simp] theorem clearWork_out (s : State) : (clearWork s).out = s.out := rfl
@[simp] theorem clearWork_inputs (s : State) : (clearWork s).inputs = s.inputs := rfl

/-! The fields after `clear`. -/

@[simp] theorem clear_pcw (s : State) : (clear s).pcw = 0 := rfl
@[simp] theorem clear_secp (s : State) : (clear s).secp = 0 := rfl
@[simp] theorem clear_bytep (s : State) : (clear s).bytep = 0 := rfl
@[simp] theorem clear_bitp (s : State) : (clear s).bitp = 0 := rfl
@[simp] theorem clear_samp (s : State) : (clear s).samp = 0 := rfl
@[simp] theorem clear_ncur (s : State) : (clear s).ncur = 0 := rfl
@[simp] theorem clear_ccur (s : State) : (clear s).ccur = 0 := rfl
@[simp] theorem clear_shreg (s : State) : (clear s).shreg = 0 := rfl
@[simp] theorem clear_st (s : State) : (clear s).st = .idle := rfl
@[simp] theorem clear_srate (s : State) : (clear s).srate = s.srate := rfl
@[simp] theorem clear_cfg (s : State) : (clear s).cfg = s.cfg := rfl
@[simp] theorem clear_attnDur (s : State) : (clear s).attnDur = s.attnDur := rfl
@[simp] theorem clear_msgBase (s : State) : (clear s).msgBase = s.msgBase := rfl
@[simp] theorem clear_msgLen (s : State) : (clear s).msgLen = s.msgLen := rfl
@[simp] theorem clear_plen (s : State) : (clear s).plen = s.plen := rfl
@[simp] theorem clear_outcnt (s : State) : (clear s).outcnt = 0 := rfl
@[simp] theorem clear_errinfo (s : State) : (clear s).errinfo = 0 := rfl
@[simp] theorem clear_hr (s : State) : (clear s).hr = s.hr := rfl
@[simp] theorem clear_hrWritten (s : State) : (clear s).hrWritten = s.hrWritten := rfl
@[simp] theorem clear_pmem (s : State) : (clear s).pmem = s.pmem := rfl
@[simp] theorem clear_bmem (s : State) : (clear s).bmem = s.bmem := rfl
@[simp] theorem clear_amem (s : State) : (clear s).amem = s.amem := rfl
@[simp] theorem clear_out (s : State) : (clear s).out = [] := rfl
@[simp] theorem clear_inputs (s : State) : (clear s).inputs = s.inputs := rfl

/-! The fields after `openRun`. -/

@[simp] theorem openRun_pcw (s : State) : (openRun s).pcw = 0 := rfl
@[simp] theorem openRun_secp (s : State) : (openRun s).secp = 0 := rfl
@[simp] theorem openRun_bytep (s : State) : (openRun s).bytep = 0 := rfl
@[simp] theorem openRun_bitp (s : State) : (openRun s).bitp = 0 := rfl
@[simp] theorem openRun_samp (s : State) : (openRun s).samp = 0 := rfl
@[simp] theorem openRun_ncur (s : State) : (openRun s).ncur = 0 := rfl
@[simp] theorem openRun_ccur (s : State) : (openRun s).ccur = 0 := rfl
@[simp] theorem openRun_shreg (s : State) : (openRun s).shreg = 0 := rfl
@[simp] theorem openRun_st (s : State) : (openRun s).st = .run := rfl
@[simp] theorem openRun_srate (s : State) : (openRun s).srate = s.srate := rfl
@[simp] theorem openRun_cfg (s : State) : (openRun s).cfg = s.cfg := rfl
@[simp] theorem openRun_attnDur (s : State) : (openRun s).attnDur = s.attnDur := rfl
@[simp] theorem openRun_msgBase (s : State) : (openRun s).msgBase = s.msgBase := rfl
@[simp] theorem openRun_msgLen (s : State) : (openRun s).msgLen = s.msgLen := rfl
@[simp] theorem openRun_plen (s : State) : (openRun s).plen = s.plen := rfl
@[simp] theorem openRun_outcnt (s : State) : (openRun s).outcnt = 0 := rfl
@[simp] theorem openRun_errinfo (s : State) : (openRun s).errinfo = 0 := rfl
@[simp] theorem openRun_hr (s : State) : (openRun s).hr = s.hr := rfl
@[simp] theorem openRun_hrWritten (s : State) : (openRun s).hrWritten = s.hrWritten := rfl
@[simp] theorem openRun_pmem (s : State) : (openRun s).pmem = s.pmem := rfl
@[simp] theorem openRun_bmem (s : State) : (openRun s).bmem = s.bmem := rfl
@[simp] theorem openRun_amem (s : State) : (openRun s).amem = s.amem := rfl
@[simp] theorem openRun_out (s : State) : (openRun s).out = [] := rfl
@[simp] theorem openRun_inputs (s : State) : (openRun s).inputs = s.inputs := rfl

/-! The fields after `finish`. -/

@[simp] theorem finish_pcw (s : State) : (finish s).pcw = s.pcw := rfl
@[simp] theorem finish_secp (s : State) : (finish s).secp = s.secp := rfl
@[simp] theorem finish_bytep (s : State) : (finish s).bytep = s.bytep := rfl
@[simp] theorem finish_bitp (s : State) : (finish s).bitp = s.bitp := rfl
@[simp] theorem finish_samp (s : State) : (finish s).samp = s.samp := rfl
@[simp] theorem finish_ncur (s : State) : (finish s).ncur = s.ncur := rfl
@[simp] theorem finish_ccur (s : State) : (finish s).ccur = s.ccur := rfl
@[simp] theorem finish_shreg (s : State) : (finish s).shreg = s.shreg := rfl
@[simp] theorem finish_st (s : State) : (finish s).st = .done := rfl
@[simp] theorem finish_srate (s : State) : (finish s).srate = s.srate := rfl
@[simp] theorem finish_cfg (s : State) : (finish s).cfg = s.cfg := rfl
@[simp] theorem finish_attnDur (s : State) : (finish s).attnDur = s.attnDur := rfl
@[simp] theorem finish_msgBase (s : State) : (finish s).msgBase = s.msgBase := rfl
@[simp] theorem finish_msgLen (s : State) : (finish s).msgLen = s.msgLen := rfl
@[simp] theorem finish_plen (s : State) : (finish s).plen = s.plen := rfl
@[simp] theorem finish_outcnt (s : State) : (finish s).outcnt = s.outcnt := rfl
@[simp] theorem finish_errinfo (s : State) : (finish s).errinfo = s.errinfo := rfl
@[simp] theorem finish_hr (s : State) : (finish s).hr = s.hr := rfl
@[simp] theorem finish_hrWritten (s : State) : (finish s).hrWritten = s.hrWritten := rfl
@[simp] theorem finish_pmem (s : State) : (finish s).pmem = s.pmem := rfl
@[simp] theorem finish_bmem (s : State) : (finish s).bmem = s.bmem := rfl
@[simp] theorem finish_amem (s : State) : (finish s).amem = s.amem := rfl
@[simp] theorem finish_out (s : State) : (finish s).out = s.out := rfl
@[simp] theorem finish_inputs (s : State) : (finish s).inputs = s.inputs := rfl

/-! The fields after `pushSample`. -/

@[simp] theorem pushSample_pcw (v : Sample) (s : State) : (pushSample v s).pcw = s.pcw := rfl
@[simp] theorem pushSample_secp (v : Sample) (s : State) : (pushSample v s).secp = s.secp := rfl
@[simp] theorem pushSample_bytep (v : Sample) (s : State) : (pushSample v s).bytep = s.bytep := rfl
@[simp] theorem pushSample_bitp (v : Sample) (s : State) : (pushSample v s).bitp = s.bitp := rfl
@[simp] theorem pushSample_samp (v : Sample) (s : State) : (pushSample v s).samp = s.samp := rfl
@[simp] theorem pushSample_ncur (v : Sample) (s : State) : (pushSample v s).ncur = s.ncur := rfl
@[simp] theorem pushSample_ccur (v : Sample) (s : State) : (pushSample v s).ccur = s.ccur := rfl
@[simp] theorem pushSample_shreg (v : Sample) (s : State) : (pushSample v s).shreg = s.shreg := rfl
@[simp] theorem pushSample_st (v : Sample) (s : State) : (pushSample v s).st = s.st := rfl
@[simp] theorem pushSample_srate (v : Sample) (s : State) : (pushSample v s).srate = s.srate := rfl
@[simp] theorem pushSample_cfg (v : Sample) (s : State) : (pushSample v s).cfg = s.cfg := rfl
@[simp] theorem pushSample_attnDur (v : Sample) (s : State) : (pushSample v s).attnDur = s.attnDur := rfl
@[simp] theorem pushSample_msgBase (v : Sample) (s : State) : (pushSample v s).msgBase = s.msgBase := rfl
@[simp] theorem pushSample_msgLen (v : Sample) (s : State) : (pushSample v s).msgLen = s.msgLen := rfl
@[simp] theorem pushSample_plen (v : Sample) (s : State) : (pushSample v s).plen = s.plen := rfl
@[simp] theorem pushSample_outcnt (v : Sample) (s : State) : (pushSample v s).outcnt = s.outcnt + 1 := rfl
@[simp] theorem pushSample_errinfo (v : Sample) (s : State) : (pushSample v s).errinfo = s.errinfo := rfl
@[simp] theorem pushSample_hr (v : Sample) (s : State) : (pushSample v s).hr = s.hr := rfl
@[simp] theorem pushSample_hrWritten (v : Sample) (s : State) : (pushSample v s).hrWritten = s.hrWritten := rfl
@[simp] theorem pushSample_pmem (v : Sample) (s : State) : (pushSample v s).pmem = s.pmem := rfl
@[simp] theorem pushSample_bmem (v : Sample) (s : State) : (pushSample v s).bmem = s.bmem := rfl
@[simp] theorem pushSample_amem (v : Sample) (s : State) : (pushSample v s).amem = s.amem := rfl
@[simp] theorem pushSample_out (v : Sample) (s : State) : (pushSample v s).out = s.out ++ [v] := rfl
@[simp] theorem pushSample_inputs (v : Sample) (s : State) : (pushSample v s).inputs = s.inputs := rfl

/-! The fields after `nextSample`. -/

@[simp] theorem nextSample_pcw (s : State) : (nextSample s).pcw = s.pcw := rfl
@[simp] theorem nextSample_secp (s : State) : (nextSample s).secp = s.secp := rfl
@[simp] theorem nextSample_bytep (s : State) : (nextSample s).bytep = s.bytep := rfl
@[simp] theorem nextSample_bitp (s : State) : (nextSample s).bitp = s.bitp := rfl
@[simp] theorem nextSample_samp (s : State) : (nextSample s).samp = s.samp + 1 := rfl
@[simp] theorem nextSample_ncur (s : State) : (nextSample s).ncur = s.ncur := rfl
@[simp] theorem nextSample_ccur (s : State) : (nextSample s).ccur = s.ccur := rfl
@[simp] theorem nextSample_shreg (s : State) : (nextSample s).shreg = s.shreg := rfl
@[simp] theorem nextSample_st (s : State) : (nextSample s).st = s.st := rfl
@[simp] theorem nextSample_srate (s : State) : (nextSample s).srate = s.srate := rfl
@[simp] theorem nextSample_cfg (s : State) : (nextSample s).cfg = s.cfg := rfl
@[simp] theorem nextSample_attnDur (s : State) : (nextSample s).attnDur = s.attnDur := rfl
@[simp] theorem nextSample_msgBase (s : State) : (nextSample s).msgBase = s.msgBase := rfl
@[simp] theorem nextSample_msgLen (s : State) : (nextSample s).msgLen = s.msgLen := rfl
@[simp] theorem nextSample_plen (s : State) : (nextSample s).plen = s.plen := rfl
@[simp] theorem nextSample_outcnt (s : State) : (nextSample s).outcnt = s.outcnt := rfl
@[simp] theorem nextSample_errinfo (s : State) : (nextSample s).errinfo = s.errinfo := rfl
@[simp] theorem nextSample_hr (s : State) : (nextSample s).hr = s.hr := rfl
@[simp] theorem nextSample_hrWritten (s : State) : (nextSample s).hrWritten = s.hrWritten := rfl
@[simp] theorem nextSample_pmem (s : State) : (nextSample s).pmem = s.pmem := rfl
@[simp] theorem nextSample_bmem (s : State) : (nextSample s).bmem = s.bmem := rfl
@[simp] theorem nextSample_amem (s : State) : (nextSample s).amem = s.amem := rfl
@[simp] theorem nextSample_out (s : State) : (nextSample s).out = s.out := rfl
@[simp] theorem nextSample_inputs (s : State) : (nextSample s).inputs = s.inputs := rfl

/-! The fields after `advance`. -/

@[simp] theorem advance_pcw (n : Nat) (s : State) : (advance n s).pcw = s.pcw + n := rfl
@[simp] theorem advance_secp (n : Nat) (s : State) : (advance n s).secp = s.secp + 1 := rfl
@[simp] theorem advance_bytep (n : Nat) (s : State) : (advance n s).bytep = 0 := rfl
@[simp] theorem advance_bitp (n : Nat) (s : State) : (advance n s).bitp = 0 := rfl
@[simp] theorem advance_samp (n : Nat) (s : State) : (advance n s).samp = 0 := rfl
@[simp] theorem advance_ncur (n : Nat) (s : State) : (advance n s).ncur = 0 := rfl
@[simp] theorem advance_ccur (n : Nat) (s : State) : (advance n s).ccur = 0 := rfl
@[simp] theorem advance_shreg (n : Nat) (s : State) : (advance n s).shreg = 0 := rfl
@[simp] theorem advance_st (n : Nat) (s : State) : (advance n s).st = s.st := rfl
@[simp] theorem advance_srate (n : Nat) (s : State) : (advance n s).srate = s.srate := rfl
@[simp] theorem advance_cfg (n : Nat) (s : State) : (advance n s).cfg = s.cfg := rfl
@[simp] theorem advance_attnDur (n : Nat) (s : State) : (advance n s).attnDur = s.attnDur := rfl
@[simp] theorem advance_msgBase (n : Nat) (s : State) : (advance n s).msgBase = s.msgBase := rfl
@[simp] theorem advance_msgLen (n : Nat) (s : State) : (advance n s).msgLen = s.msgLen := rfl
@[simp] theorem advance_plen (n : Nat) (s : State) : (advance n s).plen = s.plen := rfl
@[simp] theorem advance_outcnt (n : Nat) (s : State) : (advance n s).outcnt = s.outcnt := rfl
@[simp] theorem advance_errinfo (n : Nat) (s : State) : (advance n s).errinfo = s.errinfo := rfl
@[simp] theorem advance_hr (n : Nat) (s : State) : (advance n s).hr = s.hr := rfl
@[simp] theorem advance_hrWritten (n : Nat) (s : State) : (advance n s).hrWritten = s.hrWritten := rfl
@[simp] theorem advance_pmem (n : Nat) (s : State) : (advance n s).pmem = s.pmem := rfl
@[simp] theorem advance_bmem (n : Nat) (s : State) : (advance n s).bmem = s.bmem := rfl
@[simp] theorem advance_amem (n : Nat) (s : State) : (advance n s).amem = s.amem := rfl
@[simp] theorem advance_out (n : Nat) (s : State) : (advance n s).out = s.out := rfl
@[simp] theorem advance_inputs (n : Nat) (s : State) : (advance n s).inputs = s.inputs := rfl

/-! The fields after `openSegment`. -/

@[simp] theorem openSegment_pcw (n : Nat) (s : State) : (openSegment n s).pcw = s.pcw := rfl
@[simp] theorem openSegment_secp (n : Nat) (s : State) : (openSegment n s).secp = s.secp := rfl
@[simp] theorem openSegment_bytep (n : Nat) (s : State) : (openSegment n s).bytep = 0 := rfl
@[simp] theorem openSegment_bitp (n : Nat) (s : State) : (openSegment n s).bitp = 0 := rfl
@[simp] theorem openSegment_samp (n : Nat) (s : State) : (openSegment n s).samp = 0 := rfl
@[simp] theorem openSegment_ncur (n : Nat) (s : State) : (openSegment n s).ncur = n := rfl
@[simp] theorem openSegment_ccur (n : Nat) (s : State) : (openSegment n s).ccur = s.ccur := rfl
@[simp] theorem openSegment_shreg (n : Nat) (s : State) : (openSegment n s).shreg = s.shreg := rfl
@[simp] theorem openSegment_st (n : Nat) (s : State) : (openSegment n s).st = s.st := rfl
@[simp] theorem openSegment_srate (n : Nat) (s : State) : (openSegment n s).srate = s.srate := rfl
@[simp] theorem openSegment_cfg (n : Nat) (s : State) : (openSegment n s).cfg = s.cfg := rfl
@[simp] theorem openSegment_attnDur (n : Nat) (s : State) : (openSegment n s).attnDur = s.attnDur := rfl
@[simp] theorem openSegment_msgBase (n : Nat) (s : State) : (openSegment n s).msgBase = s.msgBase := rfl
@[simp] theorem openSegment_msgLen (n : Nat) (s : State) : (openSegment n s).msgLen = s.msgLen := rfl
@[simp] theorem openSegment_plen (n : Nat) (s : State) : (openSegment n s).plen = s.plen := rfl
@[simp] theorem openSegment_outcnt (n : Nat) (s : State) : (openSegment n s).outcnt = s.outcnt := rfl
@[simp] theorem openSegment_errinfo (n : Nat) (s : State) : (openSegment n s).errinfo = s.errinfo := rfl
@[simp] theorem openSegment_hr (n : Nat) (s : State) : (openSegment n s).hr = s.hr := rfl
@[simp] theorem openSegment_hrWritten (n : Nat) (s : State) : (openSegment n s).hrWritten = s.hrWritten := rfl
@[simp] theorem openSegment_pmem (n : Nat) (s : State) : (openSegment n s).pmem = s.pmem := rfl
@[simp] theorem openSegment_bmem (n : Nat) (s : State) : (openSegment n s).bmem = s.bmem := rfl
@[simp] theorem openSegment_amem (n : Nat) (s : State) : (openSegment n s).amem = s.amem := rfl
@[simp] theorem openSegment_out (n : Nat) (s : State) : (openSegment n s).out = s.out := rfl
@[simp] theorem openSegment_inputs (n : Nat) (s : State) : (openSegment n s).inputs = s.inputs := rfl

/-! The fields after `loadByte`. -/

@[simp] theorem loadByte_pcw (v : Byte) (s : State) : (loadByte v s).pcw = s.pcw := rfl
@[simp] theorem loadByte_secp (v : Byte) (s : State) : (loadByte v s).secp = s.secp := rfl
@[simp] theorem loadByte_bytep (v : Byte) (s : State) : (loadByte v s).bytep = s.bytep := rfl
@[simp] theorem loadByte_bitp (v : Byte) (s : State) : (loadByte v s).bitp = s.bitp := rfl
@[simp] theorem loadByte_samp (v : Byte) (s : State) : (loadByte v s).samp = s.samp := rfl
@[simp] theorem loadByte_ncur (v : Byte) (s : State) : (loadByte v s).ncur = s.ncur := rfl
@[simp] theorem loadByte_ccur (v : Byte) (s : State) : (loadByte v s).ccur = cyc (sym v s.bitp.toNat) := rfl
@[simp] theorem loadByte_shreg (v : Byte) (s : State) : (loadByte v s).shreg = v := rfl
@[simp] theorem loadByte_st (v : Byte) (s : State) : (loadByte v s).st = s.st := rfl
@[simp] theorem loadByte_srate (v : Byte) (s : State) : (loadByte v s).srate = s.srate := rfl
@[simp] theorem loadByte_cfg (v : Byte) (s : State) : (loadByte v s).cfg = s.cfg := rfl
@[simp] theorem loadByte_attnDur (v : Byte) (s : State) : (loadByte v s).attnDur = s.attnDur := rfl
@[simp] theorem loadByte_msgBase (v : Byte) (s : State) : (loadByte v s).msgBase = s.msgBase := rfl
@[simp] theorem loadByte_msgLen (v : Byte) (s : State) : (loadByte v s).msgLen = s.msgLen := rfl
@[simp] theorem loadByte_plen (v : Byte) (s : State) : (loadByte v s).plen = s.plen := rfl
@[simp] theorem loadByte_outcnt (v : Byte) (s : State) : (loadByte v s).outcnt = s.outcnt := rfl
@[simp] theorem loadByte_errinfo (v : Byte) (s : State) : (loadByte v s).errinfo = s.errinfo := rfl
@[simp] theorem loadByte_hr (v : Byte) (s : State) : (loadByte v s).hr = s.hr := rfl
@[simp] theorem loadByte_hrWritten (v : Byte) (s : State) : (loadByte v s).hrWritten = s.hrWritten := rfl
@[simp] theorem loadByte_pmem (v : Byte) (s : State) : (loadByte v s).pmem = s.pmem := rfl
@[simp] theorem loadByte_bmem (v : Byte) (s : State) : (loadByte v s).bmem = s.bmem := rfl
@[simp] theorem loadByte_amem (v : Byte) (s : State) : (loadByte v s).amem = s.amem := rfl
@[simp] theorem loadByte_out (v : Byte) (s : State) : (loadByte v s).out = s.out := rfl
@[simp] theorem loadByte_inputs (v : Byte) (s : State) : (loadByte v s).inputs = s.inputs := rfl

/-! The fields after `appendPlan`. -/

@[simp] theorem appendPlan_pcw (ws : List Word) (s : State) : (appendPlan ws s).pcw = s.pcw := rfl
@[simp] theorem appendPlan_secp (ws : List Word) (s : State) : (appendPlan ws s).secp = s.secp := rfl
@[simp] theorem appendPlan_bytep (ws : List Word) (s : State) : (appendPlan ws s).bytep = s.bytep := rfl
@[simp] theorem appendPlan_bitp (ws : List Word) (s : State) : (appendPlan ws s).bitp = s.bitp := rfl
@[simp] theorem appendPlan_samp (ws : List Word) (s : State) : (appendPlan ws s).samp = s.samp := rfl
@[simp] theorem appendPlan_ncur (ws : List Word) (s : State) : (appendPlan ws s).ncur = s.ncur := rfl
@[simp] theorem appendPlan_ccur (ws : List Word) (s : State) : (appendPlan ws s).ccur = s.ccur := rfl
@[simp] theorem appendPlan_shreg (ws : List Word) (s : State) : (appendPlan ws s).shreg = s.shreg := rfl
@[simp] theorem appendPlan_st (ws : List Word) (s : State) : (appendPlan ws s).st = s.st := rfl
@[simp] theorem appendPlan_srate (ws : List Word) (s : State) : (appendPlan ws s).srate = s.srate := rfl
@[simp] theorem appendPlan_cfg (ws : List Word) (s : State) : (appendPlan ws s).cfg = s.cfg := rfl
@[simp] theorem appendPlan_attnDur (ws : List Word) (s : State) : (appendPlan ws s).attnDur = s.attnDur := rfl
@[simp] theorem appendPlan_msgBase (ws : List Word) (s : State) : (appendPlan ws s).msgBase = s.msgBase := rfl
@[simp] theorem appendPlan_msgLen (ws : List Word) (s : State) : (appendPlan ws s).msgLen = s.msgLen := rfl
@[simp] theorem appendPlan_plen (ws : List Word) (s : State) : (appendPlan ws s).plen = BitVec.ofNat 32 (s.plen.toNat + ws.length) := rfl
@[simp] theorem appendPlan_outcnt (ws : List Word) (s : State) : (appendPlan ws s).outcnt = s.outcnt := rfl
@[simp] theorem appendPlan_errinfo (ws : List Word) (s : State) : (appendPlan ws s).errinfo = s.errinfo := rfl
@[simp] theorem appendPlan_hr (ws : List Word) (s : State) : (appendPlan ws s).hr = s.hr := rfl
@[simp] theorem appendPlan_hrWritten (ws : List Word) (s : State) : (appendPlan ws s).hrWritten = s.hrWritten := rfl
@[simp] theorem appendPlan_pmem (ws : List Word) (s : State) : (appendPlan ws s).pmem = memWriteMany s.pmem s.plen.toNat ws := rfl
@[simp] theorem appendPlan_bmem (ws : List Word) (s : State) : (appendPlan ws s).bmem = s.bmem := rfl
@[simp] theorem appendPlan_amem (ws : List Word) (s : State) : (appendPlan ws s).amem = s.amem := rfl
@[simp] theorem appendPlan_out (ws : List Word) (s : State) : (appendPlan ws s).out = s.out := rfl
@[simp] theorem appendPlan_inputs (ws : List Word) (s : State) : (appendPlan ws s).inputs = s.inputs := rfl

/-! The fields after `writePlan`. -/

@[simp] theorem writePlan_pcw (s : State) : (writePlan s).pcw = s.pcw := rfl
@[simp] theorem writePlan_secp (s : State) : (writePlan s).secp = s.secp := rfl
@[simp] theorem writePlan_bytep (s : State) : (writePlan s).bytep = s.bytep := rfl
@[simp] theorem writePlan_bitp (s : State) : (writePlan s).bitp = s.bitp := rfl
@[simp] theorem writePlan_samp (s : State) : (writePlan s).samp = s.samp := rfl
@[simp] theorem writePlan_ncur (s : State) : (writePlan s).ncur = s.ncur := rfl
@[simp] theorem writePlan_ccur (s : State) : (writePlan s).ccur = s.ccur := rfl
@[simp] theorem writePlan_shreg (s : State) : (writePlan s).shreg = s.shreg := rfl
@[simp] theorem writePlan_st (s : State) : (writePlan s).st = s.st := rfl
@[simp] theorem writePlan_srate (s : State) : (writePlan s).srate = s.srate := rfl
@[simp] theorem writePlan_cfg (s : State) : (writePlan s).cfg = s.cfg := rfl
@[simp] theorem writePlan_attnDur (s : State) : (writePlan s).attnDur = s.attnDur := rfl
@[simp] theorem writePlan_msgBase (s : State) : (writePlan s).msgBase = s.msgBase := rfl
@[simp] theorem writePlan_msgLen (s : State) : (writePlan s).msgLen = s.msgLen := rfl
@[simp] theorem writePlan_plen (s : State) : (writePlan s).plen = BitVec.ofNat 32 (0 + (packInstrs (planInstrs s)).length) := by simp [writePlan]
@[simp] theorem writePlan_outcnt (s : State) : (writePlan s).outcnt = s.outcnt := rfl
@[simp] theorem writePlan_errinfo (s : State) : (writePlan s).errinfo = s.errinfo := rfl
@[simp] theorem writePlan_hr (s : State) : (writePlan s).hr = s.hr := rfl
@[simp] theorem writePlan_hrWritten (s : State) : (writePlan s).hrWritten = s.hrWritten := rfl
@[simp] theorem writePlan_pmem (s : State) : (writePlan s).pmem = memWriteMany s.pmem 0 (packInstrs (planInstrs s)) := by simp [writePlan]
@[simp] theorem writePlan_bmem (s : State) : (writePlan s).bmem = s.bmem := rfl
@[simp] theorem writePlan_amem (s : State) : (writePlan s).amem = s.amem := rfl
@[simp] theorem writePlan_out (s : State) : (writePlan s).out = s.out := rfl
@[simp] theorem writePlan_inputs (s : State) : (writePlan s).inputs = s.inputs := rfl

/-! The fields after `writeStrings`. -/

@[simp] theorem writeStrings_pcw (s : State) : (writeStrings s).pcw = s.pcw := rfl
@[simp] theorem writeStrings_secp (s : State) : (writeStrings s).secp = s.secp := rfl
@[simp] theorem writeStrings_bytep (s : State) : (writeStrings s).bytep = s.bytep := rfl
@[simp] theorem writeStrings_bitp (s : State) : (writeStrings s).bitp = s.bitp := rfl
@[simp] theorem writeStrings_samp (s : State) : (writeStrings s).samp = s.samp := rfl
@[simp] theorem writeStrings_ncur (s : State) : (writeStrings s).ncur = s.ncur := rfl
@[simp] theorem writeStrings_ccur (s : State) : (writeStrings s).ccur = s.ccur := rfl
@[simp] theorem writeStrings_shreg (s : State) : (writeStrings s).shreg = s.shreg := rfl
@[simp] theorem writeStrings_st (s : State) : (writeStrings s).st = s.st := rfl
@[simp] theorem writeStrings_srate (s : State) : (writeStrings s).srate = s.srate := rfl
@[simp] theorem writeStrings_cfg (s : State) : (writeStrings s).cfg = s.cfg := rfl
@[simp] theorem writeStrings_attnDur (s : State) : (writeStrings s).attnDur = s.attnDur := rfl
@[simp] theorem writeStrings_msgBase (s : State) : (writeStrings s).msgBase = s.msgBase := rfl
@[simp] theorem writeStrings_msgLen (s : State) : (writeStrings s).msgLen = s.msgLen := rfl
@[simp] theorem writeStrings_plen (s : State) : (writeStrings s).plen = s.plen := rfl
@[simp] theorem writeStrings_outcnt (s : State) : (writeStrings s).outcnt = s.outcnt := rfl
@[simp] theorem writeStrings_errinfo (s : State) : (writeStrings s).errinfo = s.errinfo := rfl
@[simp] theorem writeStrings_hr (s : State) : (writeStrings s).hr = s.hr := rfl
@[simp] theorem writeStrings_hrWritten (s : State) : (writeStrings s).hrWritten = s.hrWritten := rfl
@[simp] theorem writeStrings_pmem (s : State) : (writeStrings s).pmem = s.pmem := rfl
@[simp] theorem writeStrings_bmem (s : State) : (writeStrings s).bmem = memWriteMany s.bmem 0 (fmtHeader s ++ fmtEom) := by simp only [writeStrings]
@[simp] theorem writeStrings_amem (s : State) : (writeStrings s).amem = s.amem := rfl
@[simp] theorem writeStrings_out (s : State) : (writeStrings s).out = s.out := rfl
@[simp] theorem writeStrings_inputs (s : State) : (writeStrings s).inputs = s.inputs := rfl

/-! The fields after `resetBlock`. -/

@[simp] theorem resetBlock_pcw (s : State) : (resetBlock s).pcw = State.reset.pcw := rfl
@[simp] theorem resetBlock_secp (s : State) : (resetBlock s).secp = State.reset.secp := rfl
@[simp] theorem resetBlock_bytep (s : State) : (resetBlock s).bytep = State.reset.bytep := rfl
@[simp] theorem resetBlock_bitp (s : State) : (resetBlock s).bitp = State.reset.bitp := rfl
@[simp] theorem resetBlock_samp (s : State) : (resetBlock s).samp = State.reset.samp := rfl
@[simp] theorem resetBlock_ncur (s : State) : (resetBlock s).ncur = State.reset.ncur := rfl
@[simp] theorem resetBlock_ccur (s : State) : (resetBlock s).ccur = State.reset.ccur := rfl
@[simp] theorem resetBlock_shreg (s : State) : (resetBlock s).shreg = State.reset.shreg := rfl
@[simp] theorem resetBlock_st (s : State) : (resetBlock s).st = State.reset.st := rfl
@[simp] theorem resetBlock_srate (s : State) : (resetBlock s).srate = State.reset.srate := rfl
@[simp] theorem resetBlock_cfg (s : State) : (resetBlock s).cfg = State.reset.cfg := rfl
@[simp] theorem resetBlock_attnDur (s : State) : (resetBlock s).attnDur = State.reset.attnDur := rfl
@[simp] theorem resetBlock_msgBase (s : State) : (resetBlock s).msgBase = State.reset.msgBase := rfl
@[simp] theorem resetBlock_msgLen (s : State) : (resetBlock s).msgLen = State.reset.msgLen := rfl
@[simp] theorem resetBlock_plen (s : State) : (resetBlock s).plen = State.reset.plen := rfl
@[simp] theorem resetBlock_outcnt (s : State) : (resetBlock s).outcnt = State.reset.outcnt := rfl
@[simp] theorem resetBlock_errinfo (s : State) : (resetBlock s).errinfo = State.reset.errinfo := rfl
@[simp] theorem resetBlock_hr (s : State) : (resetBlock s).hr = State.reset.hr := rfl
@[simp] theorem resetBlock_hrWritten (s : State) : (resetBlock s).hrWritten = State.reset.hrWritten := rfl
@[simp] theorem resetBlock_pmem (s : State) : (resetBlock s).pmem = State.reset.pmem := rfl
@[simp] theorem resetBlock_bmem (s : State) : (resetBlock s).bmem = State.reset.bmem := rfl
@[simp] theorem resetBlock_amem (s : State) : (resetBlock s).amem = State.reset.amem := rfl
@[simp] theorem resetBlock_out (s : State) : (resetBlock s).out = State.reset.out := rfl
@[simp] theorem resetBlock_inputs (s : State) : (resetBlock s).inputs = s.inputs := rfl

end Sys2Proof.Machine
end

