-- ==== Sys2Proof/Laws/Memory.lean ====
section
/-! SUPPORT. What the memory operations can do: read after write, and the canonical form they keep. -/

namespace Sys2Proof.Machine

variable {w : Nat}

@[simp] theorem memRead_nil (a : Nat) : memRead ([] : Mem w) a = none := rfl

/-- Reading the written address gives the written value; every other address reads as before. -/
theorem memRead_memWrite (m : Mem w) (a b : Nat) (v : BitVec w) :
    memRead (memWrite m a v) b = if a = b then some v else memRead m b := by
  induction m with
  | nil => simp [memWrite, memRead]
  | cons x rest ih =>
    obtain ⟨c, y⟩ := x
    simp only [memWrite]
    split
    · simp [memRead]
    · split
      · subst_vars; simp only [memRead]; split <;> rfl
      · simp only [memRead, ih]; split
        · subst_vars; rw [if_neg (by assumption)]
        · rfl

@[simp] theorem memRead_memWrite_same (m : Mem w) (a : Nat) (v : BitVec w) : memRead (memWrite m a v) a = some v := by
  simp [memRead_memWrite]

theorem memRead_memWrite_other (m : Mem w) {a b : Nat} (v : BitVec w) (h : a ≠ b) :
    memRead (memWrite m a v) b = memRead m b := by
  simp [memRead_memWrite, h]

/-- After consecutive writes, an address in their range reads the value at its offset and every other reads as
before. -/
theorem memRead_memWriteMany (vs : List (BitVec w)) (m : Mem w) (a b : Nat) :
    memRead (memWriteMany m a vs) b = if a ≤ b ∧ b < a + vs.length then vs[b - a]? else memRead m b := by
  induction vs generalizing m a with
  | nil => simp [memWriteMany]
  | cons v rest ih =>
    simp only [memWriteMany, ih, List.length_cons]
    by_cases h : a + 1 ≤ b ∧ b < a + 1 + rest.length
    · rw [if_pos h, if_pos (by omega), show b - a = (b - (a + 1)) + 1 by omega, List.getElem?_cons_succ]
    · rw [if_neg h, memRead_memWrite]
      by_cases hab : a = b
      · subst hab; simp
      · rw [if_neg hab, if_neg (by omega)]

theorem memRead_memWriteMany_outside (vs : List (BitVec w)) (m : Mem w) {a b : Nat}
    (h : ¬ (a ≤ b ∧ b < a + vs.length)) : memRead (memWriteMany m a vs) b = memRead m b := by
  rw [memRead_memWriteMany, if_neg h]

/-- Addresses stay listed under a write, and only the written address is new. -/
theorem mem_memWrite {m : Mem w} {a : Nat} {v : BitVec w} {x : Nat × BitVec w} (h : x ∈ memWrite m a v) :
    x = (a, v) ∨ x ∈ m := by
  induction m with
  | nil => simp_all [memWrite]
  | cons y rest ih =>
    simp only [memWrite] at h
    split at h
    · simp_all
    · split at h
      · simp_all; tauto
      · rcases List.mem_cons.1 h with h | h
        · exact .inr (by simp [h])
        · rcases ih h with h | h
          · exact .inl h
          · exact .inr (List.mem_cons_of_mem _ h)

/-- A write keeps the canonical form. -/
theorem memWf_memWrite {m : Mem w} (a : Nat) (v : BitVec w) (h : memWf m) : memWf (memWrite m a v) := by
  induction m with
  | nil => simp [memWrite]
  | cons y rest ih =>
    obtain ⟨b, x⟩ := y
    have hr := List.pairwise_cons.1 h
    simp only [memWrite]
    split
    · rename_i hab
      refine List.pairwise_cons.2 ⟨fun z hz => ?_, h⟩
      rcases List.mem_cons.1 hz with rfl | hz
      · exact hab
      · exact lt_trans hab (hr.1 z hz)
    · split
      · subst_vars; exact List.pairwise_cons.2 hr
      · refine List.pairwise_cons.2 ⟨fun z hz => ?_, ih hr.2⟩
        rcases mem_memWrite hz with rfl | hz
        · show b < a; omega
        · exact hr.1 z hz

theorem memWf_memWriteMany (vs : List (BitVec w)) {m : Mem w} (a : Nat) (h : memWf m) : memWf (memWriteMany m a vs) := by
  induction vs generalizing m a with
  | nil => exact h
  | cons v rest ih => exact ih (a + 1) (memWf_memWrite a v h)

/-- A write inside the memory adds no element outside it. -/
theorem memBelow_memWrite {m : Mem w} {a size : Nat} (v : BitVec w) (ha : a < size) (h : memBelow m size) :
    memBelow (memWrite m a v) size := by
  intro x hx
  rcases mem_memWrite hx with rfl | hx
  · exact ha
  · exact h x hx

theorem memBelow_memWriteMany (vs : List (BitVec w)) {m : Mem w} {a size : Nat} (ha : a + vs.length ≤ size)
    (h : memBelow m size) : memBelow (memWriteMany m a vs) size := by
  induction vs generalizing m a with
  | nil => exact h
  | cons v rest ih =>
    simp only [List.length_cons] at ha
    exact ih (by omega) (memBelow_memWrite v (by omega) h)

/-- What an address reads as is listed there. -/
theorem mem_of_memRead {m : Mem w} {a : Nat} {v : BitVec w} (h : memRead m a = some v) : (a, v) ∈ m := by
  induction m with
  | nil => simp at h
  | cons y rest ih =>
    obtain ⟨b, x⟩ := y
    simp only [memRead] at h
    split at h
    · simp_all
    · exact List.mem_cons_of_mem _ (ih h)

/-- In the canonical form what is listed is what is read. -/
theorem memRead_of_mem {m : Mem w} {a : Nat} {v : BitVec w} (hm : memWf m) (h : (a, v) ∈ m) : memRead m a = some v := by
  induction m with
  | nil => simp at h
  | cons y rest ih =>
    obtain ⟨b, x⟩ := y
    have hr := List.pairwise_cons.1 hm
    simp only [memRead]
    rcases List.mem_cons.1 h with h | h
    · obtain ⟨rfl, rfl⟩ := Prod.mk.inj h; simp
    · have := hr.1 _ h
      rw [if_neg (by simp only at this; omega)]
      exact ih hr.2 h

/-- Consecutive reads succeed exactly when each element is written, and give the elements in order. -/
theorem memReadMany_eq_some {m : Mem w} {a n : Nat} {vs : List (BitVec w)} :
    memReadMany m a n = some vs ↔ vs.length = n ∧ ∀ k, k < n → memRead m (a + k) = vs[k]? := by
  induction n generalizing a vs with
  | zero => cases vs <;> simp [memReadMany]
  | succ n ih =>
    simp only [memReadMany]
    cases hr : memRead m a with
    | none =>
      simp only [reduceCtorEq, false_iff, not_and, not_forall]
      intro hl
      refine ⟨0, by omega, ?_⟩
      cases vs <;> simp_all
    | some v =>
      cases vs with
      | nil => simp
      | cons x rest =>
        have hcons : (memReadMany m (a + 1) n).map (v :: ·) = some (x :: rest) ↔
            v = x ∧ memReadMany m (a + 1) n = some rest := by
          cases memReadMany m (a + 1) n <;> simp
        simp only [hcons, ih, List.length_cons]
        constructor
        · rintro ⟨rfl, hl, h⟩
          refine ⟨by omega, fun k hk => ?_⟩
          cases k with
          | zero => simpa using hr
          | succ k => simpa [Nat.add_comm, Nat.add_left_comm] using h k (by omega)
        · rintro ⟨hl, h⟩
          refine ⟨?_, by omega, fun k hk => ?_⟩
          · have := h 0 (by omega); simp_all
          · simpa [Nat.add_comm, Nat.add_left_comm] using h (k + 1) (by omega)

/-- Reading back consecutive writes gives what was written. -/
theorem memReadMany_memWriteMany (vs : List (BitVec w)) (m : Mem w) (a : Nat) :
    memReadMany (memWriteMany m a vs) a vs.length = some vs := by
  refine memReadMany_eq_some.2 ⟨rfl, fun k hk => ?_⟩
  rw [memRead_memWriteMany, if_pos (by omega), Nat.add_sub_cancel_left]

end Sys2Proof.Machine
end

