-- ==== Sys2Proof/Laws/Decode.lean ====
section
/-! SUPPORT. The fields of encoded words, and what the decoder reads. -/

namespace Sys2Proof

@[simp] theorem tagOf_word0 (t : BitVec 2) (o : BitVec 30) : tagOf (word0 t o) = t := by
  apply BitVec.eq_of_getLsbD_eq
  intro i hi
  simp only [tagOf, word0, BitVec.getLsbD_extractLsb', BitVec.getLsbD_append]
  have : ¬ 30 + i < 30 := by omega
  simp [this, hi]

@[simp] theorem opaOf_word0 (t : BitVec 2) (o : BitVec 30) : opaOf (word0 t o) = o := by
  apply BitVec.eq_of_getLsbD_eq
  intro i hi
  simp only [opaOf, word0, BitVec.getLsbD_extractLsb', BitVec.getLsbD_append]
  simp [hi]

theorem word0_tagOf_opaOf (w : Word) : word0 (tagOf w) (opaOf w) = w := by
  apply BitVec.eq_of_getLsbD_eq
  intro i hi
  simp only [tagOf, opaOf, word0, BitVec.getLsbD_extractLsb', BitVec.getLsbD_append]
  by_cases h : i < 30
  · simp [h]
  · simp only [h, decide_false, if_false]
    rw [show 30 + (i - 30) = i by omega]
    simp [show i - 30 < 2 by omega]

@[simp] theorem rsvdOf_toneWord1 (r : BitVec 28) (n : Nat) : rsvdOf (toneWord1 r n) = r := by
  apply BitVec.eq_of_getLsbD_eq
  intro i hi
  simp only [rsvdOf, toneWord1, BitVec.getLsbD_extractLsb', BitVec.getLsbD_append]
  have : ¬ 4 + i < 4 := by omega
  simp [this, hi]

theorem nfOf_toneWord1 (r : BitVec 28) {n : Nat} (h : n < 16) : nfOf (toneWord1 r n) = n := by
  have : (toneWord1 r n).extractLsb' 0 4 = BitVec.ofNat 4 n := by
    apply BitVec.eq_of_getLsbD_eq
    intro i hi
    simp only [toneWord1, BitVec.getLsbD_extractLsb', BitVec.getLsbD_append]
    simp [hi]
  simp only [nfOf, this, BitVec.toNat_ofNat]
  omega

theorem toneWord1_rsvdOf_nfOf (w : Word) : toneWord1 (rsvdOf w) (nfOf w) = w := by
  have : BitVec.ofNat 4 (nfOf w) = w.extractLsb' 0 4 := by
    simp only [nfOf, BitVec.ofNat_toNat, BitVec.setWidth_eq]
  simp only [toneWord1, this]
  apply BitVec.eq_of_getLsbD_eq
  intro i hi
  simp only [rsvdOf, BitVec.getLsbD_extractLsb', BitVec.getLsbD_append]
  by_cases h : i < 4
  · simp [h]
  · simp only [h, decide_false, if_false]
    rw [show 4 + (i - 4) = i by omega]
    simp [show i - 4 < 28 by omega]

theorem nfOf_lt (w : Word) : nfOf w < 16 := (w.extractLsb' 0 4).isLt

/-- A run of reads succeeds exactly when each read does, and gives the values in order. -/
theorem readRun_eq_ok {ε α : Type} {read : Nat → Except ε α} {k n : Nat} {ws : List α} :
    readRun read k n = .ok ws ↔ ws.length = n ∧ ∀ j (h : j < ws.length), read (k + j) = .ok ws[j] := by
  induction n generalizing k ws with
  | zero => cases ws <;> simp [readRun]
  | succ n ih =>
    simp only [readRun]
    cases hr : read k with
    | error e =>
      simp only [reduceCtorEq, false_iff, not_and, not_forall]
      intro hl
      exact ⟨0, by omega, by simp [hr]⟩
    | ok v =>
      cases ws with
      | nil =>
        simp only [List.length_nil, Nat.not_lt_zero, IsEmpty.forall_iff, implies_true, and_true]
        cases readRun read (k + 1) n <;> simp
      | cons x rest =>
        have hcons : (match readRun read (k + 1) n with
            | .error e => (.error e : Except ε (List α))
            | .ok ws => .ok (v :: ws)) = .ok (x :: rest) ↔ v = x ∧ readRun read (k + 1) n = .ok rest := by
          cases readRun read (k + 1) n <;> simp
        show (match readRun read (k + 1) n with
            | .error e => (.error e : Except ε (List α))
            | .ok ws => .ok (v :: ws)) = .ok (x :: rest) ↔ _
        rw [hcons, ih]
        simp only [List.length_cons]
        constructor
        · rintro ⟨rfl, hl, h⟩
          refine ⟨by omega, fun j hj => ?_⟩
          cases j with
          | zero => simpa using hr
          | succ j => simpa [Nat.add_comm, Nat.add_left_comm] using h j (by omega)
        · rintro ⟨hl, h⟩
          refine ⟨?_, by omega, fun j hj => ?_⟩
          · have := h 0 (by omega); simp_all
          · have := h (j + 1) (by omega)
            rw [Nat.add_right_comm, Nat.add_assoc]
            exact this

theorem tag_cases (t : BitVec 2) : t = 0 ∨ t = 1 ∨ t = 2 ∨ t = 3 := by
  revert t; decide

/-- What the decoder answers, once and for all: a descriptor with its words, each of which `read` gives at its place. -/
theorem decodeWith_eq_ok {ε : Type} {read : Nat → Except ε Word} {i : Instr} :
    decodeWith read = .ok i ↔
      wordsOf i ≠ 0 ∧ encodable i = true ∧
        ∀ j (h : j < (encodeWords i).length), read j = .ok (encodeWords i)[j] := by
  have hlast : ∀ t : BitVec 2, t ≠ 0 → t ≠ 1 → t ≠ 2 → t = 3 := by decide
  constructor
  · intro h
    simp only [decodeWith] at h
    cases h0 : read 0 with
    | error e => simp [h0] at h
    | ok w0 =>
      simp only [h0] at h
      split at h
      · rename_i ht
        obtain rfl := Except.ok.inj h
        refine ⟨by simp [wordsOf], rfl, fun j hj => ?_⟩
        simp only [encodeWords, List.length_singleton] at hj
        obtain rfl : j = 0 := by omega
        simp [encodeWords, h0, ← ht, word0_tagOf_opaOf]
      · rename_i hn0
        cases h1 : read 1 with
        | error e => simp [h1] at h
        | ok w1 =>
          simp only [h1] at h
          split at h
          · rename_i ht
            obtain rfl := Except.ok.inj h
            refine ⟨by simp [wordsOf], rfl, fun j hj => ?_⟩
            simp only [encodeWords, List.length_cons, List.length_nil] at hj
            rcases j with _ | _ | j
            · simp [encodeWords, h0, ← ht, word0_tagOf_opaOf]
            · simp [encodeWords, h1]
            · omega
          · rename_i hn1
            split at h
            · rename_i ht
              cases hr : readRun read 2 (nfOf w1) with
              | error e => simp [hr] at h
              | ok fs =>
                simp only [hr] at h
                obtain rfl := Except.ok.inj h
                obtain ⟨hl, hf⟩ := readRun_eq_ok.1 hr
                have := nfOf_lt w1
                refine ⟨by simp [wordsOf], by simp [encodable]; omega, fun j hj => ?_⟩
                rcases j with _ | _ | j
                · simp [encodeWords, h0, ← ht, word0_tagOf_opaOf]
                · simp [encodeWords, h1, hl, toneWord1_rsvdOf_nfOf]
                · simp only [encodeWords, List.length_cons] at hj
                  have := hf j (by omega)
                  rw [Nat.add_comm] at this
                  exact this
            · rename_i hn2
              obtain rfl := Except.ok.inj h
              refine ⟨by simp [wordsOf], rfl, fun j hj => ?_⟩
              simp only [encodeWords, List.length_cons, List.length_nil] at hj
              rcases j with _ | _ | j
              · simp [encodeWords, h0, ← hlast _ hn0 hn1 hn2, word0_tagOf_opaOf]
              · simp [encodeWords, h1]
              · omega
  · rintro ⟨hw, he, h⟩
    cases i with
    | silence dur =>
      have h0 := h 0 (by simp [encodeWords])
      simp only [encodeWords, List.getElem_cons_zero] at h0
      simp [decodeWith, h0]
    | tonebytes len base =>
      have h0 := h 0 (by simp [encodeWords])
      have h1 := h 1 (by simp [encodeWords])
      simp only [encodeWords, List.getElem_cons_zero, List.getElem_cons_succ] at h0 h1
      simp [decodeWith, h0, h1]
    | tone dur rsvd freqs =>
      have h0 := h 0 (by simp [encodeWords])
      have h1 := h 1 (by simp [encodeWords])
      simp only [encodeWords, List.getElem_cons_zero, List.getElem_cons_succ] at h0 h1
      simp only [encodable, decide_eq_true_eq] at he
      have hr : readRun read 2 (nfOf (toneWord1 rsvd freqs.length)) = .ok freqs := by
        rw [nfOf_toneWord1 rsvd he]
        refine readRun_eq_ok.2 ⟨rfl, fun j hj => ?_⟩
        have := h (j + 2) (by simp [encodeWords]; omega)
        rw [Nat.add_comm]
        exact this
      simp [decodeWith, h0, h1, hr]
    | audio len base =>
      have h0 := h 0 (by simp [encodeWords])
      have h1 := h 1 (by simp [encodeWords])
      simp only [encodeWords, List.getElem_cons_zero, List.getElem_cons_succ] at h0 h1
      simp [decodeWith, h0, h1]
    | mark => simp [wordsOf] at hw
    | space => simp [wordsOf] at hw
    | attnSingle => simp [wordsOf] at hw
    | attnCombined => simp [wordsOf] at hw

/-- The number of words of an instruction is the number the encoder writes. -/
theorem length_encodeWords (i : Instr) : (encodeWords i).length = wordsOf i := by
  cases i <;> simp [encodeWords, wordsOf]
  omega

end Sys2Proof
end

