-- ==== Sys2Proof/Laws/Fetch.lean ====
section
/-! SUPPORT. What the shared operations of a step can do: emission, the reading of a descriptor, FETCH, RETIRE and the
step of a descriptor, each said once. -/

namespace Sys2Proof.Machine

open Sys2Proof.Safety

/-! Emission. -/

/-- An emission that answers a next state appends its sample and counts it. -/
theorem emitThen_eq_next {v : Sample} {f : State → State} {s t : State} :
    emitThen v f s = .next t ↔ s.outcnt + 1 < 2 ^ 64 ∧ t = f (pushSample v s) := by
  simp only [emitThen]
  split <;> simp_all [eq_comm]

theorem emitThen_of_room {v : Sample} {f : State → State} {s : State} (h : s.outcnt + 1 < 2 ^ 64) :
    emitThen v f s = .next (f (pushSample v s)) := by
  simp only [emitThen, if_pos h]

/-- An emission never faults. -/
theorem emitThen_ne_fault {v : Sample} {f : State → State} {s : State} {r : Fault} : emitThen v f s ≠ .fault r := by
  simp only [emitThen]
  split <;> simp

/-! The reading of a descriptor. -/

/-- A word of the plan is read exactly when it lies in the plan and in PMEM and is written. -/
theorem readPlan_eq_ok {s : State} {a : Nat} {w : Word} :
    readPlan s a = .ok w ↔ a < s.plen.toNat ∧ a < Config.pmemWords ∧ memRead s.pmem a = some w := by
  simp only [readPlan]
  split
  · simp; omega
  · split
    · simp; omega
    · rename_i h1 h2
      have h1 : a < s.plen.toNat := by omega
      have h2 : a < Config.pmemWords := by omega
      cases memRead s.pmem a <;> simp [h1, h2]

/-- A descriptor of the plan: its words stand in PMEM from `p` on, inside the plan. -/
theorem descriptorAt_eq_ok {s : State} {p : Nat} {i : Instr} :
    descriptorAt s p = .ok i ↔
      wordsOf i ≠ 0 ∧ encodable i = true ∧ p + wordsOf i ≤ s.plen.toNat ∧ p + wordsOf i ≤ Config.pmemWords ∧
        ∀ j (h : j < (encodeWords i).length), memRead s.pmem (p + j) = some (encodeWords i)[j] := by
  simp only [descriptorAt, decodeWith_eq_ok, readPlan_eq_ok]
  have hl := length_encodeWords i
  refine and_congr_right fun hw => and_congr_right fun _ => ⟨fun h => ?_, fun h j hj => ?_⟩
  · have := h (wordsOf i - 1) (by omega)
    exact ⟨by omega, by omega, fun j hj => (h j hj).2.2⟩
  · exact ⟨by omega, by omega, h.2.2 j hj⟩

/-- The descriptor at a place depends on PMEM and `PLEN` alone. -/
theorem descriptorAt_congr {s t : State} (p : Nat) (hm : t.pmem = s.pmem) (hp : t.plen = s.plen) :
    descriptorAt t p = descriptorAt s p := by
  simp only [descriptorAt, readPlan, hm, hp]

/-- The checks of a descriptor depend on BMEM and `SRATE` alone. -/
theorem fetchCheck_congr {s t : State} (i : Instr) (hm : t.bmem = s.bmem) (hr : t.srate = s.srate) :
    fetchCheck i t = fetchCheck i s := by
  cases i <;> simp only [fetchCheck, tonebytesCheck, hm, hr]

/-- A TONE passes its checks when its reserved bits are zero and it names one to `NFREQ_MAX` frequencies. -/
theorem toneCheck_eq_none (rsvd : BitVec 28) (freqs : List Word) :
    toneCheck rsvd freqs = none ↔ rsvd = 0 ∧ freqs ≠ [] ∧ freqs.length ≤ Config.nfreqMax := by
  simp only [toneCheck]
  split
  · simp_all
  · split
    · simp_all
    · split <;> simp_all

/-- A TONEBYTES passes its checks when it lies in BMEM and the first byte it reads, if it reads one, is written. -/
theorem tonebytesCheck_eq_none (len base : Nat) (s : State) :
    tonebytesCheck len base s = none ↔
      base + len ≤ Config.bmemBytes ∧ (0 < len → 0 < nbit s.srate.toNat → memRead s.bmem base ≠ none) := by
  simp only [tonebytesCheck]
  split
  · simp; omega
  · split <;> simp_all

/-- An AUDIO passes its check when it lies in AMEM. -/
theorem audioCheck_eq_none (len base : Nat) : audioCheck len base = none ↔ base + len ≤ Config.amemSamples := by
  simp only [audioCheck]
  split <;> simp <;> omega

/-! What FETCH loads. -/

/-- The FETCH part of a descriptor opens its segment, and for a TONEBYTES that has a byte to send loads it. -/
theorem load_cases (i : Instr) (s : State) :
    load i s = s ∨ (∃ n, load i s = openSegment n s) ∨ ∃ n v, load i s = loadByte v (openSegment n s) := by
  cases i with
  | tonebytes len base =>
    simp only [load, loadTonebytes]
    split
    · cases memRead s.bmem base.toNat with
      | none => exact .inr (.inl ⟨_, rfl⟩)
      | some v => exact .inr (.inr ⟨_, v, rfl⟩)
    · exact .inr (.inl ⟨_, rfl⟩)
  | silence dur => exact .inr (.inl ⟨_, rfl⟩)
  | tone dur rsvd freqs => exact .inr (.inl ⟨_, rfl⟩)
  | audio len base => exact .inr (.inl ⟨_, rfl⟩)
  | mark => exact .inl rfl
  | space => exact .inl rfl
  | attnSingle => exact .inl rfl
  | attnCombined => exact .inl rfl

/-- Everything FETCH can do: nothing at the end of the plan, an error, or the load of a checked descriptor. -/
theorem fetch_cases (s : State) :
    (s.pcw = s.plen.toNat ∧ fetch s = s) ∨
    (s.pcw ≠ s.plen.toNat ∧ ∃ e, fetch s = raise e s) ∨
    (s.pcw ≠ s.plen.toNat ∧ ∃ i, descriptorAt s s.pcw = .ok i ∧ fetchCheck i s = none ∧ fetch s = load i s) := by
  by_cases h : s.pcw = s.plen.toNat
  · exact .inl ⟨h, by simp only [fetch, if_pos h]⟩
  · refine .inr ?_
    simp only [fetch, if_neg h]
    cases hd : descriptorAt s s.pcw with
    | error e => exact .inl ⟨h, e, rfl⟩
    | ok i =>
      cases hc : fetchCheck i s with
      | some e => exact .inl ⟨h, e, by simp only [hc]⟩
      | none => exact .inr ⟨h, i, rfl, hc, by simp only [hc]⟩

/-- FETCH of a checked descriptor. -/
theorem fetch_of_descriptor {s : State} {i : Instr} (h : s.pcw ≠ s.plen.toNat) (hd : descriptorAt s s.pcw = .ok i)
    (hc : fetchCheck i s = none) : fetch s = load i s := by
  simp only [fetch, if_neg h, hd, hc]

/-- FETCH changes working registers, or records an error; nothing else. -/
theorem fetch_changes (s : State) :
    fetch s = s ∨ (∃ e, fetch s = raise e s) ∨ (∃ n, fetch s = openSegment n s) ∨
      ∃ n v, fetch s = loadByte v (openSegment n s) := by
  rcases fetch_cases s with ⟨_, h⟩ | ⟨_, e, h⟩ | ⟨_, i, _, _, h⟩
  · exact .inl h
  · exact .inr (.inl ⟨e, h⟩)
  · rw [h]
    rcases load_cases i s with h | h | h
    · exact .inl h
    · exact .inr (.inr (.inl h))
    · exact .inr (.inr (.inr h))

@[simp] theorem fetch_pcw (s : State) : (fetch s).pcw = s.pcw := by
  rcases fetch_changes s with h | ⟨e, h⟩ | ⟨n, h⟩ | ⟨n, v, h⟩ <;> simp [h]
@[simp] theorem fetch_secp (s : State) : (fetch s).secp = s.secp := by
  rcases fetch_changes s with h | ⟨e, h⟩ | ⟨n, h⟩ | ⟨n, v, h⟩ <;> simp [h]
@[simp] theorem fetch_srate (s : State) : (fetch s).srate = s.srate := by
  rcases fetch_changes s with h | ⟨e, h⟩ | ⟨n, h⟩ | ⟨n, v, h⟩ <;> simp [h]
@[simp] theorem fetch_cfg (s : State) : (fetch s).cfg = s.cfg := by
  rcases fetch_changes s with h | ⟨e, h⟩ | ⟨n, h⟩ | ⟨n, v, h⟩ <;> simp [h]
@[simp] theorem fetch_attnDur (s : State) : (fetch s).attnDur = s.attnDur := by
  rcases fetch_changes s with h | ⟨e, h⟩ | ⟨n, h⟩ | ⟨n, v, h⟩ <;> simp [h]
@[simp] theorem fetch_msgBase (s : State) : (fetch s).msgBase = s.msgBase := by
  rcases fetch_changes s with h | ⟨e, h⟩ | ⟨n, h⟩ | ⟨n, v, h⟩ <;> simp [h]
@[simp] theorem fetch_msgLen (s : State) : (fetch s).msgLen = s.msgLen := by
  rcases fetch_changes s with h | ⟨e, h⟩ | ⟨n, h⟩ | ⟨n, v, h⟩ <;> simp [h]
@[simp] theorem fetch_plen (s : State) : (fetch s).plen = s.plen := by
  rcases fetch_changes s with h | ⟨e, h⟩ | ⟨n, h⟩ | ⟨n, v, h⟩ <;> simp [h]
@[simp] theorem fetch_outcnt (s : State) : (fetch s).outcnt = s.outcnt := by
  rcases fetch_changes s with h | ⟨e, h⟩ | ⟨n, h⟩ | ⟨n, v, h⟩ <;> simp [h]
@[simp] theorem fetch_hr (s : State) : (fetch s).hr = s.hr := by
  rcases fetch_changes s with h | ⟨e, h⟩ | ⟨n, h⟩ | ⟨n, v, h⟩ <;> simp [h]
@[simp] theorem fetch_hrWritten (s : State) : (fetch s).hrWritten = s.hrWritten := by
  rcases fetch_changes s with h | ⟨e, h⟩ | ⟨n, h⟩ | ⟨n, v, h⟩ <;> simp [h]
@[simp] theorem fetch_pmem (s : State) : (fetch s).pmem = s.pmem := by
  rcases fetch_changes s with h | ⟨e, h⟩ | ⟨n, h⟩ | ⟨n, v, h⟩ <;> simp [h]
@[simp] theorem fetch_bmem (s : State) : (fetch s).bmem = s.bmem := by
  rcases fetch_changes s with h | ⟨e, h⟩ | ⟨n, h⟩ | ⟨n, v, h⟩ <;> simp [h]
@[simp] theorem fetch_amem (s : State) : (fetch s).amem = s.amem := by
  rcases fetch_changes s with h | ⟨e, h⟩ | ⟨n, h⟩ | ⟨n, v, h⟩ <;> simp [h]
@[simp] theorem fetch_out (s : State) : (fetch s).out = s.out := by
  rcases fetch_changes s with h | ⟨e, h⟩ | ⟨n, h⟩ | ⟨n, v, h⟩ <;> simp [h]
@[simp] theorem fetch_inputs (s : State) : (fetch s).inputs = s.inputs := by
  rcases fetch_changes s with h | ⟨e, h⟩ | ⟨n, h⟩ | ⟨n, v, h⟩ <;> simp [h]

/-! The step of a descriptor. -/

/-- Everything a descriptor's step can do. -/
theorem descriptorStep_cases (i : Instr) (emitOne : State → Host.Outcome State Fault Refusal) (s : State) :
    (∃ e, fetchCheck i s = some e ∧ descriptorStep i emitOne s = .next (raise e s)) ∨
    (fetchCheck i s = none ∧ exhausted i s = true ∧ descriptorStep i emitOne s = .next (retire (wordsOf i) s)) ∨
    (fetchCheck i s = none ∧ exhausted i s = false ∧ descriptorStep i emitOne s = emitOne s) := by
  simp only [descriptorStep]
  cases hc : fetchCheck i s with
  | some e => exact .inl ⟨e, rfl, rfl⟩
  | none =>
    cases he : exhausted i s with
    | true => exact .inr (.inl ⟨rfl, rfl, by simp⟩)
    | false => exact .inr (.inr ⟨rfl, rfl, by simp⟩)

/-! The gate of a TONEBYTES. -/

/-- The gate moves the place in the string and loads the byte and the cycle count of the new place; it touches no other
register. -/
theorem gate_changes (len base : Nat) (s : State) :
    ∃ bytep bitp samp ccur shreg, gate len base s =
      { s with bytep := bytep, bitp := bitp, samp := samp, ccur := ccur, shreg := shreg } := by
  simp only [gate]
  split
  · split
    · simp only [nextByte]
      split
      · cases memRead s.bmem (base + (s.bytep + 1)) <;> exact ⟨_, _, _, _, _, rfl⟩
      · exact ⟨_, _, _, _, _, rfl⟩
    · simp only [nextBit]
      split <;> exact ⟨_, _, _, _, _, rfl⟩
  · exact ⟨_, _, _, _, _, rfl⟩

end Sys2Proof.Machine
end

