-- ==== Sys2Proof/Laws/Operands.lean ====
section
/-! SUPPORT. The operand forms as the rules write them: phases in the rationals, words with their operand, and the size
of a sample in range. -/

namespace Sys2Proof.Machine

/-- The phase of a bit's sample as 40_tone_generator R104 writes it. -/
theorem bitPhase_eq {n : Nat} (c i : Nat) (h : 1 ≤ n) : bitPhase n c i = (i : Rat) * (c : Rat) / ((n : Rat) - 1) := by
  rw [bitPhase, Rat.mkRat_eq_div]
  push_cast [h]
  rfl

/-- The phase of a carrier's sample as 40_tone_generator R115 writes it. -/
theorem carrierPhase_eq (n dur freq i : Nat) :
    carrierPhase n dur freq i = (i : Rat) * ((freq : Rat) / 1000) * ((dur : Rat) / 100000) / (n : Rat) := by
  simp only [carrierPhase, Rat.mkRat_eq_div, Config.unitsPerHertz, Config.ticksPerSecond]
  push_cast
  by_cases h : (n : Rat) = 0
  · simp [h]
  · field_simp
    ring

/-- A sample in range has a value in [-1, 1]. -/
theorem abs_sampleValue_le_one {v : Sample} (h : inUnit v = true) : |sampleValue v| ≤ 1 := by
  have hm : (v.extractLsb' 0 23).toNat < 2 ^ 23 := (v.extractLsb' 0 23).isLt
  have hle : (v.extractLsb' 0 31).toNat ≤ 0x3F800000 := by simpa [inUnit, BitVec.le_def] using h
  have hsplit : (v.extractLsb' 0 31).toNat = 2 ^ 23 * (v.extractLsb' 23 8).toNat + (v.extractLsb' 0 23).toNat := by
    simp only [BitVec.extractLsb'_toNat, Nat.shiftRight_eq_div_pow]
    omega
  have hs : |(if v.getLsbD 31 then -1 else 1 : Rat)| = 1 := by split <;> simp
  simp only [sampleValue]
  generalize (v.extractLsb' 23 8).toNat = e at *
  generalize (v.extractLsb' 0 23).toNat = m at *
  have hm' : (m : Rat) ≤ 2 ^ 23 := by exact_mod_cast hm.le
  split
  · rw [abs_mul, abs_mul, hs, one_mul, abs_of_nonneg (by positivity), abs_of_nonneg (by positivity)]
    calc (m : Rat) * 2 ^ (-149 : Int) ≤ 2 ^ 23 * 2 ^ (-149 : Int) := by gcongr
      _ ≤ 1 := by norm_num
  · rw [abs_mul, abs_mul, hs, one_mul, abs_of_nonneg (by positivity), abs_of_nonneg (by positivity)]
    by_cases he : e ≤ 126
    · calc ((2 ^ 23 + m : Nat) : Rat) * 2 ^ ((e : Int) - 150) ≤ 2 ^ 24 * 2 ^ (-24 : Int) := by
            gcongr
            · push_cast; linarith
            · norm_num
            · omega
        _ ≤ 1 := by norm_num
    · have he' : e = 127 := by omega
      have hm0 : m = 0 := by omega
      subst he' hm0
      norm_num

/-- A sum of samples in range is at most their number. -/
theorem abs_sum_sampleValue_le {vs : List Sample} (h : ∀ v ∈ vs, inUnit v = true) :
    |(vs.map sampleValue).sum| ≤ (vs.length : Rat) := by
  induction vs with
  | nil => simp
  | cons v vs ih =>
    have h1 := abs_sampleValue_le_one (h v List.mem_cons_self)
    have h2 := ih fun w hw => h w (List.mem_cons_of_mem v hw)
    have h3 := abs_add_le (sampleValue v) (vs.map sampleValue).sum
    simp only [List.map_cons, List.sum_cons, List.length_cons]
    push_cast
    linarith

/-- `+0.0` lies in range. -/
theorem inUnit_posZero : inUnit posZero = true := by decide

/-- What is brought into range lies in range. -/
theorem inUnit_intoUnit (v : Sample) : inUnit (intoUnit v) = true := by
  simp only [intoUnit]
  split
  · assumption
  · exact inUnit_posZero

end Sys2Proof.Machine
end

