-- ==== Sys2Proof/Laws/PerInstr.lean ====
section
/-! SUPPORT. The statements made per instruction, one lemma per constructor. -/

namespace Sys2Proof.Laws.WordCount

/-- The encoder writes as many words as the instruction takes (30_encoding R70, R76). -/
def Statement (i : Instr) : Prop := (encodeWords i).length = wordsOf i

theorem silence (dur : BitVec 30) : Statement (.silence dur) := length_encodeWords _
theorem tonebytes (len : BitVec 30) (base : Word) : Statement (.tonebytes len base) := length_encodeWords _
theorem tone (dur : BitVec 30) (rsvd : BitVec 28) (freqs : List Word) : Statement (.tone dur rsvd freqs) :=
  length_encodeWords _
theorem audio (len : BitVec 30) (base : Word) : Statement (.audio len base) := length_encodeWords _
theorem mark : Statement .mark := length_encodeWords _
theorem space : Statement .space := length_encodeWords _
theorem attnSingle : Statement .attnSingle := length_encodeWords _
theorem attnCombined : Statement .attnCombined := length_encodeWords _

end Sys2Proof.Laws.WordCount

namespace Sys2Proof.Laws.WellFormedEncodes

/-- A legal instruction has an encoding (30_encoding R84 against R74). -/
def Statement (i : Instr) : Prop := wellFormed i = true → encodable i = true

theorem silence (dur : BitVec 30) : Statement (.silence dur) := fun _ => rfl
theorem tonebytes (len : BitVec 30) (base : Word) : Statement (.tonebytes len base) := fun _ => rfl
theorem tone (dur : BitVec 30) (rsvd : BitVec 28) (freqs : List Word) : Statement (.tone dur rsvd freqs) := by
  intro h
  have hf := Config.nfreqMax_le
  simp only [wellFormed, freqsFit, Bool.and_eq_true, decide_eq_true_eq] at h
  simp only [encodable, decide_eq_true_eq]
  omega
theorem audio (len : BitVec 30) (base : Word) : Statement (.audio len base) := fun _ => rfl
theorem mark : Statement .mark := fun _ => rfl
theorem space : Statement .space := fun _ => rfl
theorem attnSingle : Statement .attnSingle := fun _ => rfl
theorem attnCombined : Statement .attnCombined := fun _ => rfl

end Sys2Proof.Laws.WellFormedEncodes
end

