-- ==== Sys2Proof/Laws/Plan.lean ====
section
/-! SUPPORT. What the checks of a START, its strings and its plan depend on and say, and START as one of its three
ends. -/

namespace Sys2Proof.Machine

/-! What they depend on. -/

/-- The header string depends on the header registers alone. -/
theorem fmtHeader_congr {s t : State} (h : t.hr = s.hr) : fmtHeader t = fmtHeader s := by
  simp only [fmtHeader, orgOf, evtBytes, locGroup, nlocOf, locBytes, hrAt, purgeBytes, doyOf, hourOf, minOf, callBytes, h]

/-- The plan depends on the header registers and the registers of the warning alone. -/
theorem planInstrs_congr {s t : State} (hr : t.hr = s.hr) (hc : t.cfg = s.cfg) (ha : t.attnDur = s.attnDur)
    (hb : t.msgBase = s.msgBase) (hl : t.msgLen = s.msgLen) : planInstrs t = planInstrs s := by
  have h1 : headerLen t = headerLen s := by simp only [headerLen, nlocOf, hr]
  have h2 : attended t = attended s := by simp only [attended, apol, crit, msgp, hc]
  have h3 : msgp t = msgp s := by simp only [msgp, hc]
  have h4 : preroll t = preroll s := by simp only [preroll, hc]
  have h5 : attnk t = attnk s := by simp only [attnk, hc]
  rw [planInstrs, planInstrs, part1, part1, part2, part2, part3, part3, part4, part4, headerInstr, headerInstr, eomInstr,
    eomInstr, prerollInstr, prerollInstr, messageInstr, messageInstr, attnTone, attnTone, h1, h2, h3, h4, h5, ha, hb, hl]

/-- The checks of a START depend on the header registers, their marks and `ATTN_DUR` alone. -/
theorem warningCheck_congr {s t : State} (hr : t.hr = s.hr) (hw : t.hrWritten = s.hrWritten) (ha : t.attnDur = s.attnDur) :
    warningCheck t = warningCheck s := by
  have h0 : nlocOf t = nlocOf s := by simp only [nlocOf, hr]
  have h1 : hrMark t = hrMark s := by funext n; simp only [hrMark, hw]
  have h2 : orgOf t = orgOf s := by simp only [orgOf, hr]
  have h3 : timeBad t = timeBad s := by rw [timeBad, timeBad, doyOf, doyOf, hourOf, hourOf, minOf, minOf, hr]
  rw [warningCheck, warningCheck, headerCheck, headerCheck, fixedWritten, fixedWritten, locsWritten, locsWritten, attnCheck,
    attnCheck, h0, h1, h2, h3, ha]

@[simp] theorem fmtHeader_openRun (s : State) : fmtHeader (openRun s) = fmtHeader s := fmtHeader_congr rfl
@[simp] theorem fmtHeader_writeStrings (s : State) : fmtHeader (writeStrings s) = fmtHeader s := fmtHeader_congr rfl
@[simp] theorem planInstrs_openRun (s : State) : planInstrs (openRun s) = planInstrs s :=
  planInstrs_congr rfl rfl rfl rfl rfl
@[simp] theorem planInstrs_writeStrings (s : State) : planInstrs (writeStrings s) = planInstrs s :=
  planInstrs_congr rfl rfl rfl rfl rfl
@[simp] theorem warningCheck_openRun (s : State) : warningCheck (openRun s) = warningCheck s :=
  warningCheck_congr rfl rfl rfl
@[simp] theorem modeDirect_openRun (s : State) : modeDirect (openRun s) = modeDirect s := rfl

/-! What the checks say. -/

theorem fixedWritten_eq_true (s : State) : fixedWritten s = true ↔ ∀ n, n < 7 → hrMark s n = true := by
  simp [fixedWritten]

theorem locsWritten_eq_true (s : State) :
    locsWritten s = true ↔ ∀ k, k < nlocOf s → hrMark s (7 + 2 * k) = true ∧ hrMark s (8 + 2 * k) = true := by
  simp [locsWritten]

theorem timeBad_eq_false (s : State) :
    timeBad s = false ↔ 1 ≤ doyOf s ∧ doyOf s ≤ 366 ∧ hourOf s ≤ 23 ∧ minOf s ≤ 59 := by
  simp [timeBad, Nat.one_le_iff_ne_zero, and_assoc]

/-- The header registers pass when each of the five checks does. -/
theorem headerCheck_eq_none (s : State) :
    headerCheck s = none ↔
      fixedWritten s = true ∧ nlocOf s ≤ 31 ∧ locsWritten s = true ∧ orgOf s ≤ 4 ∧ timeBad s = false := by
  have hm : Config.maxLoc = 31 := rfl
  simp only [headerCheck, hm]
  cases fixedWritten s <;> cases locsWritten s <;> cases timeBad s <;>
    by_cases h1 : nlocOf s ≤ 31 <;> by_cases h2 : orgOf s ≤ 4 <;> simp [h1, h2, Nat.not_lt.2, Nat.not_le.1]

/-- An attention duration passes exactly from 8.0 s up to 2^30 - 1 ticks. -/
theorem attnCheck_eq_none (s : State) : attnCheck s = none ↔ 800000 ≤ s.attnDur.toNat ∧ s.attnDur.toNat < 2 ^ 30 := by
  have hm : Config.attnMin = 800000 := rfl
  simp only [attnCheck, hm]
  split
  · simp; omega
  · split
    · simp; omega
    · simp; omega

/-- A START in WARNING mode passes when the header registers and the attention duration do. -/
theorem warningCheck_eq_none (s : State) : warningCheck s = none ↔ headerCheck s = none ∧ attnCheck s = none := by
  simp only [warningCheck]
  cases headerCheck s <;> simp

/-! START. -/

/-- START in DIRECT mode. -/
theorem start_of_direct {s : State} (h : modeDirect s = true) : start s = startPlan (openRun s) := by
  simp only [start, modeDirect_openRun, h, if_true]

/-- START of a warning that fails a check. -/
theorem start_of_warning_error {s : State} {e : ErrCause} (h : modeDirect s = false) (hc : warningCheck s = some e) :
    start s = raise e (openRun s) := by
  simp only [start, modeDirect_openRun, h, warningCheck_openRun, hc, Bool.false_eq_true, if_false]

/-- START of a warning that passes its checks. -/
theorem start_of_warning {s : State} (h : modeDirect s = false) (hc : warningCheck s = none) :
    start s = startPlan (writePlan (writeStrings (openRun s))) := by
  simp only [start, modeDirect_openRun, h, warningCheck_openRun, hc, Bool.false_eq_true, if_false]

end Sys2Proof.Machine
end

