-- ==== Sys2Proof/Laws/Render.lean ====
section
/-! SUPPORT. The functional definition of the output: renders taken apart, and the section a descriptor stands for. -/

namespace Sys2Proof.Machine

@[simp] theorem renderList_nil (sr : Nat) : renderList sr [] = [] := rfl

@[simp] theorem renderList_cons (sr : Nat) (x : Section) (ss : List Section) :
    renderList sr (x :: ss) = render sr x ++ renderList sr ss := rfl

@[simp] theorem renderList_append (sr : Nat) (ss ts : List Section) :
    renderList sr (ss ++ ts) = renderList sr ss ++ renderList sr ts := List.flatMap_append

@[simp] theorem bytesRender_nil (sr : Nat) : bytesRender sr [] = [] := rfl

@[simp] theorem bytesRender_cons (sr : Nat) (v : Byte) (bs : List Byte) :
    bytesRender sr (v :: bs) = byteSeg sr v ++ bytesRender sr bs := rfl

/-- At a rate with no sample a bit no byte string renders a sample (41_bit_modulator R129). -/
theorem bytesRender_of_silent {sr : Nat} (h : nbit sr = 0) (bs : List Byte) : bytesRender sr bs = [] := by
  induction bs with
  | nil => rfl
  | cons v bs ih => simp [ih, byteSeg, bitSeg, single, h]

/-- A TONEBYTES whose bytes are all written stands for the string of them, at every rate. -/
theorem sectionOf_tonebytes_of_written {s : State} {len : BitVec 30} {base : Word} {bs : List Byte}
    (h : memReadMany s.bmem base.toNat len.toNat = some bs) : sectionOf (.tonebytes len base) s = some (.toneBytes bs) := by
  simp only [sectionOf, h]

/-- At a rate with no sample a bit a TONEBYTES stands for a section that renders nothing, whatever is written. -/
theorem sectionOf_tonebytes_of_silent {s : State} (len : BitVec 30) (base : Word) (h : nbit s.srate.toNat = 0) :
    ∃ x, sectionOf (.tonebytes len base) s = some x ∧ render s.srate.toNat x = [] := by
  cases hm : memReadMany s.bmem base.toNat len.toNat with
  | some bs => exact ⟨_, sectionOf_tonebytes_of_written hm, bytesRender_of_silent h bs⟩
  | none => exact ⟨.toneBytes [], by simp only [sectionOf, hm, h, if_true], rfl⟩

/-- A list of descriptors stands for sections exactly when each of them does. -/
theorem sectionsOf_cons_eq_some {i : Instr} {rest : List Instr} {s : State} {ss : List Section} :
    sectionsOf (i :: rest) s = some ss ↔
      ∃ x xs, sectionOf i s = some x ∧ sectionsOf rest s = some xs ∧ ss = x :: xs := by
  rw [sectionsOf]
  cases sectionOf i s with
  | none => simp
  | some x => simp [eq_comm]

end Sys2Proof.Machine
end

