-- ==== Sys2Proof/Laws/Step.lean ====
section
/-! SUPPORT. What a step can do: the cases of the block's step and of the step, and the meaning of each instruction as
the step of its descriptor. -/

namespace Sys2Proof.Machine

open Sys2Proof.Safety

/-- With no access to come the step is the block's. -/
theorem step_of_no_inputs {s : State} (h : s.inputs = []) : step s = blockStep s := by
  simp only [step, h]

/-- After a `hold` the step is the block's. -/
theorem step_of_hold {s : State} {rest : List HostOp} (h : s.inputs = .hold :: rest) :
    step s = blockStep { s with inputs := rest } := by
  simp only [step, h]

/-- Everything a host write to a memory can do: nothing in a run or where there is no element, else the write. -/
theorem hostWriteMem_cases (size a : Nat) (write : State → State) (s : State) :
    ((s.st = .run ∨ size ≤ a) ∧ hostWriteMem size a write s = s) ∨
    (s.st ≠ .run ∧ a < size ∧ hostWriteMem size a write s = write s) := by
  simp only [hostWriteMem]
  split
  · exact .inl ⟨.inl ‹_›, rfl⟩
  · split
    · exact .inr ⟨‹_›, ‹_›, rfl⟩
    · exact .inl ⟨.inr (Nat.not_lt.1 ‹_›), rfl⟩

/-- Any other access is a step of its own. -/
theorem step_of_access {s : State} {op : HostOp} {rest : List HostOp} (h : s.inputs = op :: rest) (hop : op ≠ .hold) :
    step s = .next (hostAccess op { s with inputs := rest }) := by
  cases op <;> first | exact absurd rfl hop | simp only [step, h]

/-- Outside RUN the block does nothing. -/
theorem blockStep_of_not_run {s : State} (h : s.st ≠ .run) : blockStep s = .next s := by
  simp only [blockStep, if_neg h]

/-- At the end of the plan the block finishes. -/
theorem blockStep_of_end {s : State} (h : s.st = .run) (hp : s.pcw = s.plen.toNat) : blockStep s = .next (finish s) := by
  unfold blockStep
  rw [if_pos h, if_pos hp]

/-- Inside the plan the block runs the descriptor at `PCW`. -/
theorem blockStep_of_descriptor {s : State} {i : Instr} (h : s.st = .run) (hp : s.pcw ≠ s.plen.toNat)
    (hd : descriptorAt s s.pcw = .ok i) : blockStep s = exec i s := by
  unfold blockStep
  rw [if_pos h, if_neg hp, hd]

/-- Everything the block's step can do. -/
theorem blockStep_cases (s : State) :
    (s.st ≠ .run ∧ blockStep s = .next s) ∨
    (s.st = .run ∧ s.pcw = s.plen.toNat ∧ blockStep s = .next (finish s)) ∨
    (s.st = .run ∧ s.pcw ≠ s.plen.toNat ∧ ∃ e, descriptorAt s s.pcw = .error e ∧ blockStep s = .next (raise e s)) ∨
    (s.st = .run ∧ s.pcw ≠ s.plen.toNat ∧ ∃ i, descriptorAt s s.pcw = .ok i ∧ blockStep s = exec i s) := by
  by_cases h : s.st = .run
  · by_cases hp : s.pcw = s.plen.toNat
    · exact .inr (.inl ⟨h, hp, blockStep_of_end h hp⟩)
    · refine .inr (.inr ?_)
      cases hd : descriptorAt s s.pcw with
      | error e =>
        refine .inl ⟨h, hp, e, rfl, ?_⟩
        unfold blockStep
        rw [if_pos h, if_neg hp, hd]
      | ok i => exact .inr ⟨h, hp, i, rfl, blockStep_of_descriptor h hp hd⟩
  · exact .inl ⟨h, blockStep_of_not_run h⟩

/-- What one EMIT of a descriptor is. -/
def emitOf : Instr → State → Host.Outcome State Fault Refusal
  | .silence _ => emitSilence
  | .tonebytes len base => emitTonebytes len.toNat base.toNat
  | .tone dur _ freqs => emitTone dur.toNat freqs
  | .audio _ base => emitAudio base.toNat
  | .mark => execMark
  | .space => execSpace
  | .attnSingle => execAttnSingle
  | .attnCombined => execAttnCombined

/-- The meaning of a descriptor is its step. -/
theorem exec_descriptor {i : Instr} (hw : wordsOf i ≠ 0) (s : State) : exec i s = descriptorStep i (emitOf i) s := by
  cases i <;> first | rfl | exact absurd rfl hw

/-- Everything the meaning of a descriptor can do: an error its FETCH part reports, RETIRE, or one EMIT. -/
theorem exec_descriptor_cases {i : Instr} (hw : wordsOf i ≠ 0) (s : State) :
    (∃ e, fetchCheck i s = some e ∧ exec i s = .next (raise e s)) ∨
    (fetchCheck i s = none ∧ exhausted i s = true ∧ exec i s = .next (retire (wordsOf i) s)) ∨
    (fetchCheck i s = none ∧ exhausted i s = false ∧ exec i s = emitOf i s) := by
  rw [exec_descriptor hw]
  exact descriptorStep_cases i (emitOf i) s

/-- EMIT of a TONEBYTES at the first sample of an unwritten byte. -/
theorem emitTonebytes_of_unreadable {len base : Nat} {s : State} (h1 : s.samp = 0) (h2 : s.bitp = 0)
    (hm : memRead s.bmem (base + s.bytep) = none) : emitTonebytes len base s = .next (raise .uninit s) := by
  simp [emitTonebytes, startsByte, h1, h2, hm]

/-- EMIT of a TONEBYTES anywhere else: the sample of the current bit, then the gate. -/
theorem emitTonebytes_of_readable {len base : Nat} {s : State}
    (h : s.samp = 0 → s.bitp = 0 → memRead s.bmem (base + s.bytep) ≠ none) :
    emitTonebytes len base s = emitThen (bitSample s.ncur s.ccur.toNat s.samp) (gate len base) s := by
  have h' : ¬ (startsByte s = true ∧ memRead s.bmem (base + s.bytep) = none) := by
    simp only [startsByte, Bool.and_eq_true, beq_iff_eq]
    exact fun hs => h hs.1.1 hs.1.2 hs.2
  simp only [emitTonebytes, if_neg h']

/-- Everything one EMIT can do: an error `E_UNINIT`, or an emission that then moves inside the segment. -/
theorem emitOf_cases {i : Instr} (hw : wordsOf i ≠ 0) (s : State) :
    emitOf i s = .next (raise .uninit s) ∨
    ((∀ len base, i ≠ .tonebytes len base) ∧ ∃ v, emitOf i s = emitThen v nextSample s) ∨
    (∃ len base v, i = .tonebytes len base ∧ emitOf i s = emitThen v (gate len.toNat base.toNat) s) := by
  cases i with
  | silence dur => exact .inr (.inl ⟨by simp, _, rfl⟩)
  | tone dur rsvd freqs => exact .inr (.inl ⟨by simp, _, rfl⟩)
  | audio len base =>
    simp only [emitOf, emitAudio]
    cases memRead s.amem (base.toNat + s.samp) with
    | none => exact .inl rfl
    | some v => exact .inr (.inl ⟨by simp, v, rfl⟩)
  | tonebytes len base =>
    simp only [emitOf, emitTonebytes]
    split
    · exact .inl rfl
    · exact .inr (.inr ⟨len, base, _, rfl, rfl⟩)
  | mark => exact absurd rfl hw
  | space => exact absurd rfl hw
  | attnSingle => exact absurd rfl hw
  | attnCombined => exact absurd rfl hw

/-- A step of a symbol does nothing or emits one sample. -/
theorem emitSymbol_cases (c : BitVec 3) (s : State) :
    emitSymbol c s = .next s ∨ ∃ v, emitSymbol c s = emitThen v nextSample s := by
  simp only [emitSymbol]
  split
  · exact .inr ⟨_, rfl⟩
  · exact .inl rfl

/-- An attention kind records an error or extends the plan by its descriptor. -/
theorem attnConstruct_cases (combined : Bool) (s : State) :
    (∃ e, attnConstruct combined s = .next (raise e s)) ∨
    (attnCheck s = none ∧ noRoom (wordsOf (attnTone combined s)) s = false ∧
      attnConstruct combined s = .next (appendPlan (encodeWords (attnTone combined s)) s)) := by
  simp only [attnConstruct]
  cases hc : attnCheck s with
  | some e => exact .inl ⟨e, rfl⟩
  | none =>
    cases hr : noRoom (wordsOf (attnTone combined s)) s with
    | true => exact .inl ⟨.bounds, by simp⟩
    | false => exact .inr ⟨rfl, rfl, by simp⟩

/-- Everything the meaning of a descriptor or a symbol can do when it answers: an error, RETIRE, nothing (a symbol that
is over), or one sample and a move inside the segment. -/
theorem exec_cases {i : Instr} {s t : State} (h1 : i ≠ .attnSingle) (h2 : i ≠ .attnCombined) (h : exec i s = .next t) :
    (∃ e, t = raise e s) ∨ (wordsOf i ≠ 0 ∧ t = retire (wordsOf i) s) ∨ (wordsOf i = 0 ∧ t = s) ∨
    (∃ v, s.outcnt + 1 < 2 ^ 64 ∧ t = nextSample (pushSample v s)) ∨
    ∃ len base v, s.outcnt + 1 < 2 ^ 64 ∧ i = .tonebytes len base ∧ t = gate len.toNat base.toNat (pushSample v s) := by
  by_cases hw : wordsOf i = 0
  · have hsym : ∃ c, exec i s = emitSymbol c s := by
      cases i with
      | mark => exact ⟨_, rfl⟩
      | space => exact ⟨_, rfl⟩
      | attnSingle => exact absurd rfl h1
      | attnCombined => exact absurd rfl h2
      | _ => simp [wordsOf] at hw
    obtain ⟨c, hc⟩ := hsym
    rcases emitSymbol_cases c s with he | ⟨v, he⟩ <;> rw [hc, he] at h
    · exact .inr (.inr (.inl ⟨hw, (Host.Outcome.next.inj h).symm⟩))
    · exact .inr (.inr (.inr (.inl ⟨v, emitThen_eq_next.1 h⟩)))
  · rcases exec_descriptor_cases hw s with ⟨e, _, he⟩ | ⟨_, _, he⟩ | ⟨_, _, he⟩ <;> rw [he] at h
    · exact .inl ⟨e, (Host.Outcome.next.inj h).symm⟩
    · exact .inr (.inl ⟨hw, (Host.Outcome.next.inj h).symm⟩)
    · rcases emitOf_cases hw s with he | ⟨_, v, he⟩ | ⟨len, base, v, hi, he⟩ <;> rw [he] at h
      · exact .inl ⟨_, (Host.Outcome.next.inj h).symm⟩
      · exact .inr (.inr (.inr (.inl ⟨v, emitThen_eq_next.1 h⟩)))
      · obtain ⟨hr, ht⟩ := emitThen_eq_next.1 h
        exact .inr (.inr (.inr (.inr ⟨len, base, v, hr, hi, ht⟩)))

/-- What FETCH loads for a checked descriptor is a place in it: its first sample. -/
theorem loaded_of_load {i : Instr} {s : State} (hw : wordsOf i ≠ 0) (hb : BetweenDescriptors s)
    (hc : fetchCheck i s = none) : Loaded i (load i s) := by
  obtain ⟨h1, h2, h3, h4, h5, h6⟩ := hb
  cases i with
  | silence dur => exact ⟨rfl, Nat.zero_le _, rfl, rfl, h5, h6⟩
  | tone dur rsvd freqs => exact ⟨rfl, Nat.zero_le _, rfl, rfl, h5, h6⟩
  | audio len base => exact ⟨rfl, Nat.zero_le _, rfl, rfl, h5, h6⟩
  | tonebytes len base =>
    obtain ⟨_, hm⟩ := (tonebytesCheck_eq_none _ _ _).1 hc
    simp only [Loaded, load, loadTonebytes]
    split
    · rename_i h
      cases hv : memRead s.bmem base.toNat with
      | none => exact absurd hv (hm h.1 h.2)
      | some v => constructor <;> simp_all [sym]
    · constructor <;> simp_all [sym]
      omega
  | mark => simp [wordsOf] at hw
  | space => simp [wordsOf] at hw
  | attnSingle => simp [wordsOf] at hw
  | attnCombined => simp [wordsOf] at hw

end Sys2Proof.Machine
end

