-- ==== Sys2Proof/Laws/Run.lean ====
section
/-! SUPPORT. Runs of many steps: how a run is taken apart, and what it does once it has ended. -/

namespace Sys2Proof.Machine

open Sys2Proof.Safety

@[simp] theorem runSteps_zero (s : State) : runSteps 0 s = .next s := rfl

/-- A run goes on from what its first step answers. -/
theorem runSteps_of_next (k : Nat) {s t : State} (h : step s = .next t) : runSteps (k + 1) s = runSteps k t := by
  have key : ∀ (M : Host.Core) (s t : M.State), M.step s = .next t → M.run (k + 1) s = M.run k t := by
    intro M s t h
    rw [Host.Core.run, h]
  exact key Sys2Proof.core s t h

/-- A run stops where its first step faults. -/
theorem runSteps_of_fault (k : Nat) {s : State} {r : Fault} (h : step s = .fault r) : runSteps (k + 1) s = .fault r := by
  have key : ∀ (M : Host.Core) (s : M.State) (r : M.Fault), M.step s = .fault r → M.run (k + 1) s = .fault r := by
    intro M s r h
    rw [Host.Core.run, h]
  exact key Sys2Proof.core s r h

/-- A run stops where its first step is refused. -/
theorem runSteps_of_refused (k : Nat) {s : State} {r : Refusal} (h : step s = .refused r) :
    runSteps (k + 1) s = .refused r := by
  have key : ∀ (M : Host.Core) (s : M.State) (r : M.Refusal), M.step s = .refused r → M.run (k + 1) s = .refused r := by
    intro M s r h
    rw [Host.Core.run, h]
  exact key Sys2Proof.core s r h

/-- A run that answers after `j + k` steps answers after `j`, and its second part is a run from there. -/
theorem runSteps_add {j : Nat} (k : Nat) {s t : State} (h : runSteps j s = .next t) :
    runSteps (j + k) s = runSteps k t := by
  induction j generalizing s with
  | zero => obtain rfl := Host.Outcome.next.inj h; rw [Nat.zero_add]
  | succ j ih =>
    rw [Nat.succ_add]
    cases hs : step s with
    | next u =>
      rw [runSteps_of_next _ hs] at h ⊢
      exact ih h
    | fault r => rw [runSteps_of_fault _ hs] at h; cases h
    | refused r => rw [runSteps_of_refused _ hs] at h; cases h

/-- One more step at the end of a run. -/
theorem runSteps_succ_end {k : Nat} {s t : State} (h : runSteps k s = .next t) : runSteps (k + 1) s = step t := by
  rw [runSteps_add 1 h]
  cases hs : step t with
  | next u => rw [runSteps_of_next 0 hs]; rfl
  | fault r => exact runSteps_of_fault 0 hs
  | refused r => exact runSteps_of_refused 0 hs

/-- Outside RUN and with no access to come, a run stays where it is. -/
theorem runSteps_of_rest (k : Nat) {s : State} (h : s.st ≠ .run) (hi : s.inputs = []) : runSteps k s = .next s := by
  induction k with
  | zero => rfl
  | succ k ih => rw [runSteps_of_next k (t := s) (by rw [step_of_no_inputs hi, blockStep_of_not_run h]), ih]

@[simp] theorem repeatExec_zero (i : Instr) (s : State) : repeatExec i 0 s = .next s := rfl

/-- A repeated meaning goes on from what the first one answers. -/
theorem repeatExec_of_next (i : Instr) (k : Nat) {s t : State} (h : exec i s = .next t) :
    repeatExec i (k + 1) s = repeatExec i k t := by
  simp only [repeatExec, h]

end Sys2Proof.Machine
end

