-- ==== Sys2Proof/Tests/Slice0.lean ====
section
/-! SUPPORT. Tests: ill-formed terms, words written out from the spec's encodings, the spec's own vectors
(95_test_vectors), and for each statement with hypotheses a state that meets them. -/

namespace Sys2Proof.Tests

set_option Elab.async false

open Sys2Proof.Machine Sys2Proof.Safety

/-- The next state of an outcome that has one, so that `decide` can compare outcomes. -/
def nextOf (o : Host.Outcome State Fault Refusal) : Option State :=
  match o with
  | .next t => some t
  | .fault _ => none
  | .refused _ => none

/-- From a decided outcome to the next state a statement asks for. -/
theorem exists_next {α : Type} {o : Host.Outcome State Fault Refusal} (f : State → α) {a : α}
    (h : (nextOf o).map f = some a) : ∃ t, o = .next t ∧ f t = a := by
  cases o with
  | next t => exact ⟨t, rfl, by simpa [nextOf] using h⟩
  | fault r => simp [nextOf] at h
  | refused r => simp [nextOf] at h

/-! ## WellFormed refuses -/

/-- Reserved bit 4 of word 1 set (30_encoding R84). -/
theorem test_wf_refuses_reserved : wellFormed (.tone 100 1 [1050000]) = false := by decide
/-- No frequency (30_encoding R84). -/
theorem test_wf_refuses_no_frequency : wellFormed (.tone 100 0 []) = false := by decide
/-- More frequencies than any `NFREQ_MAX` (30_encoding R84). -/
theorem test_wf_refuses_many_frequencies : wellFormed (.tone 100 0 (List.replicate 16 0)) = false := by
  have := Config.nfreqMax_le
  simp only [wellFormed, freqsFit, List.length_replicate, Bool.and_eq_false_iff, decide_eq_false_iff_not]
  omega
/-- One frequency and two pass at every `NFREQ_MAX`. -/
theorem test_wf_accepts_attention :
    wellFormed (.tone 800000 0 Config.fSingle) = true ∧ wellFormed (.tone 800000 0 Config.fComb) = true := by
  have := Config.le_nfreqMax
  have h1 : Config.fSingle.length = 1 := rfl
  have h2 : Config.fComb.length = 2 := rfl
  simp only [wellFormed, freqsFit, hasFreq, rsvdClear, h1, h2, Bool.and_eq_true, decide_eq_true_eq]
  exact ⟨⟨⟨rfl, by omega⟩, by omega⟩, ⟨⟨rfl, by omega⟩, by omega⟩⟩

/-! ## Decoding: words written out bit by bit -/

/-- Tag 00, `DUR` = 2^30 - 1 (30_encoding R72; V27). -/
theorem test_decode_silence :
    decode [0b00111111111111111111111111111111] = .ok (.silence 1073741823, []) := by decide +kernel
/-- Tag 01, `LEN` = 20, `BASE` = 58 (30_encoding R73; V27). -/
theorem test_decode_tonebytes :
    decode [0b01000000000000000000000000010100, 0b00000000000000000000000000111010] = .ok (.tonebytes 20 58, []) := by
  decide +kernel
/-- Tag 10, `DUR` = 50000, `NF` = 2, 2.0 Hz and 4.0 Hz, and a word that belongs to the next descriptor (30_encoding R74;
V12). -/
theorem test_decode_tone :
    decode [0b10000000000000001100001101010000, 0b00000000000000000000000000000010, 2000, 4000, 7] =
      .ok (.tone 50000 0 [2000, 4000], [7]) := by decide +kernel
/-- Bit 4 of word 1 is the lowest reserved bit, bit 31 the highest (30_encoding R74; V27). -/
theorem test_decode_tone_reserved :
    decode [0x80000064, 0x80000011, 9] = .ok (.tone 100 0x8000001 [9], []) := by decide +kernel
/-- Tag 11, `LEN` = 220500, `BASE` = 2^31 (30_encoding R75; V27). -/
theorem test_decode_audio :
    decode [0b11000000000000110101110101010100, 0b10000000000000000000000000000000] =
      .ok (.audio 220500 0x80000000, []) := by decide +kernel
/-- A descriptor that lacks a word is refused by the number of that word (30_encoding R76). -/
theorem test_decode_truncated :
    decode [] = .error (.truncated 0) ∧ decode [0xC0000000] = .error (.truncated 1) ∧
    decode [0x80000064, 2, 7] = .error (.truncated 3) := by decide +kernel
/-- 0x41 sends Mark, five times Space, Mark, Space (V5). -/
theorem test_decode_symbols :
    (List.range 8).map (fun k => decodeSymbol (sym 0x41 k)) =
      [.mark, .space, .space, .space, .space, .space, .mark, .space] := by decide
/-- `CFG.ATTNK` (30_encoding R82). -/
theorem test_decode_attention : decodeAttn false = .attnSingle ∧ decodeAttn true = .attnCombined := by decide

/-- Table words: the tags alone, all operand words zero. -/
theorem test_table_words :
    decodeTableWord 32 0x00000064 = some (.silence 100) ∧ decodeTableWord 32 0x40000001 = some (.tonebytes 1 0) ∧
    decodeTableWord 64 0x0000000180000064 = some (.tone 100 0 [0]) ∧
    decodeTableWord 32 0xC0000000 = some (.audio 0 0) ∧
    decodeTableWord 8 1 = some .mark ∧ decodeTableWord 8 0 = some .space := by decide +kernel

/-! ## The spec's vectors -/

/-- V1, rows 5, 10, 11 and the last two. -/
theorem test_ncount :
    ncount 44100 192 = 84 ∧ ncount 10 50000 = 5 ∧ ncount 10 55000 = 5 ∧ ncount 99999 1 = 0 ∧ ncount 100000 1 = 1 := by
  decide
/-- V2, the rows at the edges. -/
theorem test_nbit :
    nbit 520 = 0 ∧ nbit 521 = 1 ∧ nbit 1041 = 1 ∧ nbit 1042 = 2 ∧ nbit 1562 = 2 ∧ nbit 1563 = 3 ∧ nbit 48000 = 92 := by
  decide
/-- V9: `Single(0, 4)`, `Single(1, 4)` and `Single(4, 0)`. -/
theorem test_single_degenerate :
    single 0 4 = [] ∧ single 1 4 = [0] ∧ single 4 0 = [0, 0, 0, 0] := by
  simp [single, toneSample, posZero, List.range_succ]
/-- V14: at 8000 Hz, `TONE 0.001, 0.0, 0.0` is eight `+0.0`. -/
theorem test_multi_zero_frequency : multi 8000 100 [0, 0] = List.replicate 8 0 := by
  have h : ncount 8000 100 = 8 := rfl
  simp [multi, h, single, toneSample, mix, posZero, List.range_succ]
/-- V18. -/
theorem test_time7 :
    time7 1 0 0 = [0x30, 0x30, 0x31, 0x30, 0x30, 0x30, 0x30] ∧ time7 32 15 7 = [0x30, 0x33, 0x32, 0x31, 0x35, 0x30, 0x37] ∧
    time7 366 23 59 = [0x33, 0x36, 0x36, 0x32, 0x33, 0x35, 0x39] := by decide
/-- V22: the words of both kinds at `ATTN_DUR` = 800000, word 0 at 2500000. -/
theorem test_attention_words :
    encodeWords (attnTone false { State.reset with attnDur := 800000 }) = [0x800C3500, 0x00000001, 0x00100590] ∧
    encodeWords (attnTone true { State.reset with attnDur := 2500000 }) =
      [0x802625A0, 0x00000002, 0x000D0408, 0x000EA600] := by decide +kernel

/-- The registers of V16 with an attention duration of 8.0 s: a warning whose checks pass, rate 0, no message. -/
def warning : State := { State.reset with
  attnDur := 800000
  hr := (((((((((State.reset.hr.set 0 0x00000001).set 1 0x00545752).set 2 0x00000001).set 3 0x35313030).set 4
    0x00200F07).set 5 0x46414457).set 6 0x204D462F).set 7 0x31383430).set 8 0x00003030)
  hrWritten := Vector.ofFn fun n : Fin 69 => decide (n.val < 9) }

/-- V16, all 58 bytes. -/
theorem test_header_bytes : fmtHeader warning =
    [0xAB, 0xAB, 0xAB, 0xAB, 0xAB, 0xAB, 0xAB, 0xAB, 0xAB, 0xAB, 0xAB, 0xAB, 0xAB, 0xAB, 0xAB, 0xAB,
     0x5A, 0x43, 0x5A, 0x43, 0x2D, 0x43, 0x49, 0x56, 0x2D, 0x52, 0x57, 0x54, 0x2D, 0x30, 0x34, 0x38, 0x31, 0x30, 0x30,
     0x2B, 0x30, 0x30, 0x31, 0x35, 0x2D, 0x30, 0x33, 0x32, 0x31, 0x35, 0x30, 0x37, 0x2D, 0x57, 0x44, 0x41, 0x46, 0x2F,
     0x46, 0x4D, 0x20, 0x2D] := by decide +kernel
/-- V17: `KXYZ-FM ` is sent as `KXYZ\FM `. -/
theorem test_callsign :
    call8 [0x4B, 0x58, 0x59, 0x5A, 0x2D, 0x46, 0x4D, 0x20] = [0x4B, 0x58, 0x59, 0x5A, 0x5C, 0x46, 0x4D, 0x20] := by decide
/-- V26, rows 1, 4, 6 to 10 and the last check before the plan. -/
theorem test_warning_checks :
    warningCheck warning = none ∧
    warningCheck { warning with hr := warning.hr.set 2 32 } = some .locCount ∧
    warningCheck { warning with attnDur := 799999 } = some .attnDur ∧
    warningCheck { warning with hr := warning.hr.set 0 5 } = some .org ∧
    warningCheck { warning with hr := warning.hr.set 4 0x00000F07 } = some .time ∧
    warningCheck { warning with hr := (warning.hr.set 0 5).set 4 0x00000F07 } = some .org ∧
    warningCheck { warning with hrWritten := warning.hrWritten.set 6 false } = some .uninit ∧
    warningCheck { warning with hr := warning.hr.set 2 2 } = some .uninit ∧
    warningCheck { warning with attnDur := 0x40000000 } = some .rsvd := by decide +kernel
/-- V25, `PLEN` of the eight rows (`ATTNK` = 0), `CFG` as in 10_state R30: `CRIT` 1, `MSGP` 2, `APOL` 8. -/
theorem test_plan_sizes :
    ([0, 2, 1, 3, 8, 10, 9, 11].map fun c => (packInstrs (planInstrs { warning with cfg := c })).length) =
      [18, 21, 18, 26, 23, 26, 23, 26] := by decide +kernel
/-- `STATUS` at the end of P1 and after an error (95_test_vectors P1, 10_state R28). -/
theorem test_status :
    statusWord { State.reset with st := .done } = 0x0000000A ∧ statusWord { State.reset with st := .error } = 0x00000013 := by
  decide
/-- V26: `ERRINFO` of `E_BOUNDS` in section 9. -/
theorem test_errinfo : (raise .bounds { State.reset with secp := 9 }).errinfo = 0x00000098 := by decide
/-- 44_section_sequencer R202 at a rate without samples: the plan that START stores is still `Plan(w)`, byte for byte. -/
theorem test_plan_sections_at_low_rate :
    planSections (start { warning with srate := 520 }) = some (warningPlan { warning with srate := 520 } []) := by
  decide +kernel
/-- V28: after reset, a DIRECT START with `CFG` = 0x20 runs the empty plan. -/
theorem test_empty_run :
    (start { State.reset with cfg := 0x20 }).st = .run ∧
    nextOf (blockStep (start { State.reset with cfg := 0x20 })) =
      some { start { State.reset with cfg := 0x20 } with st := .done } := by
  decide +kernel

/-! ## The instructions, one step each -/

/-- A run at the first descriptor of a plan of one descriptor, at 3125 Hz (`NBIT` = 6), bytes 0x41 0x00 in BMEM, a
signalling pattern in AMEM. -/
def planOf (i : Instr) : State := { State.reset with
  st := .run
  srate := 3125
  plen := BitVec.ofNat 32 (wordsOf i)
  pmem := memWriteMany [] 0 (encodeWords i)
  bmem := [(0, 0x41), (1, 0x00)]
  amem := [(0, 0x7FC00001)]
  attnDur := 800000 }

/-- V23: a SILENCE emits bit pattern 0. -/
theorem test_silence_emits :
    nextOf (execSilence 64 { planOf (.silence 64) with ncur := 2 }) =
      some { planOf (.silence 64) with ncur := 2, samp := 1, out := [0x00000000], outcnt := 1 } := by decide +kernel
/-- V23: `SILENCE 0.0` emits nothing and is retired. -/
theorem test_silence_retires :
    nextOf (execSilence 0 (planOf (.silence 0))) = some { planOf (.silence 0) with pcw := 1, secp := 1 } := by
  decide +kernel
/-- V24: an AUDIO of no samples reads nothing and is retired, with AMEM unwritten too. -/
theorem test_audio_retires :
    nextOf (execAudio 0 0 { planOf (.audio 0 0) with amem := [] }) =
      some { planOf (.audio 0 0) with amem := [], pcw := 2, secp := 1 } := by decide +kernel
/-- V24: a NaN pattern is copied (the descriptor's size is OPEN, so this is its EMIT part). -/
theorem test_audio_copies :
    nextOf (emitAudio 0 { planOf (.audio 1 0) with ncur := 1 }) =
      some { planOf (.audio 1 0) with ncur := 1, samp := 1, out := [0x7FC00001], outcnt := 1 } := by decide +kernel
/-- V27: `NF` = 0 is `E_NOFREQ`, the reserved bit goes first (60_exceptions R211: codes 3 and 5). -/
theorem test_tone_errors :
    nextOf (execTone 100 0 [] (planOf (.tone 100 0 []))) =
      some { planOf (.tone 100 0 []) with st := .error, errinfo := 3 } ∧
    nextOf (execTone 100 1 [] (planOf (.tone 100 1 []))) =
      some { planOf (.tone 100 1 []) with st := .error, errinfo := 5 } := by
  decide +kernel
/-- V12 and P0: the first sample of a TONE is `+0.0`. -/
theorem test_tone_first_sample : toneMix 5 50000 [2000, 4000] 0 = 0 := by
  simp [toneMix, carrierPhase, toneSample, mix, posZero]
/-- V6: byte 0x41 at 3125 Hz, `NCUR` = 6, first bit Mark; the first sample is `+0.0`. -/
theorem test_tonebytes_fetch :
    fetch (planOf (.tonebytes 2 0)) = { planOf (.tonebytes 2 0) with ncur := 6, ccur := 4, shreg := 0x41 } := by
  decide +kernel
/-- V8: a bit of one sample is `+0.0`, and after bit 7 the next byte is loaded (0x00: Space). -/
theorem test_tonebytes_next_byte :
    nextOf (emitTonebytes 2 0
      { planOf (.tonebytes 2 0) with srate := 521, ncur := 1, bitp := 7, ccur := 3, shreg := 0x41 }) =
      some { planOf (.tonebytes 2 0) with
        srate := 521, ncur := 1, bitp := 0, bytep := 1, ccur := 3, shreg := 0x00, out := [0], outcnt := 1 } := by
  decide +kernel
/-- 60_exceptions R215: the last sample of the byte before an unwritten one is emitted, and the EMIT that starts the
unwritten byte raises (code 9) with nothing emitted. -/
theorem test_tonebytes_unreadable_byte :
    let s : State := { planOf (.tonebytes 3 0) with srate := 521, ncur := 1, bytep := 1, bitp := 7, ccur := 3 }
    let t : State := { s with bytep := 2, bitp := 0, out := [0], outcnt := 1 }
    nextOf (emitTonebytes 3 0 s) = some t ∧
    nextOf (emitTonebytes 3 0 t) = some { t with st := .error, errinfo := 9 } := by decide +kernel
/-- V8: at 520 Hz a bit has no sample, at 521 Hz it is one `+0.0`. -/
theorem test_mark :
    nextOf (execMark { State.reset with srate := 520 }) = some { State.reset with srate := 520 } ∧
    nextOf (execMark { State.reset with srate := 521 }) =
      some { State.reset with srate := 521, out := [0], outcnt := 1, samp := 1 } := by decide +kernel
/-- V8, as for MARK. -/
theorem test_space :
    nextOf (execSpace { State.reset with srate := 520 }) = some { State.reset with srate := 520 } ∧
    nextOf (execSpace { State.reset with srate := 521 }) =
      some { State.reset with srate := 521, out := [0], outcnt := 1, samp := 1 } := by decide +kernel
/-- V22 at `PLEN` = 0. -/
theorem test_attn_single :
    nextOf (execAttnSingle { State.reset with attnDur := 800000 }) = some { State.reset with
      attnDur := 800000, plen := 3, pmem := [(0, 0x800C3500), (1, 0x00000001), (2, 0x00100590)] } := by decide +kernel
/-- V22 at `PLEN` = 0, and V21, row 3: 799999 is `E_ATTNDUR` (60_exceptions R211: code 2). -/
theorem test_attn_combined :
    nextOf (execAttnCombined { State.reset with attnDur := 800000 }) = some { State.reset with
      attnDur := 800000, plen := 4,
      pmem := [(0, 0x800C3500), (1, 0x00000002), (2, 0x000D0408), (3, 0x000EA600)] } ∧
    nextOf (execAttnCombined { State.reset with attnDur := 799999 }) =
      some { State.reset with attnDur := 799999, st := .error, errinfo := 2 } := by decide +kernel

/-- What `withFetchWord` places is what the next step runs: one sample of a Mark, and an illegal TONE's error. -/
theorem test_with_fetch_word :
    nextOf (step (State.reset.withFetchWord 8 1)) =
      some { State.reset.withFetchWord 8 1 with out := [0], outcnt := 1, samp := 1 } ∧
    (State.reset.withFetchWord 8 1).ccur = 4 ∧ (State.reset.withFetchWord 8 0).ccur = 3 ∧
    nextOf (step (State.reset.withFetchWord 32 0x80000000)) =
      some { State.reset.withFetchWord 32 0x80000000 with st := .error, errinfo := 3 } := by decide +kernel

/-! ## Witnesses: for each statement with hypotheses, states and operands that meet them -/

/-- The largest descriptor: 15 frequencies, every field all ones. -/
theorem test_witness_DecodeOfEncodeIsTheInstruction :
    encodable (.tone 0x3FFFFFFF 0xFFFFFFF (List.replicate 15 0xFFFFFFFF)) = true ∧
    wordsOf (.tone 0x3FFFFFFF 0xFFFFFFF (List.replicate 15 0xFFFFFFFF)) ≠ 0 ∧ encodable .mark = true := by decide

theorem test_witness_EncodeOfDecodeIsTheWords : decode [0xC0000003, 4, 7] = .ok (.audio 3 4, [7]) := by decide +kernel

/-- One first word per tag, and the 16 words a TONE can need after it. -/
theorem test_witness_EveryWordBeginsADescriptor :
    16 ≤ (List.replicate 16 (0 : Word)).length ∧ (0x3FFFFFFF#32).extractLsb' 30 2 = 0#2 ∧
    (0x40000000#32).extractLsb' 30 2 = 1#2 ∧ (0x80000000#32).extractLsb' 30 2 = 2#2 ∧
    (0xFFFFFFFF#32).extractLsb' 30 2 = 3#2 := by decide

theorem test_witness_PackedPlanDecodesToItsDescriptors :
    ∀ i ∈ [Instr.silence 1, .tonebytes 1 0, .tone 1 0 [1, 2], .audio 3 4], encodable i = true ∧ wordsOf i ≠ 0 := by decide

/-- The only descriptor of its plan, at the plan's end, with and without a `hold` in front. -/
theorem test_witness_StepRunsTheDecodedDescriptor :
    let s := planOf (.tonebytes 2 0)
    s.st = .run ∧ s.plen.toNat ≤ Config.pmemWords ∧ s.pcw + [0x40000002#32, 0#32].length ≤ s.plen.toNat ∧
    memReadMany s.pmem s.pcw 2 = some [0x40000002, 0] ∧ decode [0x40000002, 0] = .ok (.tonebytes 2 0, []) ∧
    s.inputs = [] ∧ ({ s with inputs := [.hold] } : State).inputs = .hold :: [] := by
  refine ⟨rfl, ?_, by decide, by decide +kernel, by decide +kernel, rfl, rfl⟩
  exact le_trans (by decide : (planOf (.tonebytes 2 0)).plen.toNat ≤ 64) Config.le_pmemWords

theorem test_witness_FinishEndsTheRunAndNothingFollows :
    (planOf (.silence 1)).inputs = [] ∧ (planOf (.silence 1)).st = .run ∧
    ({ planOf (.silence 1) with pcw := 1 } : State).pcw = (planOf (.silence 1)).plen.toNat ∧ State.reset.st ≠ .run := by
  decide

/-- A SILENCE of no sample, a TONEBYTES after its last byte, a TONEBYTES at a rate without samples. -/
theorem test_witness_ExhaustedDescriptorRetires :
    (wordsOf (.silence 0) ≠ 0 ∧ fetchCheck (.silence 0) (planOf (.silence 0)) = none ∧
      exhausted (.silence 0) (planOf (.silence 0)) = true) ∧
    (wordsOf (.tonebytes 2 0) ≠ 0 ∧ fetchCheck (.tonebytes 2 0) (planOf (.tonebytes 2 0)) = none ∧
      exhausted (.tonebytes 2 0) { planOf (.tonebytes 2 0) with ncur := 6, bytep := 2 } = true) ∧
    exhausted (.tonebytes 2 0) { planOf (.tonebytes 2 0) with ncur := 0 } = true := by decide +kernel

/-- Every descriptor; a TONE of two frequencies, which every `NFREQ_MAX` allows; a TONEBYTES over all the bytes every
BMEM has, one of no byte, one at 520 Hz; an AUDIO of no sample, which every AMEM has. -/
theorem test_witness_FetchLoadsTheSegment :
    (planOf (.silence 64)).pcw ≠ (planOf (.silence 64)).plen.toNat ∧
    descriptorAt (planOf (.silence 64)) 0 = .ok (.silence 64) ∧
    descriptorAt (planOf (.tone 1 0 [1, 2])) 0 = .ok (.tone 1 0 [1, 2]) ∧ [1#32, 2#32].length ≤ Config.nfreqMax ∧
    descriptorAt (planOf (.audio 0 0)) 0 = .ok (.audio 0 0) ∧ (0#32).toNat + (0#30).toNat ≤ Config.amemSamples ∧
    descriptorAt (planOf (.tonebytes 288 0)) 0 = .ok (.tonebytes 288 0) ∧
    (0#32).toNat + (288#30).toNat ≤ Config.bmemBytes ∧ (288#30 : BitVec 30) ≠ 0 ∧
    (planOf (.tonebytes 288 0)).srate.toNat * 192 / 100000 ≠ 0 ∧
    memRead (planOf (.tonebytes 288 0)).bmem (0#32).toNat = some 0x41 ∧
    descriptorAt (planOf (.tonebytes 0 0)) 0 = .ok (.tonebytes 0 0) ∧
    ({ planOf (.tonebytes 1 0) with srate := 520 } : State).srate.toNat * 192 / 100000 = 0 := by
  refine ⟨by decide, by decide +kernel, by decide +kernel, Config.le_nfreqMax, by decide +kernel, Nat.zero_le _,
    by decide +kernel, Config.le_bmemBytes, by decide, by decide, rfl, by decide +kernel, by decide⟩

/-- A TONEBYTES whose second word lies past `PLEN`, or is unwritten. -/
theorem test_witness_FetchReportsTheFirstError_words :
    let s : State := { planOf (.tonebytes 2 0) with plen := 1 }
    let t : State := { planOf (.tonebytes 2 0) with pmem := [(0, 0x40000002)] }
    (s.pcw ≠ s.plen.toNat ∧ s.plen.toNat ≤ Config.pmemWords ∧ encodable (.tonebytes 2 0) = true ∧
      1 < wordsOf (.tonebytes 2 0) ∧
      (∀ k, k < 1 → s.pcw + k < s.plen.toNat ∧ memRead s.pmem (s.pcw + k) = (encodeWords (.tonebytes 2 0))[k]?) ∧
      s.plen.toNat ≤ s.pcw + 1) ∧
    (t.plen.toNat ≤ Config.pmemWords ∧ t.pcw + 1 < t.plen.toNat ∧ memRead t.pmem (t.pcw + 1) = none) := by
  have h := Config.le_pmemWords
  refine ⟨⟨by decide, le_trans (by decide) h, rfl, by decide, fun k hk => ?_, by decide⟩, le_trans (by decide) h,
    by decide, rfl⟩
  obtain rfl : k = 0 := by omega
  decide +kernel

/-- A TONE with a reserved bit, one with no frequency, one with 15 where `NFREQ_MAX` is less; a run of 2 elements from
2^32 - 1, which no memory has; a first byte that is unwritten. -/
theorem test_witness_FetchReportsTheFirstError_checks :
    descriptorAt (planOf (.tone 1 1 [])) 0 = .ok (.tone 1 1 []) ∧
    descriptorAt (planOf (.tone 1 0 [])) 0 = .ok (.tone 1 0 []) ∧
    descriptorAt (planOf (.tone 1 0 (List.replicate 15 9))) 0 = .ok (.tone 1 0 (List.replicate 15 9)) ∧
    (Config.nfreqMax < 15 → Config.nfreqMax < (List.replicate 15 (9 : Word)).length) ∧
    descriptorAt (planOf (.tonebytes 2 0xFFFFFFFF)) 0 = .ok (.tonebytes 2 0xFFFFFFFF) ∧
    Config.bmemBytes < (0xFFFFFFFF#32).toNat + (2#30).toNat ∧
    descriptorAt (planOf (.audio 2 0xFFFFFFFF)) 0 = .ok (.audio 2 0xFFFFFFFF) ∧
    Config.amemSamples < (0xFFFFFFFF#32).toNat + (2#30).toNat ∧
    descriptorAt (planOf (.tonebytes 1 2)) 0 = .ok (.tonebytes 1 2) ∧ (2#32).toNat + (1#30).toNat ≤ Config.bmemBytes ∧
    nbit (planOf (.tonebytes 1 2)).srate.toNat ≠ 0 ∧ memRead (planOf (.tonebytes 1 2)).bmem 2 = none := by
  have hb := Config.bmemBytes_le
  have ha := Config.amemSamples_le
  have hb' := Config.le_bmemBytes
  have e1 : (0xFFFFFFFF#32).toNat + (2#30).toNat = 2 ^ 32 + 1 := rfl
  have e2 : (2#32).toNat + (1#30).toNat = 3 := rfl
  refine ⟨by decide +kernel, by decide +kernel, by decide +kernel, fun h => by simpa using h, by decide +kernel, by omega,
    by decide +kernel, by omega, by decide +kernel, by omega, by decide, rfl⟩

/-- The last sample a run can count. -/
theorem test_witness_SilenceEmitsPositiveZero :
    let s : State := { planOf (.silence 64) with ncur := 2, outcnt := 2 ^ 64 - 2 }
    s.samp ≠ s.ncur ∧ s.outcnt + 1 < 2 ^ 64 := by decide

theorem test_witness_SilenceRendersItsDuration :
    let s : State := { planOf (.silence 64) with ncur := 2 }
    s.samp = 0 ∧ s.ncur = s.srate.toNat * (64#30).toNat / 100000 ∧ s.outcnt + 2 < 2 ^ 64 := by decide

/-- An AUDIO of no sample always fits; one of one sample fits as soon as AMEM has one. -/
theorem test_witness_AudioCopiesTheSample :
    let s : State := { planOf (.audio 0 0) with ncur := 1 }
    (0#32).toNat + (0#30).toNat ≤ Config.amemSamples ∧ s.samp ≠ s.ncur ∧ s.outcnt + 1 < 2 ^ 64 ∧
    memRead s.amem ((0#32).toNat + s.samp) = some 0x7FC00001 ∧
    (1 ≤ Config.amemSamples → (0#32).toNat + (1#30).toNat ≤ Config.amemSamples) :=
  ⟨Nat.zero_le _, by decide, by decide, rfl, fun h => h⟩

theorem test_witness_ToneEmitsTheMixedCarriers :
    let s : State := { planOf (.tone 64 0 [1, 2]) with ncur := 2 }
    [1#32, 2#32] ≠ [] ∧ [1#32, 2#32].length ≤ Config.nfreqMax ∧ s.samp ≠ s.ncur ∧ s.outcnt + 1 < 2 ^ 64 :=
  ⟨by decide, Config.le_nfreqMax, by decide, by decide⟩

theorem test_witness_DescriptorErrorsInOrder :
    let s := planOf (.silence 64)
    Config.nfreqMax < (List.replicate 16 (9 : Word)).length ∧
    Config.bmemBytes < (0xFFFFFFFF#32).toNat + (2#30).toNat ∧
    ((2#32).toNat + (1#30).toNat ≤ Config.bmemBytes ∧ nbit s.srate.toNat ≠ 0 ∧ memRead s.bmem (2#32).toNat = none) ∧
    Config.amemSamples < (0xFFFFFFFF#32).toNat + (2#30).toNat ∧
    ((0#32).toNat + (0#30).toNat ≤ Config.amemSamples ∧ ({ s with ncur := 1, amem := [] } : State).samp ≠ 1 ∧
      memRead ({ s with ncur := 1, amem := [] } : State).amem ((0#32).toNat + s.samp) = none) := by
  have hb := Config.bmemBytes_le
  have ha := Config.amemSamples_le
  have hb' := Config.le_bmemBytes
  have hn := Config.nfreqMax_le
  have e1 : (0xFFFFFFFF#32).toNat + (2#30).toNat = 2 ^ 32 + 1 := rfl
  have e2 : (2#32).toNat + (1#30).toNat = 3 := rfl
  refine ⟨by rw [List.length_replicate]; omega, by omega, ⟨by omega, by decide, rfl⟩, by omega, Nat.zero_le _, by decide,
    rfl⟩

/-- A sample in the bit, the last of a bit, the last of the string, the last of a byte with a written and with an
unwritten byte after it, and the first of an unwritten byte. -/
theorem test_witness_TonebytesEmitsTheBitSampleAndGates :
    let s : State := { planOf (.tonebytes 2 0) with ncur := 6, ccur := 4, shreg := 0x41 }
    let last : State := { s with samp := 5 }
    let unreadable := fun s : State => s.samp = 0 ∧ s.bitp = 0 ∧ memRead s.bmem ((0#32).toNat + s.bytep) = none
    ((0#32).toNat + (3#30).toNat ≤ Config.bmemBytes ∧ memRead s.bmem (0#32).toNat ≠ none ∧ s.ncur ≠ 0 ∧
      s.bytep < (2#30).toNat ∧ s.outcnt + 1 < 2 ^ 64) ∧
    (¬ unreadable s ∧ s.samp + 1 ≠ s.ncur) ∧ (¬ unreadable last ∧ last.samp + 1 = last.ncur ∧ last.bitp ≠ 7) ∧
    (({ s with bytep := 2 } : State).bytep < (3#30).toNat ∧ unreadable { s with bytep := 2 }) ∧
    ({ last with bitp := 7, bytep := 1 } : State).bytep + 1 = (2#30).toNat ∧
    (({ last with bitp := 7 } : State).bytep + 1 < (2#30).toNat ∧
      memRead last.bmem ((0#32).toNat + (last.bytep + 1)) = some 0) ∧
    (({ last with bitp := 7, bytep := 1 } : State).bytep + 1 < (3#30).toNat ∧
      memRead last.bmem ((0#32).toNat + (1 + 1)) = none) := by
  have e : (0#32).toNat + (3#30).toNat = 3 := rfl
  have hb' := Config.le_bmemBytes
  refine ⟨⟨by omega, by decide, by decide, by decide, by decide⟩, by decide +kernel, by decide +kernel, by decide +kernel,
    by decide, by decide, by decide⟩

/-- The first sample of a bit, and a bit that is over. -/
theorem test_witness_MarkAndSpaceEmitTheBitSample :
    let s := planOf (.silence 1)
    s.samp < s.srate.toNat * 192 / 100000 ∧ s.outcnt + 1 < 2 ^ 64 ∧
    s.srate.toNat * 192 / 100000 ≤ ({ s with samp := 6 } : State).samp := by decide

theorem test_witness_MarkAndSpaceRenderBitSegments :
    (planOf (.silence 1)).samp = 0 ∧ (planOf (.silence 1)).outcnt + nbit (planOf (.silence 1)).srate.toNat < 2 ^ 64 := by
  decide

/-- The first sample of a string of two bytes. -/
theorem test_witness_TonebytesEmitsItsSymbol :
    let s : State := { planOf (.tonebytes 2 0) with ncur := 6, ccur := 4, shreg := 0x41 }
    ByteSegment (2#30).toNat (0#32).toNat s ∧ s.ncur ≠ 0 ∧ s.bytep < (2#30).toNat ∧ s.st ≠ .error ∧
    ∃ t, exec (.tonebytes 2 0) s = .next t ∧ t.st = s.st :=
  ⟨⟨by decide, by decide, by decide, by decide, by decide, by decide +kernel⟩, by decide, by decide,
    by decide, exists_next (·.st) (by decide +kernel)⟩

/-- The shortest duration, and the plan at the end of the smallest PMEM. -/
theorem test_witness_AttentionKindExtendsThePlan :
    let s : State := { State.reset with attnDur := 800000, plen := 60 }
    800000 ≤ s.attnDur.toNat ∧ s.attnDur.toNat < 2 ^ 30 ∧ s.plen.toNat + 3 ≤ Config.pmemWords ∧
    s.plen.toNat + 4 ≤ Config.pmemWords ∧ s.plen.toNat + 4 < 2 ^ 32 ∧
    ({ s with attnDur := 1073741823 } : State).attnDur.toNat < 2 ^ 30 := by
  have h := Config.le_pmemWords
  have e : ({ State.reset with attnDur := 800000, plen := 60 } : State).plen.toNat = 60 := rfl
  exact ⟨by decide, by decide, by omega, by omega, by decide, by decide⟩

theorem test_witness_AttentionKindsRefuseBadDurations :
    ({ State.reset with attnDur := 799999 } : State).attnDur.toNat < 800000 ∧
    2 ^ 30 ≤ ({ State.reset with attnDur := 0x40000000 } : State).attnDur.toNat := by decide

/-- An EMIT of a SILENCE, and a retired one. -/
theorem test_witness_SoundingInstructionsFrame :
    (∃ t, exec (.silence 64) { planOf (.silence 64) with ncur := 2 } = .next t ∧ t.out = [0]) ∧
    ∃ t, exec (.silence 0) (planOf (.silence 0)) = .next t ∧ t.out = [] := ⟨⟨_, rfl, rfl⟩, _, rfl, rfl⟩

/-- An EMIT of a symbol and of a TONEBYTES. -/
theorem test_witness_EmitFrame :
    (∃ t, exec .mark (planOf (.silence 1)) = .next t ∧ t.out = (planOf (.silence 1)).out ++ [0]) ∧
    ∃ t, exec (.tonebytes 1 0) { planOf (.tonebytes 1 0) with ncur := 6, ccur := 4, shreg := 0x41 } = .next t ∧
      t.out = (planOf (.tonebytes 1 0)).out ++ [0] :=
  ⟨exists_next (·.out) (by decide +kernel), exists_next (·.out) (by decide +kernel)⟩

theorem test_witness_AttentionFrame :
    (∃ t, exec (decodeAttn true) (planOf (.silence 1)) = .next t) ∧ ∃ t, exec (decodeAttn false) State.reset = .next t :=
  ⟨⟨_, rfl⟩, _, rfl⟩

theorem test_witness_PositionOnlyMovesForward :
    wordsOf (.silence 0) ≠ 0 ∧ ∃ t, exec (.silence 0) (planOf (.silence 0)) = .next t := ⟨by decide, _, rfl⟩

/-- START, CLEAR, both, neither; in every run state a clause names. -/
theorem test_witness_CtrlWritesStartAndClear :
    (3#32).getLsbD 1 = true ∧ (1#32).getLsbD 1 = false ∧ (1#32).getLsbD 0 = true ∧ (0#32).getLsbD 1 = false ∧
    (0#32).getLsbD 0 = false ∧ State.reset.st = .idle ∧ (planOf (.silence 1)).st = .run ∧
    (finish State.reset).st = .done ∧ (raise .org State.reset).st = .error := by decide

/-- A plan of the smallest PMEM's size; one of 2^32 - 1 words where PMEM is smaller. -/
theorem test_witness_DirectStartFetchesThePlan :
    let s : State := { State.reset with cfg := 0x20, plen := 64 }
    modeDirect s = true ∧ s.plen.toNat ≤ Config.pmemWords ∧
    (Config.pmemWords < 2 ^ 32 - 1 → Config.pmemWords < ({ s with plen := 0xFFFFFFFF } : State).plen.toNat) :=
  ⟨rfl, Config.le_pmemWords, fun h => h⟩

/-- One state for each of the seven checks, at the edge of what it accepts. -/
theorem test_witness_WarningStartChecksInOrder :
    let fixed := fun s : State => ∀ n, n < 7 → hrMark s n = true
    let locs := fun s : State => ∀ k, k < nlocOf s → hrMark s (7 + 2 * k) = true ∧ hrMark s (8 + 2 * k) = true
    let timeOk := fun s : State => 1 ≤ doyOf s ∧ doyOf s ≤ 366 ∧ hourOf s ≤ 23 ∧ minOf s ≤ 59
    let noHr6 : State := { warning with hrWritten := warning.hrWritten.set 6 false }
    let many : State := { warning with hr := warning.hr.set 2 32 }
    let noLoc : State := { warning with hr := warning.hr.set 2 2 }
    let badOrg : State := { warning with hr := warning.hr.set 0 5 }
    let badTime : State := { warning with hr := (warning.hr.set 0 4).set 4 0x016F173B }
    let short : State := { warning with hr := (warning.hr.set 0 4).set 4 0x016E173B, attnDur := 799999 }
    modeDirect warning = false ∧ ¬ fixed noHr6 ∧ (fixed many ∧ 31 < nlocOf many) ∧
    (fixed noLoc ∧ nlocOf noLoc ≤ 31 ∧ ¬ locs noLoc) ∧ (fixed badOrg ∧ nlocOf badOrg ≤ 31 ∧ locs badOrg ∧ 4 < orgOf badOrg) ∧
    (locs badTime ∧ orgOf badTime ≤ 4 ∧ ¬ timeOk badTime) ∧
    (fixed short ∧ nlocOf short ≤ 31 ∧ locs short ∧ orgOf short ≤ 4 ∧ timeOk short ∧ short.attnDur.toNat < 800000) ∧
    2 ^ 30 ≤ ({ short with attnDur := 0x40000000 } : State).attnDur.toNat := by decide +kernel

/-- A DIRECT plan at 521 Hz of a string whose second byte is unwritten. -/
def unreadablePlan : State := { planOf (.tonebytes 3 1) with st := .idle, srate := 521, cfg := 0x20 }

/-- A START that fails a check, and a run that emits the eight samples of its first byte and then meets an unwritten
one. -/
theorem test_witness_OutputAfterAnErrorIsTheRenderSoFar :
    (modeDirect State.reset = false ∧ warningCheck State.reset = some .uninit ∧ (start State.reset).st = .error) ∧
    unreadablePlan.inputs = [] ∧ unreadablePlan.st = .idle ∧ (start unreadablePlan).st = .run ∧
    ∃ t, runSteps 9 (start unreadablePlan) = .next t ∧
      (t.st, t.out, t.errinfo) = (.error, [0, 0, 0, 0, 0, 0, 0, 0], 9) :=
  ⟨by decide +kernel, rfl, rfl, by decide +kernel, exists_next (fun t => (t.st, t.out, t.errinfo)) (by decide +kernel)⟩

/-- The shortest and the longest plan, the longest message length. -/
theorem test_witness_WarningStartStoresStringsAndPlan :
    modeDirect warning = false ∧ warningCheck warning = none ∧ warning.msgLen.toNat < 2 ^ 30 ∧
    modeDirect { warning with cfg := 0x1F } = false ∧ warningCheck { warning with cfg := 0x1F } = none ∧
    ({ warning with msgLen := 0x3FFFFFFF } : State).msgLen.toNat < 2 ^ 30 := by decide +kernel

/-- A write, START and CLEAR during a run, and a reset. -/
theorem test_witness_RunLocksOutTheHost :
    let ops : List HostOp := [.writeCr 2 8000, .writeCr 0 3, .writeBmem 0xFFFFFFFF 1]
    let s : State := { planOf (.silence 64) with inputs := ops ++ [.reset] }
    s.st = .run ∧ (∀ op ∈ ops, op ≠ .hold ∧ op ≠ .reset) ∧ s.inputs = ops ++ [.reset] ∧
    ({ s with inputs := [.reset] } : State).inputs = .reset :: [] := by decide

theorem test_witness_StatusReadsAsTheRunState :
    State.reset.st = .idle ∧ (planOf (.silence 1)).st = .run ∧ (finish State.reset).st = .done ∧
    (raise .org State.reset).st = .error := by decide

theorem test_witness_ControlRegistersReadBack :
    ({ State.reset with outcnt := 2 ^ 64 - 1 } : State).st ≠ .run ∧
    ({ State.reset with outcnt := 2 ^ 64 - 1 } : State).outcnt < 2 ^ 64 ∧ (8 : Fin 16).val = 8 ∧ 11 ≤ (15 : Fin 16).val := by
  decide

theorem test_witness_HeaderRegistersReadBack : State.reset.st ≠ .run ∧ (68 : Fin 69) ≠ 0 := by decide

/-- Every field of CFG, ERRINFO and the header registers, read at its own bits (10_state R30, R35, R37). -/
theorem test_register_fields :
    ([1, 2, 4, 8, 16, 32].map fun c : Word =>
      let s : State := { State.reset with cfg := c }
      [crit s, msgp s, attnk s, apol s, preroll s, modeDirect s]) =
      (List.range 6).map (fun k => (List.range 6).map (· == k)) ∧
    (orgOf warning, nlocOf warning, doyOf warning, hourOf warning, minOf warning) = (1, 1, 32, 15, 7) ∧
    callBytes warning = [0x57, 0x44, 0x41, 0x46, 0x2F, 0x46, 0x4D, 0x20] ∧
    hostReadCr 10 (raise .bounds { State.reset with secp := 9 }) = 0x00000098 := by decide +kernel

/-- The last elements every PMEM and BMEM has, the first of AMEM where it has one; the first element a memory lacks
where it has fewer than 2^32. -/
theorem test_witness_HostWritesMemory :
    State.reset.st ≠ .run ∧ (63#32).toNat < Config.pmemWords ∧ (287#32).toNat < Config.bmemBytes ∧
    (0 < Config.amemSamples → (0#32).toNat < Config.amemSamples) ∧
    (Config.pmemWords < 2 ^ 32 → Config.pmemWords ≤ (0xFFFFFFFF#32).toNat) ∧
    (Config.bmemBytes < 2 ^ 32 → Config.bmemBytes ≤ (0xFFFFFFFF#32).toNat) ∧
    (Config.amemSamples < 2 ^ 32 → Config.amemSamples ≤ (0xFFFFFFFF#32).toNat) := by
  have hp := Config.le_pmemWords
  have hb := Config.le_bmemBytes
  have e1 : (63#32).toNat = 63 := rfl
  have e2 : (287#32).toNat = 287 := rfl
  have e3 : (0xFFFFFFFF#32).toNat = 2 ^ 32 - 1 := rfl
  have e4 : (0#32).toNat = 0 := rfl
  exact ⟨by decide, by omega, by omega, fun h => by omega, by omega, by omega, by omega⟩

theorem test_witness_HeaderLength :
    orgOf { warning with hr := (warning.hr.set 0 4).set 2 31 } ≤ 4 ∧
    nlocOf { warning with hr := (warning.hr.set 0 4).set 2 31 } = 31 := by decide +kernel

/-- Every originator, and the first and the last location code. -/
theorem test_witness_HeaderFollowsTheGrammar :
    ([0, 1, 2, 3, 4].map fun v => orgOf { warning with hr := warning.hr.set 0 v }) = [0, 1, 2, 3, 4] ∧
    0 < nlocOf warning ∧ warning.hr[7 + 2 * 0]? = some 0x31383430 ∧ warning.hr[8 + 2 * 0]? = some 0x00003030 ∧
    30 < nlocOf { warning with hr := warning.hr.set 2 31 } ∧ warning.hr[7 + 2 * 30]? = some 0 ∧
    warning.hr[8 + 2 * 30]? = some 0 := by decide +kernel

theorem test_witness_TimeDigitsReadBack : (999 : Nat) < 1000 ∧ (99 : Nat) < 100 := by decide

/-- A dash and another byte. -/
theorem test_witness_CallsignDashesAreReplaced :
    (callBytes { warning with hr := warning.hr.set 6 0x204D462D })[4]? = some 0x2D ∧
    (callBytes warning)[7]? = some 0x20 := by decide +kernel

theorem test_witness_NumericsHaveTheirProperties :
    [(0 : Sample), 0] ≠ [] ∧ (∀ v ∈ [(0 : Sample), 0], v = 0x00000000#32) ∧
    (∀ v ∈ [0x3F800000#32, 0xBF800000#32], inUnit v = true) :=
  ⟨by simp, by simp, List.all_eq_true.1 (by decide +kernel)⟩

/-- Every tone generator is accurate to within 2, since samples and sines lie in [-1, 1]. -/
theorem sineAccurate_two : SineAccurate 2 := by
  intro p _
  have hu : inUnit (toneSample p) = true := by
    simp only [toneSample]
    split
    · exact inUnit_posZero
    · exact inUnit_intoUnit _
  have h1 : |((sampleValue (toneSample p) : Rat) : ℝ)| ≤ 1 := by exact_mod_cast abs_sampleValue_le_one hu
  have h2 := Real.abs_sin_le_one (2 * Real.pi * (p : ℝ))
  rw [abs_le] at *
  constructor <;> linarith

/-- Every mixer is accurate to within 2, since its result and the mean lie in [-1, 1]. -/
theorem mixAccurate_two : MixAccurate 2 := by
  intro vs hne hall
  have hvs : ∀ v ∈ vs, inUnit v = true := List.all_eq_true.1 hall
  have hu : inUnit (mix vs) = true := by
    match vs with
    | [] => exact absurd rfl hne
    | [v] => exact hvs v List.mem_cons_self
    | v :: w :: rest =>
      simp only [mix, hall, if_true]
      split
      · exact inUnit_posZero
      · exact inUnit_intoUnit _
  have h1 : |sampleValue (mix vs)| ≤ 1 := abs_sampleValue_le_one hu
  have h2 : |(vs.map sampleValue).sum / (vs.length : Rat)| ≤ 1 := by
    rw [abs_div, Nat.abs_cast]
    exact div_le_one_of_le₀ (abs_sum_sampleValue_le hvs) (Nat.cast_nonneg _)
  have h3 := abs_sub (sampleValue (mix vs)) ((vs.map sampleValue).sum / (vs.length : Rat))
  have h4 : |sampleValue (mix vs) - (vs.map sampleValue).sum / (vs.length : Rat)| ≤ 2 := by linarith
  exact_mod_cast h4

/-- Two accurate numerics, and the two carriers of the attention tone. -/
theorem test_witness_CarriersAreTheMeanOfTheirSines :
    SineAccurate 2 ∧ MixAccurate 2 ∧ Config.fComb ≠ [] ∧ Config.fComb.length ≤ Config.nfreqMax :=
  ⟨sineAccurate_two, mixAccurate_two, by decide, Config.le_nfreqMax⟩

theorem test_witness_SingleForm : (2 : Nat) ≤ 2 ∧ (1 : Nat) < 2 ∧ (0 : Sample) ∈ single 1 4 := by
  simp [single, posZero]

theorem test_witness_MultiForm : [(2 : Rat)] ≠ [] ∧ 4 < ncount 10 50000 ∧ 1 ≤ ncount 10 50000 := by decide +kernel

theorem test_witness_WarningLength :
    orgOf { warning with msgLen := 2 } ≤ 4 ∧ [(0 : Sample), 1].length = ({ warning with msgLen := 2 } : State).msgLen.toNat := by
  decide +kernel

/-- A run that has fetched a SILENCE of two samples. -/
def running : State := { planOf (.silence 64) with ncur := 2, attnDur := 0, amem := [] }

theorem running_inv : MachineInv running where
  memory := by
    have hp := Config.le_pmemWords
    have hb := Config.le_bmemBytes
    refine ⟨by decide +kernel, by decide, by decide, fun x hx => ?_, fun x hx => ?_, fun x hx => by cases hx⟩
    · have : x.1 < 64 := (by decide +kernel : ∀ x ∈ running.pmem, x.1 < 64) x hx
      omega
    · have : x.1 < 288 := (by decide +kernel : ∀ x ∈ running.bmem, x.1 < 288) x hx
      omega
  reserved := ⟨by decide, by decide, by decide +kernel⟩
  counted := rfl
  bounded := by decide
  idle := by simp [running, planOf]
  run := fun _ => ⟨{
    fits := le_trans (by decide : running.plen.toNat ≤ 64) Config.le_pmemWords
    inside := by decide
    ordinal := by decide
    fetched := .inr ⟨.silence 64, by decide +kernel, rfl, ⟨by decide, by decide, rfl, rfl, rfl, rfl⟩⟩ }, rfl⟩
  done := by simp [running, planOf]
  error := by simp [running, planOf]

/-- In a run, and at reset with a host write to come. -/
theorem test_witness_StepKeepsTheMachineInvariant :
    MachineInv running ∧ ∃ t, step running = .next t ∧ t.out = [0] :=
  ⟨running_inv, exists_next (·.out) (by decide +kernel)⟩

theorem test_witness_WorkingRegistersNeverWrap : MachineInv running ∧ running.st = .run := ⟨running_inv, rfl⟩

theorem test_witness_RunningBlockNeverStalls :
    MachineInv running ∧ running.st = .run ∧ running.inputs = [] ∧ running.outcnt + 1 < 2 ^ 64 :=
  ⟨running_inv, rfl, rfl, by decide⟩

theorem test_witness_OutputStaysInRange :
    let s : State := { running with out := [0x3F800000], outcnt := 1, amem := [(0, 0xBF800000)] }
    (∀ v ∈ s.out, inUnit v = true) ∧ (∀ a v, memRead s.amem a = some v → inUnit v = true) ∧
    ∃ t, blockStep s = .next t ∧ t.out = [0x3F800000, 0] := by
  refine ⟨List.all_eq_true.1 (by decide +kernel), fun a v h => ?_, exists_next (·.out) (by decide +kernel)⟩
  have : (a, v) ∈ [(0, 0xBF800000#32)] := mem_of_memRead h
  obtain ⟨-, rfl⟩ := Prod.mk.inj (List.mem_singleton.1 this)
  decide +kernel

/-- A plan of all four descriptors, one byte among them. -/
def mixedPlan : State := { State.reset with
  srate := 3125
  cfg := 0x20
  plen := 8
  pmem := memWriteMany [] 0 [0x00000064, 0x80000064, 0x00000001, 0x000007D0, 0x40000001, 0x00000000, 0xC0000000, 0x00000000]
  bmem := [(0, 0xAB)] }

theorem test_witness_DirectRunRendersThePlan :
    let is : List Instr := [.silence 100, .tone 100 0 [2000], .tonebytes 1 0, .audio 0 0]
    let ss : List Section := [.silence 100, .tone 100 [2000], .toneBytes [0xAB], .audio []]
    mixedPlan.inputs = [] ∧ mixedPlan.st = .idle ∧ modeDirect mixedPlan = true ∧ mixedPlan.plen.toNat ≤ Config.pmemWords ∧
    planDescriptors mixedPlan = some is ∧ (∀ i ∈ is, fetchCheck i mixedPlan = none) ∧ sectionsOf is mixedPlan = some ss ∧
    (renderList mixedPlan.srate.toNat ss).length < 2 ^ 64 := by
  refine ⟨rfl, rfl, by decide, le_trans (by decide : mixedPlan.plen.toNat ≤ 64) Config.le_pmemWords, by decide +kernel, ?_,
    by decide +kernel, by decide +kernel⟩
  have hn := Config.le_nfreqMax
  have hb := Config.le_bmemBytes
  simp only [List.mem_cons, List.not_mem_nil, or_false, forall_eq_or_imp, forall_eq]
  refine ⟨rfl, (toneCheck_eq_none _ _).2 ⟨rfl, by simp, by simp only [List.length_singleton]; omega⟩,
    (tonebytesCheck_eq_none _ _ _).2 ⟨?_, fun _ _ => by decide⟩, (audioCheck_eq_none _ _).2 (Nat.zero_le _)⟩
  exact le_trans (by decide : (0#32).toNat + (1#30).toNat ≤ 288) hb

/-- The empty plan never errs (V28). -/
theorem test_witness_RunWithoutErrorRendersThePlan :
    let s : State := { State.reset with cfg := 0x20 }
    s.inputs = [] ∧ s.st = .idle ∧
    ∀ k, ∃ t, runSteps k (hostWriteCr 0 1 s) = .next t ∧ t.st ≠ .error := by
  refine ⟨rfl, rfl, fun k => ?_⟩
  cases k with
  | zero => exact ⟨_, rfl, by decide +kernel⟩
  | succ k =>
    obtain ⟨t, ht, hp⟩ := exists_next (o := step (hostWriteCr 0 1 { State.reset with cfg := 0x20 }))
      (fun t => (t.st, t.inputs)) (a := (.done, [])) (by decide +kernel)
    obtain ⟨hs, hi⟩ := Prod.mk.inj hp
    rw [runSteps_of_next k ht, runSteps_of_rest k (by simp [hs]) hi]
    exact ⟨t, rfl, by simp [hs]⟩

/-- A warning at rate 0: twelve sections retired, then FINISH. -/
theorem test_witness_RunWithoutErrorRendersThePlan_warning :
    warning.inputs = [] ∧ warning.st = .idle ∧ modeDirect warning = false ∧ warning.msgLen.toNat < 2 ^ 30 ∧
    ∀ k, ∃ t, runSteps k (hostWriteCr 0 1 warning) = .next t ∧ t.st ≠ .error := by
  refine ⟨rfl, rfl, by decide +kernel, by decide +kernel, fun k => ?_⟩
  rcases Nat.lt_or_ge k 13 with h | h
  · have key : ∀ k : Fin 13, (nextOf (runSteps k (hostWriteCr 0 1 warning))).map (·.st) = some .run := by decide +kernel
    obtain ⟨t, ht, hs⟩ := exists_next (·.st) (key ⟨k, h⟩)
    exact ⟨t, ht, by simp [hs]⟩
  · obtain ⟨d, rfl⟩ := Nat.exists_eq_add_of_le h
    obtain ⟨t, ht, hp⟩ := exists_next (o := runSteps 13 (hostWriteCr 0 1 warning)) (fun t => (t.st, t.inputs))
      (a := (.done, [])) (by decide +kernel)
    obtain ⟨hs, hi⟩ := Prod.mk.inj hp
    rw [runSteps_add d ht, runSteps_of_rest d (by simp [hs]) hi]
    exact ⟨t, rfl, by simp [hs]⟩

/-- Without a message, and with one of no sample. -/
theorem test_witness_WarningPlanInMemoryIsThePlan :
    modeDirect warning = false ∧ warningCheck warning = none ∧ warning.msgLen.toNat < 2 ^ 30 ∧ msgp warning = false ∧
    msgp { warning with cfg := 2 } = true ∧ message { warning with cfg := 2 } = some [] := by decide +kernel

/-- The same, at rate 0, where a warning is short. -/
theorem test_witness_WarningRunEmitsConstruct :
    warning.inputs = [] ∧ warning.st = .idle ∧ modeDirect warning = false ∧ warningCheck warning = none ∧
    warning.msgLen.toNat < 2 ^ 30 ∧ msgp warning = false ∧
    (msgp { warning with cfg := 2 } = true ∧ message { warning with cfg := 2 } = some [] ∧
      warning.msgBase.toNat + warning.msgLen.toNat ≤ Config.amemSamples) ∧
    (renderList warning.srate.toNat (warningPlan warning [])).length < 2 ^ 64 :=
  ⟨rfl, rfl, by decide +kernel, by decide +kernel, by decide +kernel, by decide +kernel,
    ⟨by decide +kernel, by decide +kernel, Nat.zero_le _⟩, by decide +kernel⟩

/-- Both groups, and neither. -/
theorem test_witness_PlanFollowsThePolicyTable :
    (apol { warning with cfg := 3 } = false ∧ crit { warning with cfg := 3 } = true ∧
      msgp { warning with cfg := 3 } = true) ∧ msgp warning = false ∧ attended warning = false := by decide +kernel

/-- Registers that hold a warning; a header but no warning; neither. -/
theorem test_witness_PseudoInstructionsExpand :
    (headerCheck warning = none ∧ warningCheck warning = none) ∧
    (headerCheck { warning with attnDur := 799999 } = none ∧ warningCheck { warning with attnDur := 799999 } ≠ none) ∧
    headerCheck { warning with hr := warning.hr.set 0 5 } ≠ none ∧
    (800000 : Nat) < 2 ^ 30 ∧ (800000 : Nat) ≤ 800000 ∧ (799999 : Nat) < 800000 ∧ 2 ^ 30 - 1 < 2 ^ 30 := by decide +kernel

end Sys2Proof.Tests
end

section
/-! PROOFS. The range of OUT (00_scope R14): each operand form gives a sample in range, so a step of the block appends at
most one sample in range and leaves AMEM alone. -/

namespace Sys2Proof.Machine

/-! The samples EMIT computes. -/

/-- Property P1 of `TONE_SAMPLE` (40_tone_generator R103). -/
theorem inUnit_toneSample (phase : Rat) : inUnit (toneSample phase) = true := by
  simp only [toneSample]
  split
  · exact inUnit_posZero
  · exact inUnit_intoUnit _

/-- Property M1 of `MIX` (40_tone_generator R109), on the non-empty lists its contract is for. -/
theorem inUnit_mix {vs : List Sample} (hne : vs ≠ []) (h : ∀ v ∈ vs, inUnit v = true) : inUnit (mix vs) = true := by
  match vs with
  | [] => exact absurd rfl hne
  | [v] => exact h v List.mem_cons_self
  | v :: w :: rest =>
    simp only [mix, List.all_eq_true.2 h, if_true]
    split
    · exact inUnit_posZero
    · exact inUnit_intoUnit _

/-- The single form stays in range (40_tone_generator R106 (d)). -/
theorem inUnit_bitSample (n cycles i : Nat) : inUnit (bitSample n cycles i) = true := by
  simp only [bitSample]
  split
  · exact inUnit_posZero
  · exact inUnit_toneSample _

/-- The multi form stays in range (40_tone_generator R110 (f)); one carrier or more, since nothing is known of an empty
mix. -/
theorem inUnit_toneMix (n dur : Nat) {freqs : List Word} (hne : freqs ≠ []) (i : Nat) :
    inUnit (toneMix n dur freqs i) = true := by
  refine inUnit_mix (by simpa using hne) fun v hv => ?_
  obtain ⟨f, -, rfl⟩ := List.mem_map.1 hv
  exact inUnit_toneSample _

/-! What the gate and RETIRE keep. -/

@[simp] theorem gate_out (len base : Nat) (s : State) : (gate len base s).out = s.out := by
  obtain ⟨_, _, _, _, _, h⟩ := gate_changes len base s
  rw [h]

@[simp] theorem gate_amem (len base : Nat) (s : State) : (gate len base s).amem = s.amem := by
  obtain ⟨_, _, _, _, _, h⟩ := gate_changes len base s
  rw [h]

@[simp] theorem retire_out (n : Nat) (s : State) : (retire n s).out = s.out := by simp [retire]

@[simp] theorem retire_amem (n : Nat) (s : State) : (retire n s).amem = s.amem := by simp [retire]

/-! A step as OUT and AMEM see it. -/

/-- Every written sample of AMEM lies in range: the premise 70_reset_and_hazards R240 puts on the messages. -/
def AmemInUnit (s : State) : Prop := ∀ a v, memRead s.amem a = some v → inUnit v = true

/-- From `s` to `t` AMEM is untouched and OUT grows by at most one sample, which lies in range. -/
structure AppendsInUnit (s t : State) : Prop where
  amem : t.amem = s.amem
  out : t.out = s.out ∨ ∃ v, inUnit v = true ∧ t.out = s.out ++ [v]

/-- A step that leaves OUT and AMEM alone appends nothing. -/
theorem AppendsInUnit.of_eq {s t : State} (hm : t.amem = s.amem) (ho : t.out = s.out) : AppendsInUnit s t := ⟨hm, .inl ho⟩

/-- An emission of a sample in range appends it, when the move after it touches neither OUT nor AMEM. -/
theorem AppendsInUnit.of_emitThen {v : Sample} {f : State → State} {s t : State} (hv : inUnit v = true)
    (ho : ∀ u, (f u).out = u.out) (hm : ∀ u, (f u).amem = u.amem) (h : emitThen v f s = .next t) :
    AppendsInUnit s t := by
  obtain ⟨-, rfl⟩ := emitThen_eq_next.1 h
  exact ⟨by rw [hm, pushSample_amem], .inr ⟨v, hv, by rw [ho, pushSample_out]⟩⟩

/-- One EMIT of a descriptor that passed its checks: `+0.0`, a sample of the single form, a sample of the multi form, or
a sample of AMEM. -/
theorem emitOf_appendsInUnit {i : Instr} {s t : State} (hw : wordsOf i ≠ 0) (hc : fetchCheck i s = none)
    (ha : AmemInUnit s) (h : emitOf i s = .next t) : AppendsInUnit s t := by
  cases i with
  | silence dur => exact .of_emitThen inUnit_posZero nextSample_out nextSample_amem h
  | tonebytes len base =>
    simp only [emitOf, emitTonebytes] at h
    split at h
    · cases h
      exact .of_eq (raise_amem _ _) (raise_out _ _)
    · exact .of_emitThen (inUnit_bitSample _ _ _) (gate_out _ _) (gate_amem _ _) h
  | tone dur rsvd freqs =>
    obtain ⟨-, hne, -⟩ := (toneCheck_eq_none rsvd freqs).1 hc
    exact .of_emitThen (inUnit_toneMix _ _ hne _) nextSample_out nextSample_amem h
  | audio len base =>
    simp only [emitOf, emitAudio] at h
    split at h
    · cases h
      exact .of_eq (raise_amem _ _) (raise_out _ _)
    · next v hv => exact .of_emitThen (ha _ v hv) nextSample_out nextSample_amem h
  | mark => exact absurd rfl hw
  | space => exact absurd rfl hw
  | attnSingle => exact absurd rfl hw
  | attnCombined => exact absurd rfl hw

/-- The step of a descriptor: an error or RETIRE appends nothing, an EMIT one sample in range. -/
theorem exec_appendsInUnit {i : Instr} {s t : State} (hw : wordsOf i ≠ 0) (ha : AmemInUnit s)
    (h : exec i s = .next t) : AppendsInUnit s t := by
  rcases exec_descriptor_cases hw s with ⟨e, -, he⟩ | ⟨-, -, he⟩ | ⟨hc, -, he⟩ <;> rw [he] at h
  · cases h
    exact .of_eq (raise_amem _ _) (raise_out _ _)
  · cases h
    exact .of_eq (retire_amem _ _) (retire_out _ _)
  · exact emitOf_appendsInUnit hw hc ha h

/-- The block's step appends to OUT at most one sample, in range when those of AMEM are, and leaves AMEM alone. -/
theorem blockStep_appendsInUnit {s t : State} (ha : AmemInUnit s) (h : blockStep s = .next t) : AppendsInUnit s t := by
  rcases blockStep_cases s with ⟨-, hs⟩ | ⟨-, -, hs⟩ | ⟨-, -, e, -, hs⟩ | ⟨-, -, i, hd, hs⟩ <;> rw [hs] at h
  · cases h
    exact .of_eq rfl rfl
  · cases h
    exact .of_eq (finish_amem _) (finish_out _)
  · cases h
    exact .of_eq (raise_amem _ _) (raise_out _ _)
  · obtain ⟨hw, -⟩ := descriptorAt_eq_ok.1 hd
    exact exec_appendsInUnit hw ha h

/-- Settles O55: the new sample of OUT, when there is one, lies in range, and the old ones do by the premise. -/
theorem outputStaysInRange : Obligations.OutputStaysInRange := by
  intro s t hout hamem h
  obtain ⟨hm, ho⟩ := blockStep_appendsInUnit hamem h
  refine ⟨fun v hv => ?_, fun a => by rw [hm]⟩
  rcases ho with ho | ⟨x, hx, ho⟩ <;> rw [ho] at hv
  · exact hout v hv
  · rcases List.mem_append.1 hv with hv | hv
    · exact hout v hv
    · rwa [List.mem_singleton.1 hv]

end Sys2Proof.Machine
end

section
/-! PROOFS. The frame of a step of the block: what it leaves to the host, what it appends to OUT, and the order of the
position (10_state R25, R40, R41, 44_section_sequencer R198, R199). -/

namespace Sys2Proof.Machine

open Sys2Proof.Safety

/-! CLEAR puts back exactly what belongs to a run (60_exceptions R219), so `clear t = clear s` says in one equation that
`t` and `s` agree in everything the host owns. -/

theorem keepsInputs_of_clear_eq {s t : State} (h : clear t = clear s) : KeepsInputs s t := by
  have same {α : Type} (f : State → α) : f (clear t) = f (clear s) := congrArg f h
  exact {
    srate := same State.srate
    cfg := same State.cfg
    attnDur := same State.attnDur
    msgBase := same State.msgBase
    msgLen := same State.msgLen
    plen := same State.plen
    hr := same State.hr
    hrWritten := same State.hrWritten
    pmem := fun a => same fun u => memRead u.pmem a
    bmem := fun a => same fun u => memRead u.bmem a
    amem := fun a => same fun u => memRead u.amem a
    inputs := same State.inputs }

@[simp] theorem clear_raise (e : ErrCause) (s : State) : clear (raise e s) = clear s := rfl
@[simp] theorem clear_openRun (s : State) : clear (openRun s) = clear s := rfl
@[simp] theorem clear_finish (s : State) : clear (finish s) = clear s := rfl
@[simp] theorem clear_pushSample (v : Sample) (s : State) : clear (pushSample v s) = clear s := rfl
@[simp] theorem clear_nextSample (s : State) : clear (nextSample s) = clear s := rfl
@[simp] theorem clear_advance (n : Nat) (s : State) : clear (advance n s) = clear s := rfl
@[simp] theorem clear_openSegment (n : Nat) (s : State) : clear (openSegment n s) = clear s := rfl
@[simp] theorem clear_loadByte (v : Byte) (s : State) : clear (loadByte v s) = clear s := rfl

@[simp] theorem clear_fetch (s : State) : clear (fetch s) = clear s := by
  rcases fetch_changes s with h | ⟨e, h⟩ | ⟨n, h⟩ | ⟨n, v, h⟩ <;> simp [h]

@[simp] theorem clear_retire (n : Nat) (s : State) : clear (retire n s) = clear s := by simp [retire]

@[simp] theorem clear_gate (len base : Nat) (s : State) : clear (gate len base s) = clear s := by
  obtain ⟨_, _, _, _, _, h⟩ := gate_changes len base s
  rw [h]
  rfl

/-! The gate of a TONEBYTES: what it is in each of its three cases, and the registers it leaves. -/

@[simp] theorem gate_pcw (len base : Nat) (s : State) : (gate len base s).pcw = s.pcw := by
  obtain ⟨_, _, _, _, _, h⟩ := gate_changes len base s
  rw [h]
@[simp] theorem gate_secp (len base : Nat) (s : State) : (gate len base s).secp = s.secp := by
  obtain ⟨_, _, _, _, _, h⟩ := gate_changes len base s
  rw [h]
@[simp] theorem gate_st (len base : Nat) (s : State) : (gate len base s).st = s.st := by
  obtain ⟨_, _, _, _, _, h⟩ := gate_changes len base s
  rw [h]
@[simp] theorem gate_outcnt (len base : Nat) (s : State) : (gate len base s).outcnt = s.outcnt := by
  obtain ⟨_, _, _, _, _, h⟩ := gate_changes len base s
  rw [h]
@[simp] theorem gate_errinfo (len base : Nat) (s : State) : (gate len base s).errinfo = s.errinfo := by
  obtain ⟨_, _, _, _, _, h⟩ := gate_changes len base s
  rw [h]

/-- Inside a bit interval the gate goes to the next sample. -/
theorem gate_of_sample {len base : Nat} {s : State} (h : s.samp + 1 ≠ s.ncur) : gate len base s = nextSample s := by
  simp only [gate, if_neg h]

/-- At the end of a bit interval below bit 7 the gate goes to the next bit. -/
theorem gate_of_bit {len base : Nat} {s : State} (h : s.samp + 1 = s.ncur) (hb : s.bitp ≠ 7) :
    gate len base s = nextBit len { s with samp := 0 } := by
  simp only [gate, if_pos h, if_neg hb]

/-- At the end of bit 7 the gate goes to the next byte. -/
theorem gate_of_byte {len base : Nat} {s : State} (h : s.samp + 1 = s.ncur) (hb : s.bitp = 7) :
    gate len base s = nextByte len base { s with samp := 0 } := by
  simp only [gate, if_pos h, if_pos hb]

@[simp] theorem nextBit_bytep (len : Nat) (s : State) : (nextBit len s).bytep = s.bytep := by
  simp only [nextBit]
  split <;> rfl
@[simp] theorem nextBit_bitp (len : Nat) (s : State) : (nextBit len s).bitp = s.bitp + 1 := by
  simp only [nextBit]
  split <;> rfl

/-- A bit of a byte of the string is loaded from `SHREG`. -/
theorem nextBit_of_lt {len : Nat} {s : State} (h : s.bytep < len) :
    nextBit len s = loadByte s.shreg { s with bitp := s.bitp + 1 } := by
  simp only [nextBit, if_pos h]

/-- The next byte of the string is loaded, unless the string is over or the byte unwritten. -/
theorem nextByte_cases (len base : Nat) (s : State) :
    (∃ v, memRead s.bmem (base + (s.bytep + 1)) = some v ∧
      nextByte len base s = loadByte v { s with bitp := 0, bytep := s.bytep + 1 }) ∨
    ((s.bytep + 1 < len → memRead s.bmem (base + (s.bytep + 1)) = none) ∧
      nextByte len base s = { s with bitp := 0, bytep := s.bytep + 1 }) := by
  simp only [nextByte]
  split
  · cases hm : memRead s.bmem (base + (s.bytep + 1)) with
    | some v => exact .inl ⟨v, rfl, rfl⟩
    | none => exact .inr ⟨fun _ => rfl, rfl⟩
  · next h => exact .inr ⟨fun hlt => absurd hlt h, rfl⟩

@[simp] theorem nextByte_bytep (len base : Nat) (s : State) : (nextByte len base s).bytep = s.bytep + 1 := by
  rcases nextByte_cases len base s with ⟨v, -, h⟩ | ⟨-, h⟩ <;> simp [h]

/-! What FETCH and RETIRE do to the run state, the count of OUT and the position. -/

/-- FETCH leaves the run state and the error as they were, or raises. -/
theorem fetch_st_errinfo (s : State) :
    (fetch s).st = s.st ∧ (fetch s).errinfo = s.errinfo ∨ (fetch s).st = .error := by
  rcases fetch_changes s with h | ⟨e, h⟩ | ⟨n, h⟩ | ⟨n, v, h⟩ <;> simp [h]

@[simp] theorem retire_outcnt (n : Nat) (s : State) : (retire n s).outcnt = s.outcnt := by simp [retire]
@[simp] theorem retire_pcw (n : Nat) (s : State) : (retire n s).pcw = s.pcw + n := by simp [retire, advance]
@[simp] theorem retire_secp (n : Nat) (s : State) : (retire n s).secp = s.secp + 1 := by simp [retire, advance]

/-! The frame of a descriptor or a symbol. -/

section
variable {i : Instr} {s t : State}

/-- The meaning of a descriptor or a symbol leaves everything the host owns as it was. -/
theorem clear_of_exec (h1 : i ≠ .attnSingle) (h2 : i ≠ .attnCombined) (h : exec i s = .next t) : clear t = clear s := by
  rcases exec_cases h1 h2 h with ⟨e, rfl⟩ | ⟨-, rfl⟩ | ⟨-, rfl⟩ | ⟨v, -, rfl⟩ | ⟨len, base, v, -, -, rfl⟩ <;> simp

/-- It appends at most one sample to OUT and counts it. -/
theorem out_of_exec (h1 : i ≠ .attnSingle) (h2 : i ≠ .attnCombined) (h : exec i s = .next t) :
    t.out = s.out ∧ t.outcnt = s.outcnt ∨ ∃ v, t.out = s.out ++ [v] ∧ t.outcnt = s.outcnt + 1 := by
  rcases exec_cases h1 h2 h with ⟨e, rfl⟩ | ⟨-, rfl⟩ | ⟨-, rfl⟩ | ⟨v, -, rfl⟩ | ⟨len, base, v, -, -, rfl⟩
  · exact .inl ⟨raise_out e s, raise_outcnt e s⟩
  · exact .inl ⟨retire_out _ s, retire_outcnt _ s⟩
  · exact .inl ⟨rfl, rfl⟩
  · exact .inr ⟨v, rfl, rfl⟩
  · exact .inr ⟨v, gate_out _ _ _, gate_outcnt _ _ _⟩

/-- It leaves the run state and the error as they were, or raises. -/
theorem st_errinfo_of_exec (h1 : i ≠ .attnSingle) (h2 : i ≠ .attnCombined) (h : exec i s = .next t) :
    t.st = s.st ∧ t.errinfo = s.errinfo ∨ t.st = .error := by
  rcases exec_cases h1 h2 h with ⟨e, rfl⟩ | ⟨-, rfl⟩ | ⟨-, rfl⟩ | ⟨v, -, rfl⟩ | ⟨len, base, v, -, -, rfl⟩
  · exact .inr (raise_st e s)
  · exact fetch_st_errinfo (advance (wordsOf i) s)
  · exact .inl ⟨rfl, rfl⟩
  · exact .inl ⟨rfl, rfl⟩
  · exact .inl ⟨gate_st _ _ _, gate_errinfo _ _ _⟩

end

/-- Settles O22: the three parts of the frame, each from the cases of `exec`. -/
theorem soundingInstructionsFrame : Obligations.SoundingInstructionsFrame :=
  fun _ _ _ h1 h2 h => ⟨keepsInputs_of_clear_eq (clear_of_exec h1 h2 h), out_of_exec h1 h2 h, st_errinfo_of_exec h1 h2 h⟩

/-! The order of the position. -/

/-- The place in the segment of `t` is that of `s` or a later one, in the order of 10_state R25. -/
def PlaceLe (s t : State) : Prop :=
  s.bytep < t.bytep ∨ t.bytep = s.bytep ∧ (s.bitp.toNat < t.bitp.toNat ∨ t.bitp = s.bitp ∧ s.samp ≤ t.samp)

/-- The gate moves to a later sample, bit or byte: below 7 the increment of `BITP` does not wrap. -/
theorem placeLe_gate (len base : Nat) (s : State) : PlaceLe s (gate len base s) := by
  by_cases hs : s.samp + 1 = s.ncur
  · by_cases hb : s.bitp = 7
    · rw [gate_of_byte hs hb]
      exact .inl (by simp)
    · rw [gate_of_bit hs hb]
      refine .inr ⟨nextBit_bytep _ _, .inl ?_⟩
      rw [nextBit_bitp]
      show s.bitp.toNat < (s.bitp + 1).toNat
      bv_omega
  · rw [gate_of_sample hs]
    exact .inr ⟨rfl, .inr ⟨rfl, Nat.le_succ _⟩⟩

/-- Settles O25: RETIRE goes to a later descriptor, an EMIT to a later place in the segment, an error nowhere. -/
theorem positionOnlyMovesForward : Obligations.PositionOnlyMovesForward := by
  intro i s t hw h
  have h1 : i ≠ .attnSingle := by rintro rfl; exact hw rfl
  have h2 : i ≠ .attnCombined := by rintro rfl; exact hw rfl
  rcases exec_cases h1 h2 h with ⟨e, rfl⟩ | ⟨-, rfl⟩ | ⟨hw0, -⟩ | ⟨v, -, rfl⟩ | ⟨len, base, v, -, -, rfl⟩
  · exact .inr ⟨rfl, rfl, .inr ⟨rfl, .inr ⟨rfl, le_rfl⟩⟩⟩
  · refine .inl ⟨?_, retire_secp _ s⟩
    rw [retire_pcw]
    omega
  · exact absurd hw0 hw
  · exact .inr ⟨rfl, rfl, .inr ⟨rfl, .inr ⟨rfl, Nat.le_succ _⟩⟩⟩
  · exact .inr ⟨gate_pcw _ _ _, gate_secp _ _ _, placeLe_gate _ _ (pushSample v s)⟩

end Sys2Proof.Machine
end

section
/-! PROOFS. The registers as the host sees them: what CR0 to CR15 and HR0 to HR68 read as, and what a write to a register
or to a memory changes, in a run and outside one (10_state R26 to R38, R43 to R45, 60_exceptions R218, R219, R222). -/

namespace Sys2Proof.Machine

open Sys2Proof.Safety

/-! What an error leaves in ERRINFO (10_state R35). -/

@[simp] theorem errCodeOf_raise (e : ErrCause) (s : State) : errCodeOf (raise e s) = errCode e :=
  BitVec.extractLsb'_append_eq_right

@[simp] theorem errSecOf_raise (e : ErrCause) (s : State) : errSecOf (raise e s) = errSec s.secp :=
  BitVec.extractLsb'_append_eq_left

/-- `SECP` saturated fits the field, so no bit of it is lost. -/
theorem toNat_errSec (n : Nat) : (errSec n).toNat = min n (2 ^ 28 - 1) := by
  rw [errSec, BitVec.toNat_ofNat, Nat.mod_eq_of_lt (by omega)]

/-! A write to `CTRL` (10_state R27). -/

theorem hostWriteCr_ctrl (v : Word) (s : State) : hostWriteCr 0 v s = writeCtrl v s := rfl

/-- CLEAR from DONE or ERROR. -/
theorem writeCtrl_of_clear {v : Word} {s : State} (hv : v.getLsbD 1 = true) (h : s.st = .done ∨ s.st = .error) :
    writeCtrl v s = clear s := by
  rw [writeCtrl, if_pos hv, if_pos h]

/-- CLEAR from IDLE or RUN is ignored, whatever the bit of START is. -/
theorem writeCtrl_of_clear_ignored {v : Word} {s : State} (hv : v.getLsbD 1 = true) (h : s.st = .idle ∨ s.st = .run) :
    writeCtrl v s = s := by
  rw [writeCtrl, if_pos hv, if_neg (by rcases h with h | h <;> simp [h])]

/-- START from IDLE. -/
theorem writeCtrl_of_start {v : Word} {s : State} (hv : v.getLsbD 1 = false) (hv0 : v.getLsbD 0 = true)
    (h : s.st = .idle) : writeCtrl v s = start s := by
  rw [writeCtrl, hv, if_neg Bool.false_ne_true, if_pos hv0, if_pos h]

/-- START anywhere else is ignored. -/
theorem writeCtrl_of_start_ignored {v : Word} {s : State} (hv : v.getLsbD 1 = false) (h : s.st ≠ .idle) :
    writeCtrl v s = s := by
  rw [writeCtrl, hv, if_neg Bool.false_ne_true, if_neg h, ite_self]

/-- A write of neither bit is ignored. -/
theorem writeCtrl_of_neither {v : Word} {s : State} (hv : v.getLsbD 1 = false) (hv0 : v.getLsbD 0 = false) :
    writeCtrl v s = s := by
  rw [writeCtrl, hv, hv0, if_neg Bool.false_ne_true, if_neg Bool.false_ne_true]

/-- Everything a write to `CTRL` can do. -/
theorem writeCtrl_cases (v : Word) (s : State) :
    writeCtrl v s = s ∨ ((s.st = .done ∨ s.st = .error) ∧ writeCtrl v s = clear s) ∨
      (s.st = .idle ∧ writeCtrl v s = start s) := by
  simp only [writeCtrl]
  split
  · split
    · exact .inr (.inl ⟨‹_›, rfl⟩)
    · exact .inl rfl
  · split
    · split
      · exact .inr (.inr ⟨‹_›, rfl⟩)
      · exact .inl rfl
    · exact .inl rfl

/-- Settles O27: one clause for each case of a write to `CTRL`. -/
theorem ctrlWritesStartAndClear : Obligations.CtrlWritesStartAndClear := by
  intro v s
  refine ⟨rfl, fun h1 h => ?_, fun h1 h => ?_, fun h1 h0 h => ?_, fun h1 _ h => ?_, fun h1 h0 => ?_⟩ <;>
    rw [hostWriteCr_ctrl]
  · exact writeCtrl_of_clear h1 h
  · exact writeCtrl_of_clear_ignored h1 h
  · exact writeCtrl_of_start h1 h0 h
  · exact writeCtrl_of_start_ignored h1 h
  · exact writeCtrl_of_neither h1 h0

/-! A write to another control register (10_state R26, R45). -/

theorem hostWriteCr_of_run {n : Fin 16} (v : Word) {s : State} (hn : n ≠ 0) (h : s.st = .run) : hostWriteCr n v s = s := by
  rw [hostWriteCr, if_neg hn, if_pos h]

theorem hostWriteCr_of_not_run {n : Fin 16} (v : Word) {s : State} (hn : n ≠ 0) (h : s.st ≠ .run) :
    hostWriteCr n v s = writeCr n.val v s := by
  rw [hostWriteCr, if_neg hn, if_neg h]

/-- The read-only and the reserved registers ignore every write, in a run too. -/
theorem hostWriteCr_of_readOnly {n : Fin 16} (v : Word) (s : State) (hn : n.val = 1 ∨ 8 ≤ n.val) :
    hostWriteCr n v s = s := by
  have h0 : n ≠ 0 := by rintro rfl; simp at hn
  by_cases h : s.st = .run
  · exact hostWriteCr_of_run v h0 h
  · rw [hostWriteCr_of_not_run v h0 h]
    rcases hn with hn | hn
    · rw [hn]
      rfl
    · obtain ⟨k, hk⟩ := Nat.exists_eq_add_of_le' hn
      rw [hk]
      rfl

/-- CR11 to CR15 are reserved and read 0. -/
theorem hostReadCr_of_reserved {n : Fin 16} (s : State) (hn : 11 ≤ n.val) : hostReadCr n s = 0 := by
  obtain ⟨k, hk⟩ := Nat.exists_eq_add_of_le' hn
  rw [hostReadCr, hk]
  rfl

/-- CR8 and CR9 are the low and the high word of `OUTCNT`. -/
theorem hostReadCr_outcnt {s : State} (h : s.outcnt < 2 ^ 64) :
    (hostReadCr 8 s).toNat + 2 ^ 32 * (hostReadCr 9 s).toNat = s.outcnt := by
  show (BitVec.ofNat 32 s.outcnt).toNat + 2 ^ 32 * (BitVec.ofNat 32 (s.outcnt / 2 ^ 32)).toNat = s.outcnt
  simp only [BitVec.toNat_ofNat]
  omega

/-- Settles O34: `STATUS` is CR1, a function of the run state alone, and read-only. -/
theorem statusReadsAsTheRunState : Obligations.StatusReadsAsTheRunState := by
  have status (s : State) : hostReadCr 1 s = statusWord s := rfl
  refine ⟨rfl, fun s => ⟨fun v => hostWriteCr_of_readOnly v s (.inl rfl), ?_, ?_, ?_, ?_⟩⟩ <;> intro h <;>
    rw [status, statusWord, errf, donef, busy, h] <;> rfl

/-- Settles O35: each register is its field of the state, and a write outside a run sets its named bits. -/
theorem controlRegistersReadBack : Obligations.ControlRegistersReadBack := by
  refine ⟨fun s => ⟨rfl, rfl, rfl, rfl, rfl, rfl, rfl, rfl, rfl, rfl, rfl, rfl, rfl, rfl, rfl,
    fun e => ⟨errCodeOf_raise e s, ?_⟩, fun n => hostReadCr_of_reserved s, hostReadCr_outcnt⟩, fun v s h => ?_⟩
  · exact (congrArg BitVec.toNat (errSecOf_raise e s)).trans (toNat_errSec s.secp)
  · have write (n : Fin 16) (hn : n ≠ 0) : hostWriteCr n v s = writeCr n.val v s := hostWriteCr_of_not_run v hn h
    rw [write 2 (by decide), write 3 (by decide), write 4 (by decide), write 5 (by decide), write 6 (by decide),
      write 7 (by decide)]
    exact ⟨rfl, rfl, rfl, rfl, rfl, rfl, rfl, rfl, rfl, rfl, rfl, rfl, fun n => hostWriteCr_of_readOnly v s⟩

/-! A write to a header register (10_state R37, R38, R44, R45). -/

theorem hostWriteHr_of_run (n : Fin 69) (v : Word) {s : State} (h : s.st = .run) : hostWriteHr n v s = s := by
  rw [hostWriteHr, if_pos h]

theorem hostWriteHr_of_not_run (n : Fin 69) (v : Word) {s : State} (h : s.st ≠ .run) :
    hostWriteHr n v s = { s with hr := s.hr.set n.val (v &&& hrMask n.val), hrWritten := s.hrWritten.set n.val true } := by
  rw [hostWriteHr, if_neg h]

/-- The named bits of HR`n`, as the tables of 10_state R37 and R38 have them: HR0, HR1, HR2 and HR4 one by one, and of the
location codes the two bytes of the even registers. -/
theorem hrMask_eq (n : Nat) : hrMask n =
    if n = 0 then 0x7#32 else if n = 1 then 0xFFFFFF#32 else if n = 2 then 0x3F#32
    else if n = 4 then 0x01FF1F3F#32 else if 8 ≤ n ∧ n % 2 = 0 then 0xFFFF#32 else 0xFFFFFFFF#32 := by
  simp only [hrMask]
  by_cases h8 : n < 8
  · have : ¬ (8 ≤ n ∧ n % 2 = 0) := by omega
    simp [h8, this]
  · simp [h8, Nat.not_lt.1 h8]

/-- HR`n` by its number is HR`n`. -/
theorem hrAt_of_lt (s : State) {n : Nat} (h : n < 69) : hrAt s n = hostReadHr ⟨n, h⟩ s := by
  simp [hrAt, hostReadHr, h]

/-- The bytes of location code `k` are those of HR(7 + 2k) and HR(8 + 2k) (10_state R38, 20_memory R56). -/
theorem locBytes_eq (s : State) (k : Fin 31) : locBytes s k.val =
    ([0, 8, 16, 24].map fun b => (hostReadHr ⟨7 + 2 * k.val, by omega⟩ s).extractLsb' b 8) ++
    ([0, 8].map fun b => (hostReadHr ⟨8 + 2 * k.val, by omega⟩ s).extractLsb' b 8) := by
  rw [locBytes, hrAt_of_lt s (by omega), hrAt_of_lt s (by omega)]
  rfl

/-- Settles O36: the fields are read from the registers by their definitions, and a write sets one element of the
registers and one of the marks. -/
theorem headerRegistersReadBack : Obligations.HeaderRegistersReadBack := by
  refine ⟨fun s => ⟨fun n => rfl, rfl, rfl, rfl, rfl, rfl, rfl, rfl, rfl, locBytes_eq s⟩, fun n v s h => ?_⟩
  rw [hostWriteHr_of_not_run n v h]
  refine ⟨?_, ?_, fun k hk => ?_, rfl⟩
  · simp only [hostReadHr, Fin.getElem_fin, Vector.getElem_set_self, hrMask_eq]
  · simp
  · have hne : n.val ≠ k.val := fun he => hk (Fin.ext he.symm)
    simp [hostReadHr, hne]

/-! A write to a memory (10_state R44, R45, 20_memory R50, 60_exceptions R222). -/

theorem hostWriteMem_of_room {size a : Nat} (write : State → State) {s : State} (h : s.st ≠ .run) (ha : a < size) :
    hostWriteMem size a write s = write s := by
  rw [hostWriteMem, if_neg h, if_pos ha]

theorem hostWriteMem_of_ignored {size a : Nat} (write : State → State) {s : State} (h : s.st = .run ∨ size ≤ a) :
    hostWriteMem size a write s = s := by
  rcases hostWriteMem_cases size a write s with ⟨-, hw⟩ | ⟨h1, h2, -⟩
  · exact hw
  · rcases h with h | h
    · exact absurd h h1
    · exact absurd h (Nat.not_le.2 h2)

theorem hostAccess_writePmem (a v : Word) (s : State) : hostAccess (.writePmem a v) s =
    hostWriteMem Config.pmemWords a.toNat (fun t => { t with pmem := memWrite t.pmem a.toNat v }) s := rfl

theorem hostAccess_writeBmem (a : Word) (v : Byte) (s : State) : hostAccess (.writeBmem a v) s =
    hostWriteMem Config.bmemBytes a.toNat (fun t => { t with bmem := memWrite t.bmem a.toNat v }) s := rfl

theorem hostAccess_writeAmem (a : Word) (v : Sample) (s : State) : hostAccess (.writeAmem a v) s =
    hostWriteMem Config.amemSamples a.toNat (fun t => { t with amem := memWrite t.amem a.toNat v }) s := rfl

/-- Reading after a write, with the written address on the right as the statement has it. -/
theorem memRead_memWrite_eq {w : Nat} (m : Mem w) (a b : Nat) (v : BitVec w) :
    memRead (memWrite m a v) b = if b = a then some v else memRead m b := by
  simp only [memRead_memWrite, eq_comm]

/-- Settles O37: the write of an element where the memory has one, nothing where it has none. -/
theorem hostWritesMemory : Obligations.HostWritesMemory := by
  intro a s h
  refine ⟨fun v ha => ?_, fun v ha => ?_, fun v ha => ?_, fun v ha => ?_, fun v ha => ?_, fun v ha => ?_⟩
  · exact ⟨memWrite s.pmem a.toNat v, by rw [hostAccess_writePmem, hostWriteMem_of_room _ h ha],
      fun b => memRead_memWrite_eq _ _ _ _⟩
  · exact ⟨memWrite s.bmem a.toNat v, by rw [hostAccess_writeBmem, hostWriteMem_of_room _ h ha],
      fun b => memRead_memWrite_eq _ _ _ _⟩
  · exact ⟨memWrite s.amem a.toNat v, by rw [hostAccess_writeAmem, hostWriteMem_of_room _ h ha],
      fun b => memRead_memWrite_eq _ _ _ _⟩
  · rw [hostAccess_writePmem, hostWriteMem_of_ignored _ (.inr ha)]
  · rw [hostAccess_writeBmem, hostWriteMem_of_ignored _ (.inr ha)]
  · rw [hostAccess_writeAmem, hostWriteMem_of_ignored _ (.inr ha)]

/-! The lock of a run (10_state R27, R45, 60_exceptions R218). -/

/-- In RUN every access but a reset leaves the state as it was. -/
theorem hostAccess_of_run {op : HostOp} {s : State} (h : s.st = .run) (hop : op ≠ .reset) : hostAccess op s = s := by
  cases op with
  | writeCr n v =>
    by_cases hn : n = 0
    · subst hn
      show writeCtrl v s = s
      rcases writeCtrl_cases v s with hw | ⟨hst, -⟩ | ⟨hst, -⟩
      · exact hw
      · simp [h] at hst
      · simp [h] at hst
    · exact hostWriteCr_of_run v hn h
  | writeHr n v => exact hostWriteHr_of_run n v h
  | writePmem a v => rw [hostAccess_writePmem, hostWriteMem_of_ignored _ (.inl h)]
  | writeBmem a v => rw [hostAccess_writeBmem, hostWriteMem_of_ignored _ (.inl h)]
  | writeAmem a v => rw [hostAccess_writeAmem, hostWriteMem_of_ignored _ (.inl h)]
  | reset => exact absurd rfl hop
  | hold => rfl

/-- A list of writes in RUN is consumed, one a step, and nothing else changes. -/
theorem runSteps_of_locked (ops rest : List HostOp) {s : State} (h : s.st = .run)
    (hops : ∀ op ∈ ops, op ≠ .hold ∧ op ≠ .reset) (hi : s.inputs = ops ++ rest) :
    runSteps ops.length s = .next { s with inputs := rest } := by
  induction ops generalizing s with
  | nil =>
    obtain rfl : s.inputs = rest := hi
    rfl
  | cons op ops ih =>
    obtain ⟨hhold, hreset⟩ := hops op List.mem_cons_self
    have hstep : step s = .next { s with inputs := ops ++ rest } := by
      have hi' : s.inputs = op :: (ops ++ rest) := hi
      have h' : ({ s with inputs := ops ++ rest } : State).st = .run := h
      rw [step_of_access hi' hhold, hostAccess_of_run h' hreset]
    rw [List.length_cons, runSteps_of_next _ hstep]
    exact ih h (fun o ho => hops o (List.mem_cons_of_mem _ ho)) rfl

/-- Settles O33: by induction on the list of writes; a reset is a step of its own in every state. -/
theorem runLocksOutTheHost : Obligations.RunLocksOutTheHost :=
  ⟨fun ops rest _ h hops hi => runSteps_of_locked ops rest h hops hi,
    fun _ _ hi => step_of_access hi HostOp.noConfusion⟩

/-! Reset (10_state R43). -/

/-- Settles O32: the fixed state of a reset, register by register. -/
theorem resetState : Obligations.ResetState := by
  refine ⟨rfl, ?_, ⟨rfl, rfl, rfl, rfl, rfl, rfl, rfl, rfl⟩, rfl, rfl, fun n => ?_, fun a => ⟨rfl, rfl, rfl⟩⟩
  · decide
  · exact Vector.getElem_replicate n.isLt

end Sys2Proof.Machine
end

section
/-! PROOFS. How long the strings and the plan of a warning are (42_protocol_framer R149, 44_section_sequencer R187). -/

namespace Sys2Proof.Machine

theorem length_orgBytes {org : Nat} (h : org ≤ 4) : (orgBytes org).length = 3 := by
  interval_cases org <;> rfl

theorem length_bytesOf (w : Word) (n : Nat) : (bytesOf w n).length = n := by simp [bytesOf]

theorem length_locGroup (s : State) : (locGroup s).length = 7 * nlocOf s := by
  simp [locGroup, locBytes, length_bytesOf, Nat.mul_comm]

theorem length_fmtEom : fmtEom.length = 20 := rfl

/-- The header of an originator that has bytes is `HL` bytes long (42_protocol_framer R149). -/
theorem length_fmtHeader {s : State} (h : orgOf s ≤ 4) : (fmtHeader s).length = headerLen s := by
  have h1 : preamble.length = 16 := rfl
  have h2 : startCode.length = 5 := rfl
  have h3 (doy hour min : Nat) : (time7 doy hour min).length = 7 := rfl
  simp only [fmtHeader, call8, evtBytes, purgeBytes, callBytes, headerLen, List.length_append, List.length_cons,
    List.length_nil, List.length_map, length_orgBytes h, length_bytesOf, length_locGroup, h1, h2, h3]
  omega

/-- A packed plan is as long as its descriptors together. -/
theorem length_packInstrs (is : List Instr) : (packInstrs is).length = (is.map wordsOf).sum := by
  simp [packInstrs, List.length_flatMap, length_encodeWords]

/-- The plan of a warning has 18 words, and 6 for the attention group and 3 for the message when it has them. -/
theorem length_packInstrs_planInstrs_le (s : State) : (packInstrs (planInstrs s)).length ≤ 27 := by
  have h1 : ((part1 s).map wordsOf).sum = 8 := rfl
  have h4 : ((part4 s).map wordsOf).sum = 10 := rfl
  have h2 : ((part2 s).map wordsOf).sum ≤ 6 := by
    rw [part2]
    split
    · cases hk : attnk s <;> simp [gapInstr, attnTone, attnFreqs, Config.fSingle, Config.fComb, wordsOf]
    · exact Nat.zero_le _
  have h3 : ((part3 s).map wordsOf).sum ≤ 3 := by
    rw [part3]
    split
    · exact le_rfl
    · exact Nat.zero_le _
  simp only [length_packInstrs, planInstrs, List.map_append, List.sum_append, h1, h4]
  omega

end Sys2Proof.Machine
end

section
/-! PROOFS. The machine invariant: it holds at reset, and every step keeps it, a step of the block and an access of the
host alike (10_state R26, R34, R40, R43, 20_memory R60, 44_section_sequencer R195, 60_exceptions R211). -/

namespace Sys2Proof.Safety

open Sys2Proof.Machine

/-! The parts of the invariant about the memories, the registers and OUT, and what they depend on. -/

theorem MemoryOk.congr {s t : State} (h : MemoryOk s) (hp : t.pmem = s.pmem) (hb : t.bmem = s.bmem)
    (ha : t.amem = s.amem) : MemoryOk t := by
  obtain ⟨h1, h2, h3, h4, h5, h6⟩ := h
  exact ⟨hp ▸ h1, hb ▸ h2, ha ▸ h3, hp ▸ h4, hb ▸ h5, ha ▸ h6⟩

theorem ReservedClear.congr {s t : State} (h : ReservedClear s) (hc : t.cfg = s.cfg) (hl : t.msgLen = s.msgLen)
    (hh : t.hr = s.hr) : ReservedClear t := by
  obtain ⟨h1, h2, h3⟩ := h
  exact ⟨hc ▸ h1, hl ▸ h2, hh ▸ h3⟩

/-- States that agree in everything the host owns agree in the two parts of the invariant about it. -/
theorem MemoryOk.of_clear_eq {s t : State} (h : MemoryOk s) (hc : clear t = clear s) : MemoryOk t := by
  have same {α : Type} (f : State → α) : f (clear t) = f (clear s) := congrArg f hc
  exact h.congr (same State.pmem) (same State.bmem) (same State.amem)

theorem ReservedClear.of_clear_eq {s t : State} (h : ReservedClear s) (hc : clear t = clear s) : ReservedClear t :=
  have hk := keepsInputs_of_clear_eq hc
  h.congr hk.cfg hk.msgLen hk.hr

/-- The part of the invariant that does not speak of the run state: the memories, the registers and the count of OUT. -/
structure Standing (s : State) : Prop where
  memory : MemoryOk s
  reserved : ReservedClear s
  counted : s.outcnt = s.out.length
  bounded : s.outcnt < 2 ^ 64

theorem MachineInv.standing {s : State} (h : MachineInv s) : Standing s := ⟨h.memory, h.reserved, h.counted, h.bounded⟩

/-- A move of the block that leaves OUT alone. -/
theorem Standing.of_clear_eq {s t : State} (h : Standing s) (hc : clear t = clear s) (ho : t.out = s.out)
    (hn : t.outcnt = s.outcnt) : Standing t :=
  ⟨h.memory.of_clear_eq hc, h.reserved.of_clear_eq hc, by rw [ho, hn, h.counted], by rw [hn]; exact h.bounded⟩

/-- The opening of a run, which empties OUT. -/
theorem Standing.openRun {s : State} (h : Standing s) : Standing (openRun s) :=
  ⟨h.memory.of_clear_eq (clear_openRun s), h.reserved.of_clear_eq (clear_openRun s), rfl, Nat.two_pow_pos 64⟩

/-- The emission of a sample that still has room. -/
theorem Standing.pushSample {s : State} (v : Sample) (h : Standing s) (hr : s.outcnt + 1 < 2 ^ 64) :
    Standing (pushSample v s) :=
  ⟨h.memory.of_clear_eq (clear_pushSample v s), h.reserved.of_clear_eq (clear_pushSample v s), by simp [h.counted], hr⟩

/-! The invariant in each run state, from its standing part. -/

theorem Standing.machineInv_of_idle {s : State} (h : Standing s) (hst : s.st = .idle) (hw : WorkClear s)
    (ho : s.out = []) (he : s.errinfo = 0) : MachineInv s :=
  ⟨h.memory, h.reserved, h.counted, h.bounded, fun _ => ⟨hw, ho, he⟩, by simp [hst], by simp [hst], by simp [hst]⟩

theorem Standing.machineInv_of_run {s : State} (h : Standing s) (hst : s.st = .run) (hr : Running s)
    (he : s.errinfo = 0) : MachineInv s :=
  ⟨h.memory, h.reserved, h.counted, h.bounded, by simp [hst], fun _ => ⟨hr, he⟩, by simp [hst], by simp [hst]⟩

theorem Standing.machineInv_of_done {s : State} (h : Standing s) (hst : s.st = .done) (hb : BetweenDescriptors s)
    (he : s.errinfo = 0) : MachineInv s :=
  ⟨h.memory, h.reserved, h.counted, h.bounded, by simp [hst], by simp [hst], fun _ => ⟨hb, he⟩, by simp [hst]⟩

/-- An error keeps the invariant whatever its cause and wherever it is taken: the recorded code is that of the cause. -/
theorem Standing.machineInv_raise {s : State} (e : ErrCause) (h : Standing s) : MachineInv (raise e s) := by
  obtain ⟨hm, hr, hc, hb⟩ := h.of_clear_eq (clear_raise e s) rfl rfl
  exact ⟨hm, hr, hc, hb, by simp, by simp, by simp, fun _ => ⟨e, errCodeOf_raise e s⟩⟩

/-- CLEAR leaves an IDLE state with nothing of a run in it. -/
theorem Standing.machineInv_clear {s : State} (h : Standing s) : MachineInv (clear s) :=
  have h' : Standing (clear s) := ⟨h.memory.of_clear_eq rfl, h.reserved.of_clear_eq rfl, rfl, Nat.two_pow_pos 64⟩
  h'.machineInv_of_idle rfl ⟨rfl, rfl, rfl, rfl, rfl, rfl, rfl, rfl⟩ rfl rfl

/-! Moves inside a run. -/

/-- What a run keeps of its position wherever it is: no error, and the descriptor's place inside the plan (10_state R23,
R24). -/
structure InRun (s : State) : Prop where
  st : s.st = .run
  errinfo : s.errinfo = 0
  fits : s.plen.toNat ≤ Config.pmemWords
  inside : s.pcw ≤ s.plen.toNat
  ordinal : s.secp ≤ s.pcw

theorem MachineInv.inRun {s : State} (h : MachineInv s) (hst : s.st = .run) : InRun s := by
  obtain ⟨⟨hfits, hinside, hordinal, -⟩, he⟩ := h.run hst
  exact ⟨hst, he, hfits, hinside, hordinal⟩

/-- From `s` to `t` only the place in the current descriptor has moved, and OUT: the descriptor's position, the run state,
the error and everything the host owns stay. -/
structure StaysAtDescriptor (s t : State) : Prop where
  clear : clear t = clear s
  pcw : t.pcw = s.pcw
  secp : t.secp = s.secp
  st : t.st = s.st
  errinfo : t.errinfo = s.errinfo

theorem staysAtDescriptor_load (i : Instr) (s : State) : StaysAtDescriptor s (load i s) := by
  rcases load_cases i s with h | ⟨n, h⟩ | ⟨n, v, h⟩ <;> rw [h] <;> exact ⟨rfl, rfl, rfl, rfl, rfl⟩

theorem staysAtDescriptor_nextSample (v : Sample) (s : State) : StaysAtDescriptor s (nextSample (pushSample v s)) :=
  ⟨rfl, rfl, rfl, rfl, rfl⟩

theorem staysAtDescriptor_gate (len base : Nat) (v : Sample) (s : State) :
    StaysAtDescriptor s (gate len base (pushSample v s)) := ⟨by simp, by simp, by simp, by simp, by simp⟩

/-- A place in a descriptor that reads and passes its checks keeps the invariant: the checks depend only on what the host
owns. -/
theorem InRun.machineInv_of_loaded {i : Instr} {s t : State} (h : InRun s) (hm : StaysAtDescriptor s t) (ht : Standing t)
    (hd : descriptorAt s s.pcw = .ok i) (hc : fetchCheck i s = none) (hl : Loaded i t) : MachineInv t := by
  have same {α : Type} (f : State → α) : f (clear t) = f (clear s) := congrArg f hm.clear
  have hplen : t.plen = s.plen := same State.plen
  have hpmem : t.pmem = s.pmem := same State.pmem
  have hbmem : t.bmem = s.bmem := same State.bmem
  have hsrate : t.srate = s.srate := same State.srate
  refine ht.machineInv_of_run (hm.st.trans h.st) ⟨?_, ?_, ?_, .inr ⟨i, ?_, ?_, hl⟩⟩ (hm.errinfo.trans h.errinfo)
  · rw [hplen]; exact h.fits
  · rw [hm.pcw, hplen]; exact h.inside
  · rw [hm.secp, hm.pcw]; exact h.ordinal
  · rw [hm.pcw, descriptorAt_congr _ hpmem hplen, hd]
  · rw [fetchCheck_congr i hbmem hsrate, hc]

/-- FETCH between descriptors ends at the end of the plan, in an error, or at the first place of a checked descriptor. -/
theorem InRun.machineInv_fetch {s : State} (h : InRun s) (hs : Standing s) (hb : BetweenDescriptors s) :
    MachineInv (fetch s) := by
  rcases fetch_cases s with ⟨hp, hf⟩ | ⟨-, e, hf⟩ | ⟨-, i, hd, hc, hf⟩
  · rw [hf]
    exact hs.machineInv_of_run h.st ⟨h.fits, h.inside, h.ordinal, .inl ⟨hp, hb⟩⟩ h.errinfo
  · rw [hf]
    exact hs.machineInv_raise e
  · obtain ⟨hw, -⟩ := descriptorAt_eq_ok.1 hd
    have ht : Standing (fetch s) := hs.of_clear_eq (clear_fetch s) (fetch_out s) (fetch_outcnt s)
    rw [hf] at ht ⊢
    exact h.machineInv_of_loaded (staysAtDescriptor_load i s) ht hd hc (loaded_of_load hw hb hc)

/-- RETIRE moves by the words of its descriptor, which lies inside the plan, and fetches the next one. -/
theorem InRun.machineInv_retire {i : Instr} {s : State} (h : InRun s) (hs : Standing s)
    (hd : descriptorAt s s.pcw = .ok i) : MachineInv (retire (wordsOf i) s) := by
  obtain ⟨hw, -, hlt, -⟩ := descriptorAt_eq_ok.1 hd
  have hord := h.ordinal
  refine InRun.machineInv_fetch ⟨h.st, h.errinfo, h.fits, hlt, ?_⟩ (hs.of_clear_eq (clear_advance _ s) rfl rfl)
    ⟨rfl, rfl, rfl, rfl, rfl, rfl⟩
  rw [advance_secp, advance_pcw]
  omega

/-! EMIT. -/

/-- A segment of samples that is not over goes to its next sample. -/
theorem PlainSegment.nextSample_pushSample {n : Nat} {s : State} (v : Sample) (h : PlainSegment n s)
    (hne : s.samp ≠ s.ncur) : PlainSegment n (nextSample (pushSample v s)) := by
  obtain ⟨hn, hs, h1, h2, h3, h4⟩ := h
  refine ⟨hn, ?_, h1, h2, h3, h4⟩
  show s.samp + 1 ≤ n
  omega

/-- The registers of a string do not know OUT. -/
theorem ByteSegment.pushSample {len base : Nat} {s : State} (v : Sample) (h : ByteSegment len base s) :
    ByteSegment len base (pushSample v s) := by
  obtain ⟨h1, h2, h3, h4, h5, h6⟩ := h
  exact ⟨h1, h2, h3, h4, h5, h6⟩

/-- The gate keeps the registers of a string that is not over, at a byte that is loaded: inside a bit interval they stay,
at the end of one the next bit of `SHREG` is loaded, and at the end of bit 7 the next byte is, when it is written. -/
theorem ByteSegment.gate {len base : Nat} {s : State} (h : ByteSegment len base s) (hn : s.ncur ≠ 0) (hb : s.bytep ≠ len)
    (hm : memRead s.bmem (base + s.bytep) = some s.shreg) (hc : s.ccur = cyc (sym s.shreg s.bitp.toNat)) :
    ByteSegment len base (gate len base s) := by
  obtain ⟨hncur, hbytep, -, -, hsamp, -⟩ := h
  have hlt : s.bytep < len := by omega
  have hpos : 0 < s.ncur := by omega
  by_cases hs : s.samp + 1 = s.ncur
  · by_cases h7 : s.bitp = 7
    · rw [gate_of_byte hs h7]
      rcases nextByte_cases len base { s with samp := 0 } with ⟨v, hv, he⟩ | ⟨hv, he⟩ <;> rw [he]
      · exact ⟨hncur, hlt, fun h0 => absurd h0 hn, fun _ => ⟨rfl, rfl⟩, fun _ => hpos, fun _ _ => .inl ⟨hv, rfl⟩⟩
      · exact ⟨hncur, hlt, fun h0 => absurd h0 hn, fun _ => ⟨rfl, rfl⟩, fun _ => hpos,
          fun _ hl => .inr ⟨hv hl, Nat.succ_pos _, rfl, rfl⟩⟩
    · have hlt' : ({ s with samp := 0 } : State).bytep < len := hlt
      rw [gate_of_bit hs h7, nextBit_of_lt hlt']
      exact ⟨hncur, hbytep, fun h0 => absurd h0 hn, fun ho => (ho.elim hn hb).elim, fun _ => hpos,
        fun _ _ => .inl ⟨hm, rfl⟩⟩
  · rw [gate_of_sample hs]
    refine ⟨hncur, hbytep, fun h0 => absurd h0 hn, fun ho => (ho.elim hn hb).elim, fun _ => ?_, fun _ _ => .inl ⟨hm, hc⟩⟩
    have := hsamp hpos
    show s.samp + 1 < s.ncur
    omega

/-- In a descriptor without bytes the next sample is a place in it. -/
theorem Loaded.nextSample_pushSample {i : Instr} {s : State} (v : Sample) (hi : ∀ len base, i ≠ .tonebytes len base)
    (hl : Loaded i s) (hx : exhausted i s = false) : Loaded i (nextSample (pushSample v s)) := by
  cases i with
  | silence dur => exact PlainSegment.nextSample_pushSample v hl (by simpa [exhausted] using hx)
  | tone dur rsvd freqs => exact PlainSegment.nextSample_pushSample v hl (by simpa [exhausted] using hx)
  | audio len base => exact PlainSegment.nextSample_pushSample v hl (by simpa [exhausted] using hx)
  | tonebytes len base => exact absurd rfl (hi len base)
  | mark => exact hl.elim
  | space => exact hl.elim
  | attnSingle => exact hl.elim
  | attnCombined => exact hl.elim

/-- One EMIT of a loaded descriptor that is not exhausted: an error at an unwritten element, or one sample and a place in
the same descriptor. A byte that is not loaded is unwritten, and its EMIT is the error (log 12). -/
theorem InRun.machineInv_emitOf {i : Instr} {s t : State} (h : InRun s) (hs : Standing s)
    (hd : descriptorAt s s.pcw = .ok i) (hc : fetchCheck i s = none) (hl : Loaded i s) (hx : exhausted i s = false)
    (he : emitOf i s = .next t) : MachineInv t := by
  obtain ⟨hw, -⟩ := descriptorAt_eq_ok.1 hd
  rcases emitOf_cases hw s with hr | ⟨hi, v, hr⟩ | ⟨len, base, v, rfl, hr⟩
  · cases hr.symm.trans he
    exact hs.machineInv_raise .uninit
  · obtain ⟨hroom, rfl⟩ := emitThen_eq_next.1 (hr.symm.trans he)
    exact h.machineInv_of_loaded (staysAtDescriptor_nextSample v s) ((hs.pushSample v hroom).of_clear_eq rfl rfl rfl)
      hd hc (hl.nextSample_pushSample v hi hx)
  · have hseg : ByteSegment len.toNat base.toNat s := hl
    have hle := hseg.bytep
    obtain ⟨hn, hb⟩ : s.ncur ≠ 0 ∧ s.bytep ≠ len.toNat := by simpa [exhausted] using hx
    rcases hseg.byte (by omega) (by omega) with ⟨hm, hcc⟩ | ⟨hm, -, hbit, hsamp⟩
    · obtain ⟨hroom, rfl⟩ := emitThen_eq_next.1 (hr.symm.trans he)
      exact h.machineInv_of_loaded (staysAtDescriptor_gate _ _ v s)
        ((hs.pushSample v hroom).of_clear_eq (clear_gate _ _ _) (gate_out _ _ _) (gate_outcnt _ _ _))
        hd hc ((hseg.pushSample v).gate hn hb hm hcc)
    · cases (emitTonebytes_of_unreadable hsamp hbit hm).symm.trans he
      exact hs.machineInv_raise .uninit

/-! The step of the block. -/

/-- Before the end of the plan the descriptor at `PCW` has been fetched: it passes its checks and is loaded. -/
theorem MachineInv.loaded {i : Instr} {s : State} (h : MachineInv s) (hst : s.st = .run)
    (hd : descriptorAt s s.pcw = .ok i) : fetchCheck i s = none ∧ Loaded i s := by
  obtain ⟨⟨-, -, -, hf⟩, -⟩ := h.run hst
  rcases hf with ⟨hp, -⟩ | ⟨j, hj, hc, hl⟩
  · obtain ⟨hw, -, hlt, -⟩ := descriptorAt_eq_ok.1 hd
    omega
  · obtain rfl := Except.ok.inj (hj.symm.trans hd)
    exact ⟨hc, hl⟩

/-- At the end of the plan no descriptor is loaded. -/
theorem MachineInv.betweenDescriptors_of_end {s : State} (h : MachineInv s) (hst : s.st = .run)
    (hp : s.pcw = s.plen.toNat) : BetweenDescriptors s := by
  obtain ⟨⟨-, -, -, hf⟩, -⟩ := h.run hst
  rcases hf with ⟨-, hb⟩ | ⟨i, hd, -, -⟩
  · exact hb
  · obtain ⟨hw, -, hlt, -⟩ := descriptorAt_eq_ok.1 hd
    omega

/-- Every step of the block keeps the invariant: FINISH at the end of the plan, else an error, RETIRE or an EMIT. -/
theorem MachineInv.blockStep {s t : State} (h : MachineInv s) (hb : blockStep s = .next t) : MachineInv t := by
  rcases blockStep_cases s with ⟨-, hs⟩ | ⟨hst, hp, hs⟩ | ⟨-, -, e, -, hs⟩ | ⟨hst, -, i, hd, hs⟩ <;> rw [hs] at hb
  · cases hb
    exact h
  · cases hb
    obtain ⟨h1, h2, h3, h4, h5, h6⟩ := h.betweenDescriptors_of_end hst hp
    exact (h.standing.of_clear_eq (clear_finish s) rfl rfl).machineInv_of_done rfl ⟨h1, h2, h3, h4, h5, h6⟩
      (h.inRun hst).errinfo
  · cases hb
    exact h.standing.machineInv_raise e
  · obtain ⟨hc, hl⟩ := h.loaded hst hd
    obtain ⟨hw, -⟩ := descriptorAt_eq_ok.1 hd
    rcases exec_descriptor_cases hw s with ⟨e, he, -⟩ | ⟨-, -, he⟩ | ⟨-, hx, he⟩
    · simp [hc] at he
    · cases he.symm.trans hb
      exact (h.inRun hst).machineInv_retire h.standing hd
    · exact (h.inRun hst).machineInv_emitOf h.standing hd hc hl hx (he.symm.trans hb)

/-! START. -/

/-- The end of START, with the working registers 0: a plan longer than PMEM is an error, any other is fetched. -/
theorem Standing.machineInv_startPlan {s : State} (h : Standing s) (hst : s.st = .run) (he : s.errinfo = 0)
    (hw : WorkClear s) : MachineInv (startPlan s) := by
  obtain ⟨hpcw, hsecp, h1, h2, h3, h4, h5, h6⟩ := hw
  simp only [startPlan]
  split
  · exact h.machineInv_raise .bounds
  · next hfits =>
    exact InRun.machineInv_fetch ⟨hst, he, Nat.not_lt.1 hfits, by omega, by omega⟩ h ⟨h1, h2, h3, h4, h5, h6⟩

theorem Standing.withBmem {s : State} {m : List Host.Cell} (h : Standing s) (hw : memWf m)
    (hb : memBelow m Config.bmemBytes) : Standing { s with bmem := m } := by
  obtain ⟨⟨h1, -, h3, h4, -, h6⟩, hr, hcnt, hlt⟩ := h
  exact ⟨⟨h1, hw, h3, h4, hb, h6⟩, hr.congr rfl rfl rfl, hcnt, hlt⟩

theorem Standing.withPlan {s : State} {m : List (Nat × BitVec 32)} (n : Word) (h : Standing s) (hw : memWf m)
    (hb : memBelow m Config.pmemWords) : Standing { s with pmem := m, plen := n } := by
  obtain ⟨⟨-, h2, h3, -, h5, h6⟩, hr, hcnt, hlt⟩ := h
  exact ⟨⟨hw, h2, h3, hb, h5, h6⟩, hr.congr rfl rfl rfl, hcnt, hlt⟩

/-- The strings of a warning that passes its checks fit BMEM: at most 268 and 20 bytes (42_protocol_framer R153). -/
theorem Standing.writeStrings {s : State} (h : Standing s) (hc : warningCheck s = none) : Standing (writeStrings s) := by
  obtain ⟨-, hloc, -, horg, -⟩ := (headerCheck_eq_none s).1 ((warningCheck_eq_none s).1 hc).1
  have hroom : 0 + (fmtHeader s ++ fmtEom).length ≤ Config.bmemBytes := by
    have := Config.le_bmemBytes
    rw [List.length_append, length_fmtHeader horg, length_fmtEom, headerLen]
    omega
  rw [Machine.writeStrings]
  exact h.withBmem (memWf_memWriteMany _ _ h.memory.bmem) (memBelow_memWriteMany _ hroom h.memory.bmemBelow)

/-- The plan of a warning fits PMEM: at most 27 words (44_section_sequencer R187). -/
theorem Standing.writePlan {s : State} (h : Standing s) : Standing (writePlan s) := by
  have hroom : 0 + (packInstrs (planInstrs s)).length ≤ Config.pmemWords := by
    have := Config.le_pmemWords
    have := length_packInstrs_planInstrs_le s
    omega
  rw [Machine.writePlan, appendPlan]
  exact h.withPlan _ (memWf_memWriteMany _ _ h.memory.pmem) (memBelow_memWriteMany _ hroom h.memory.pmemBelow)

/-- START ends in an error of its checks or in the fetch of a plan, in either mode. -/
theorem Standing.machineInv_start {s : State} (h : Standing s) : MachineInv (start s) := by
  cases hd : modeDirect s with
  | true =>
    rw [start_of_direct hd]
    exact h.openRun.machineInv_startPlan rfl rfl ⟨rfl, rfl, rfl, rfl, rfl, rfl, rfl, rfl⟩
  | false =>
    cases hc : warningCheck s with
    | some e =>
      rw [start_of_warning_error hd hc]
      exact h.openRun.machineInv_raise e
    | none =>
      rw [start_of_warning hd hc]
      have hc' : warningCheck (Machine.openRun s) = none := by rw [warningCheck_openRun, hc]
      exact (h.openRun.writeStrings hc').writePlan.machineInv_startPlan rfl rfl ⟨rfl, rfl, rfl, rfl, rfl, rfl, rfl, rfl⟩

/-! The accesses of the host. -/

/-- What a run leaves in a state, with everything the host owns as it is after reset: the counterpart of `clear`, so that
`runPart t = runPart s` says that `t` and `s` differ at most in what the host owns. -/
def runPart (s : State) : State :=
  { State.reset with
    pcw := s.pcw, secp := s.secp, bytep := s.bytep, bitp := s.bitp, samp := s.samp, ncur := s.ncur, ccur := s.ccur,
    shreg := s.shreg, st := s.st, outcnt := s.outcnt, errinfo := s.errinfo, out := s.out }

/-- Outside RUN the invariant speaks of the host's side in its memories and reserved bits alone. -/
theorem MachineInv.of_runPart_eq {s t : State} (h : MachineInv s) (hst : s.st ≠ .run) (hp : runPart t = runPart s)
    (hm : MemoryOk t) (hr : ReservedClear t) : MachineInv t := by
  have same {α : Type} (f : State → α) : f (runPart t) = f (runPart s) := congrArg f hp
  have hst' : t.st = s.st := same State.st
  have hcnt : t.outcnt = s.outcnt := same State.outcnt
  have hout : t.out = s.out := same State.out
  refine ⟨hm, hr, by rw [hcnt, hout, h.counted], by rw [hcnt]; exact h.bounded, fun hi => ?_, fun hi => ?_, fun hi => ?_,
    fun hi => ?_⟩ <;> rw [hst'] at hi
  · obtain ⟨⟨h1, h2, h3, h4, h5, h6, h7, h8⟩, ho, he⟩ := h.idle hi
    exact ⟨⟨(same State.pcw).trans h1, (same State.secp).trans h2, (same State.bytep).trans h3,
      (same State.bitp).trans h4, (same State.samp).trans h5, (same State.ncur).trans h6, (same State.ccur).trans h7,
      (same State.shreg).trans h8⟩, hout.trans ho, (same State.errinfo).trans he⟩
  · exact absurd hi hst
  · obtain ⟨⟨h1, h2, h3, h4, h5, h6⟩, he⟩ := h.done hi
    exact ⟨⟨(same State.bytep).trans h1, (same State.bitp).trans h2, (same State.samp).trans h3,
      (same State.ncur).trans h4, (same State.ccur).trans h5, (same State.shreg).trans h6⟩,
      (same State.errinfo).trans he⟩
  · obtain ⟨e, he⟩ := h.error hi
    exact ⟨e, (same errCodeOf).trans he⟩

/-- A value cut to the named bits of a register has its reserved bits clear. -/
theorem and_mask_and_not_mask (v m : Word) : (v &&& m) &&& ~~~m = 0 := by
  rw [BitVec.and_assoc, BitVec.and_not_self]
  exact BitVec.and_zero

/-- A write to a control register other than `CTRL` sets one register, cut to its named bits. -/
theorem MachineInv.writeCr {s : State} (n : Nat) (v : Word) (h : MachineInv s) (hst : s.st ≠ .run) :
    MachineInv (writeCr n v s) := by
  have hr := h.reserved
  unfold Machine.writeCr
  split
  case h_2 =>
    exact h.of_runPart_eq hst rfl (h.memory.congr rfl rfl rfl) ⟨and_mask_and_not_mask v cfgMask, hr.msgLen, hr.hr⟩
  case h_5 =>
    exact h.of_runPart_eq hst rfl (h.memory.congr rfl rfl rfl) ⟨hr.cfg, and_mask_and_not_mask v msgLenMask, hr.hr⟩
  case h_7 => exact h
  all_goals exact h.of_runPart_eq hst rfl (h.memory.congr rfl rfl rfl) (hr.congr rfl rfl rfl)

/-- A write to a header register sets one register, cut to its named bits. -/
theorem MachineInv.hostWriteHr {s : State} (n : Fin 69) (v : Word) (h : MachineInv s) (hst : s.st ≠ .run) :
    MachineInv (hostWriteHr n v s) := by
  obtain ⟨hcfg, hlen, hhr⟩ := h.reserved
  rw [hostWriteHr_of_not_run n v hst]
  refine h.of_runPart_eq hst rfl (h.memory.congr rfl rfl rfl) ⟨hcfg, hlen, fun k => ?_⟩
  by_cases hk : n.val = k.val
  · simp [hk, and_mask_and_not_mask]
  · simpa [hk] using hhr k

/-- Every access of the host outside RUN keeps the invariant. -/
theorem MachineInv.hostAccess_of_not_run {s : State} (op : HostOp) (h : MachineInv s) (hst : s.st ≠ .run)
    (hop : op ≠ .reset) : MachineInv (hostAccess op s) := by
  obtain ⟨h1, h2, h3, h4, h5, h6⟩ := h.memory
  have hr := h.reserved
  cases op with
  | writeCr n v =>
    by_cases hn : n = 0
    · subst hn
      show MachineInv (writeCtrl v s)
      rcases writeCtrl_cases v s with hw | ⟨-, hw⟩ | ⟨-, hw⟩ <;> rw [hw]
      · exact h
      · exact h.standing.machineInv_clear
      · exact h.standing.machineInv_start
    · show MachineInv (hostWriteCr n v s)
      rw [hostWriteCr_of_not_run v hn hst]
      exact h.writeCr n.val v hst
  | writeHr n v => exact h.hostWriteHr n v hst
  | writePmem a v =>
    rw [hostAccess_writePmem]
    rcases hostWriteMem_cases _ a.toNat _ s with ⟨-, hw⟩ | ⟨-, ha, hw⟩ <;> rw [hw]
    · exact h
    · exact h.of_runPart_eq hst rfl ⟨memWf_memWrite _ v h1, h2, h3, memBelow_memWrite v ha h4, h5, h6⟩
        (hr.congr rfl rfl rfl)
  | writeBmem a v =>
    rw [hostAccess_writeBmem]
    rcases hostWriteMem_cases _ a.toNat _ s with ⟨-, hw⟩ | ⟨-, ha, hw⟩ <;> rw [hw]
    · exact h
    · exact h.of_runPart_eq hst rfl ⟨h1, memWf_memWrite _ v h2, h3, h4, memBelow_memWrite v ha h5, h6⟩
        (hr.congr rfl rfl rfl)
  | writeAmem a v =>
    rw [hostAccess_writeAmem]
    rcases hostWriteMem_cases _ a.toNat _ s with ⟨-, hw⟩ | ⟨-, ha, hw⟩ <;> rw [hw]
    · exact h
    · exact h.of_runPart_eq hst rfl ⟨h1, h2, memWf_memWrite _ v h3, h4, h5, memBelow_memWrite v ha h6⟩
        (hr.congr rfl rfl rfl)
  | reset => exact absurd rfl hop
  | hold => exact h

/-! The list of accesses to come, of which the invariant says nothing. -/

theorem PlainSegment.withInputs {n : Nat} {s : State} (ops : List HostOp) (h : PlainSegment n s) :
    PlainSegment n { s with inputs := ops } := by
  obtain ⟨h1, h2, h3, h4, h5, h6⟩ := h
  exact ⟨h1, h2, h3, h4, h5, h6⟩

theorem ByteSegment.withInputs {len base : Nat} {s : State} (ops : List HostOp) (h : ByteSegment len base s) :
    ByteSegment len base { s with inputs := ops } := by
  obtain ⟨h1, h2, h3, h4, h5, h6⟩ := h
  exact ⟨h1, h2, h3, h4, h5, h6⟩

theorem Loaded.withInputs {i : Instr} {s : State} (ops : List HostOp) (h : Loaded i s) :
    Loaded i { s with inputs := ops } := by
  cases i with
  | silence dur => exact PlainSegment.withInputs ops h
  | tonebytes len base => exact ByteSegment.withInputs ops h
  | tone dur rsvd freqs => exact PlainSegment.withInputs ops h
  | audio len base => exact PlainSegment.withInputs ops h
  | mark => exact h
  | space => exact h
  | attnSingle => exact h
  | attnCombined => exact h

theorem MachineInv.withInputs {s : State} (ops : List HostOp) (h : MachineInv s) :
    MachineInv { s with inputs := ops } := by
  have hm : MemoryOk { s with inputs := ops } := h.memory.congr rfl rfl rfl
  have hr : ReservedClear { s with inputs := ops } := h.reserved.congr rfl rfl rfl
  by_cases hst : s.st = .run
  · obtain ⟨⟨hfits, hinside, hordinal, hf⟩, he⟩ := h.run hst
    have hs : Standing { s with inputs := ops } := ⟨hm, hr, h.counted, h.bounded⟩
    refine hs.machineInv_of_run hst ⟨hfits, hinside, hordinal, ?_⟩ he
    rcases hf with ⟨hp, h1, h2, h3, h4, h5, h6⟩ | ⟨i, hd, hc, hl⟩
    · exact .inl ⟨hp, h1, h2, h3, h4, h5, h6⟩
    · exact .inr ⟨i, (descriptorAt_congr _ rfl rfl).trans hd, (fetchCheck_congr i rfl rfl).trans hc, hl.withInputs ops⟩
  · exact h.of_runPart_eq hst rfl hm hr

/-! Reset, and the step. -/

/-- Settles O51: IDLE, with every register 0 and every memory empty. -/
theorem resetMeetsTheMachineInvariant : Obligations.ResetMeetsTheMachineInvariant := by
  have hm : MemoryOk State.reset := ⟨.nil, .nil, .nil, by simp [State.reset], by simp [State.reset], by simp [State.reset]⟩
  have hr : ReservedClear State.reset := ⟨rfl, rfl, fun n => by simp [State.reset]⟩
  have hs : Standing State.reset := ⟨hm, hr, rfl, Nat.two_pow_pos 64⟩
  exact hs.machineInv_of_idle rfl ⟨rfl, rfl, rfl, rfl, rfl, rfl, rfl, rfl⟩ rfl rfl

/-- Every access of the host keeps the invariant: a reset in every state, the others ignored in RUN. -/
theorem MachineInv.hostAccess {s : State} (op : HostOp) (h : MachineInv s) : MachineInv (hostAccess op s) := by
  by_cases hop : op = .reset
  · subst hop
    exact resetMeetsTheMachineInvariant.withInputs s.inputs
  · by_cases hst : s.st = .run
    · rw [hostAccess_of_run hst hop]
      exact h
    · exact h.hostAccess_of_not_run op hst hop

/-- Settles O52: a step is one of the block or one access of the host, and each keeps the invariant. -/
theorem stepKeepsTheMachineInvariant : Obligations.StepKeepsTheMachineInvariant := by
  intro s t h hs
  cases hi : s.inputs with
  | nil =>
    rw [step_of_no_inputs hi] at hs
    exact h.blockStep hs
  | cons op rest =>
    by_cases hop : op = .hold
    · subst hop
      rw [step_of_hold hi] at hs
      exact (h.withInputs rest).blockStep hs
    · rw [step_of_access hi hop] at hs
      cases hs
      exact (h.withInputs rest).hostAccess op

/-! The bounds of the working registers (10_state R23). -/

/-- A segment of any rate and duration has fewer than 2^46 samples: 2^62 ticks of samples at most, 100000 to a second. -/
theorem ncount_lt {sr ticks : Nat} (hs : sr < 2 ^ 32) (ht : ticks < 2 ^ 30) : ncount sr ticks < 2 ^ 46 := by
  have h : sr * ticks < 2 ^ 32 * 2 ^ 30 := Nat.mul_lt_mul'' hs ht
  rw [ncount, Config.ticksPerSecond, Nat.div_lt_iff_lt_mul (by norm_num)]
  omega

/-- In a loaded descriptor `SAMP <= NCUR < 2^46` and `BYTEP < 2^30`. -/
theorem Loaded.bounds {i : Instr} {s : State} (h : Loaded i s) :
    s.samp ≤ s.ncur ∧ s.ncur < 2 ^ 46 ∧ s.bytep < 2 ^ 30 := by
  have plain {n : Nat} (hn : n < 2 ^ 46) (hp : PlainSegment n s) :
      s.samp ≤ s.ncur ∧ s.ncur < 2 ^ 46 ∧ s.bytep < 2 ^ 30 := by
    obtain ⟨hncur, hsamp, hbytep, -⟩ := hp
    omega
  cases i with
  | silence dur => exact plain (ncount_lt s.srate.isLt dur.isLt) h
  | tone dur rsvd freqs => exact plain (ncount_lt s.srate.isLt dur.isLt) h
  | audio len base => exact plain (lt_trans len.isLt (by norm_num)) h
  | tonebytes len base =>
    obtain ⟨hncur, hbytep, -, hended, hsamp, -⟩ := h
    have hbit : nbit s.srate.toNat < 2 ^ 46 := ncount_lt s.srate.isLt (by decide)
    refine ⟨?_, hncur ▸ hbit, lt_of_le_of_lt hbytep len.isLt⟩
    by_cases h0 : s.ncur = 0
    · rw [(hended (.inl h0)).1]
      exact Nat.zero_le _
    · exact (hsamp (Nat.pos_of_ne_zero h0)).le
  | mark => exact h.elim
  | space => exact h.elim
  | attnSingle => exact h.elim
  | attnCombined => exact h.elim

/-- Settles O53: the bounds of a loaded descriptor, or of registers that are 0, and the position inside the plan. -/
theorem workingRegistersNeverWrap : Obligations.WorkingRegistersNeverWrap := by
  intro s h hst
  obtain ⟨⟨hfits, hinside, hordinal, hf⟩, -⟩ := h.run hst
  have hb : s.samp ≤ s.ncur ∧ s.ncur < 2 ^ 46 ∧ s.bytep < 2 ^ 30 := by
    rcases hf with ⟨-, hb⟩ | ⟨i, -, -, hl⟩
    · obtain ⟨hbytep, -, hsamp, hncur, -⟩ := hb
      omega
    · exact hl.bounds
  obtain ⟨h1, h2, h3⟩ := hb
  exact ⟨h1, h2, h3, hordinal, hinside, hfits⟩

end Sys2Proof.Safety
end

section
/-! PROOFS. The plan and the strings in memory: a packed list of descriptors decodes to itself, and a TONEBYTES emits the
symbols of its bytes, least significant bit first (20_memory R51, R55, 30_encoding R76, R80, 41_bit_modulator R120,
R129). -/

namespace Sys2Proof

/-! The decoder on packed words. -/

/-- The first words of a packed plan decode to its first descriptor, with the words after it left over. -/
theorem decode_encodeWords_append {i : Instr} (hw : wordsOf i ≠ 0) (he : encodable i = true) (rest : List Word) :
    decode (encodeWords i ++ rest) = .ok (i, rest) := by
  have hread : decodeWith (wordAt (encodeWords i ++ rest)) = .ok i :=
    decodeWith_eq_ok.2 ⟨hw, he, fun j hj => by simp [wordAt, List.getElem?_append_left hj, hj]⟩
  simp [decode, hread, ← length_encodeWords]

@[simp] theorem decodeAll_nil (fuel : Nat) : decodeAll fuel [] = some [] := by cases fuel <;> rfl

/-- Where a descriptor can be read, the list begins with it and goes on with what the words after it are. -/
theorem decodeAll_of_decode {ws rest : List Word} {i : Instr} (fuel : Nat) (h : decode ws = .ok (i, rest)) :
    decodeAll (fuel + 1) ws = (decodeAll fuel rest).map (i :: ·) := by
  cases ws with
  | nil => cases h
  | cons w ws => rw [decodeAll, h]

end Sys2Proof

namespace Sys2Proof.Machine

open Sys2Proof.Safety

/-- Any fuel that counts the descriptors is enough to decode their packed words. -/
theorem decodeAll_packInstrs {is : List Instr} (his : ∀ i ∈ is, encodable i = true ∧ wordsOf i ≠ 0) {fuel : Nat}
    (hf : is.length ≤ fuel) : decodeAll fuel (packInstrs is) = some is := by
  induction is generalizing fuel with
  | nil => exact decodeAll_nil fuel
  | cons i is ih =>
    obtain ⟨he, hw⟩ := his i List.mem_cons_self
    obtain ⟨fuel, rfl⟩ : ∃ n, fuel = n + 1 := Nat.exists_eq_add_of_le' (Nat.le_of_add_left_le hf)
    have hrest : decodeAll fuel (packInstrs is) = some is :=
      ih (fun j hj => his j (List.mem_cons_of_mem i hj)) (Nat.le_of_succ_le_succ hf)
    have hpack : packInstrs (i :: is) = encodeWords i ++ packInstrs is := List.flatMap_cons
    rw [hpack, decodeAll_of_decode fuel (decode_encodeWords_append hw he _), hrest]
    rfl

/-- A packed plan has a word or more for each of its descriptors. -/
theorem length_le_length_packInstrs {is : List Instr} (his : ∀ i ∈ is, wordsOf i ≠ 0) :
    is.length ≤ (packInstrs is).length := by
  rw [length_packInstrs, ← List.length_map wordsOf]
  refine List.length_le_sum_of_one_le _ fun n hn => ?_
  obtain ⟨i, hi, rfl⟩ := List.mem_map.1 hn
  exact Nat.one_le_iff_ne_zero.2 (his i hi)

/-- Settles O4: by induction on the descriptors, since each leaves exactly the words of those after it. -/
theorem packedPlanDecodesToItsDescriptors : Obligations.PackedPlanDecodesToItsDescriptors :=
  fun _ his => decodeAll_packInstrs his (length_le_length_packInstrs fun i hi => (his i hi).2)

/-! A symbol and the bit of a string it stands for. -/

/-- The meaning of a symbol is the bit segment with its cycle count (41_bit_modulator R122 to R124). -/
theorem exec_decodeSymbol (b : Bool) (s : State) : exec (decodeSymbol b) s = emitSymbol (cyc b) s := by
  cases b <;> rfl

/-- Inside a bit interval a symbol emits the sample of its bit. -/
theorem emitSymbol_of_lt {c : BitVec 3} {s : State} (h : s.samp < nbit s.srate.toNat) :
    emitSymbol c s = emitThen (bitSample (nbit s.srate.toNat) c.toNat s.samp) nextSample s := by
  rw [emitSymbol, if_pos h]

/-- Inside a string a TONEBYTES that raises no error is at a byte that is loaded, and emits the sample of its current bit:
it is not exhausted, and at a byte that is not loaded its EMIT is the error (log 12). -/
theorem emit_of_exec_tonebytes {len : BitVec 30} {base : Word} {s t : State}
    (hseg : ByteSegment len.toNat base.toNat s) (hn : s.ncur ≠ 0) (hb : s.bytep < len.toNat)
    (h : exec (.tonebytes len base) s = .next t) (ht : t.st ≠ .error) :
    s.ccur = cyc (sym s.shreg s.bitp.toNat) ∧
      emitThen (bitSample s.ncur s.ccur.toNat s.samp) (gate len.toNat base.toNat) s = .next t := by
  have hw : wordsOf (.tonebytes len base) ≠ 0 := Nat.succ_ne_zero _
  rcases exec_descriptor_cases hw s with ⟨e, -, he⟩ | ⟨-, hx, -⟩ | ⟨-, -, he⟩
  · cases he.symm.trans h
    exact absurd (raise_st e s) ht
  · simp [exhausted, hn, hb.ne] at hx
  · have hemit : emitTonebytes len.toNat base.toNat s = .next t := he.symm.trans h
    rcases hseg.byte (Nat.pos_of_ne_zero hn) hb with ⟨hm, hc⟩ | ⟨hm, -, hbit, hsamp⟩
    · rw [emitTonebytes_of_readable fun _ _ => by simp [hm]] at hemit
      exact ⟨hc, hemit⟩
    · cases (emitTonebytes_of_unreadable hsamp hbit hm).symm.trans hemit
      exact absurd (raise_st .uninit s) ht

/-- Settles O19: the TONEBYTES and the symbol emit the same sample, since `NCUR` is `NBIT` and `CCUR` the cycle count of
bit `BITP` of `SHREG`; they differ in the move after it alone. -/
theorem tonebytesEmitsItsSymbol : Obligations.TonebytesEmitsItsSymbol := by
  intro len base s t hseg hn hb h hst hs
  obtain ⟨hc, hemit⟩ := emit_of_exec_tonebytes hseg hn hb h (hst ▸ hs)
  obtain ⟨hroom, rfl⟩ := emitThen_eq_next.1 hemit
  have hsamp : s.samp < nbit s.srate.toNat := hseg.ncur ▸ hseg.samp (Nat.pos_of_ne_zero hn)
  have hsym : exec (decodeSymbol (s.shreg.getLsbD s.bitp.toNat)) s =
      emitThen (bitSample s.ncur s.ccur.toNat s.samp) nextSample s := by
    rw [exec_decodeSymbol, emitSymbol_of_lt hsamp, ← hseg.ncur, hc]
    rfl
  exact ⟨_, hsym.trans (emitThen_of_room hroom), by simp, by simp⟩

end Sys2Proof.Machine
end

section
/-! PROOFS. Decoding and encoding are inverse, word for word, and what the decoder reads by the tag of word 0
(30_encoding R70 to R76, R89, R90). -/

namespace Sys2Proof

/-! The two round trips. -/

/-- A descriptor is written as its PMEM words (30_encoding R72 to R75). -/
theorem encode_of_descriptor {i : Instr} (hw : wordsOf i ≠ 0) : encode i = .words (encodeWords i) := by
  cases i with
  | silence dur => rfl
  | tonebytes len base => rfl
  | tone dur rsvd freqs => rfl
  | audio len base => rfl
  | mark => exact absurd rfl hw
  | space => exact absurd rfl hw
  | attnSingle => exact absurd rfl hw
  | attnCombined => exact absurd rfl hw

/-- Bits that are no descriptor, a symbol or `CFG.ATTNK`, decode to what they stand for (30_encoding R80, R82). -/
theorem decodeCode_encode_of_bit {i : Instr} (hw : wordsOf i = 0) : decodeCode (encode i) = .ok (i, []) := by
  cases i with
  | silence dur => exact absurd hw (Nat.succ_ne_zero _)
  | tonebytes len base => exact absurd hw (Nat.succ_ne_zero _)
  | tone dur rsvd freqs => simp [wordsOf] at hw
  | audio len base => exact absurd hw (Nat.succ_ne_zero _)
  | mark => rfl
  | space => rfl
  | attnSingle => rfl
  | attnCombined => rfl

/-- The words of a descriptor decode to it with nothing left over. -/
theorem decode_encodeWords {i : Instr} (hw : wordsOf i ≠ 0) (he : encodable i = true) :
    decode (encodeWords i) = .ok (i, []) := by
  simpa using decode_encodeWords_append hw he []

/-- Settles O1: a descriptor is read back from its words, whatever follows them, and a symbol or an attention kind from
its bit. -/
theorem decodeOfEncodeIsTheInstruction : Obligations.DecodeOfEncodeIsTheInstruction := by
  intro i he
  refine ⟨?_, fun hw rest => decode_encodeWords_append hw he rest⟩
  by_cases hw : wordsOf i = 0
  · exact decodeCode_encode_of_bit hw
  · rw [encode_of_descriptor hw]
    exact decode_encodeWords hw he

theorem wordAt_eq_ok {ws : List Word} {k : Nat} {w : Word} : wordAt ws k = .ok w ↔ ws[k]? = some w := by
  rw [wordAt]
  cases ws[k]? <;> simp

/-- The decoder answers a descriptor and a rest exactly where the list is the descriptor's words and then the rest. -/
theorem decode_eq_ok {ws rest : List Word} {i : Instr} :
    decode ws = .ok (i, rest) ↔ wordsOf i ≠ 0 ∧ encodable i = true ∧ ws = encodeWords i ++ rest := by
  constructor
  · intro h
    rw [decode] at h
    cases hd : decodeWith (wordAt ws) with
    | error e => simp [hd] at h
    | ok j =>
      simp only [hd, Except.ok.injEq, Prod.mk.injEq] at h
      obtain ⟨rfl, rfl⟩ := h
      obtain ⟨hw, he, hread⟩ := decodeWith_eq_ok.1 hd
      have hpre : encodeWords j <+: ws := List.prefix_iff_getElem?.2 fun k hk => wordAt_eq_ok.1 (hread k hk)
      refine ⟨hw, he, ?_⟩
      rw [← length_encodeWords, List.prefix_append_drop hpre]
      simp
  · rintro ⟨hw, he, rfl⟩
    exact decode_encodeWords_append hw he rest

/-- Settles O2: the decoder has read each of the descriptor's words at its place, so they are how the list begins. -/
theorem encodeOfDecodeIsTheWords : Obligations.EncodeOfDecodeIsTheWords := by
  intro ws i rest h
  obtain ⟨hw, he, hws⟩ := decode_eq_ok.1 h
  exact ⟨he, hw, hws⟩

/-! What the decoder reads, by the tag of word 0 (30_encoding R70). -/

section
variable {w0 : Word}

theorem decode_of_tag_silence (ht : tagOf w0 = 0) (ws : List Word) :
    decode (w0 :: ws) = .ok (.silence (opaOf w0), ws) :=
  decode_eq_ok.2 ⟨Nat.succ_ne_zero _, rfl, by simp [encodeWords, ← ht, word0_tagOf_opaOf]⟩

theorem decode_of_tag_tonebytes (ht : tagOf w0 = 1) (w1 : Word) (ws : List Word) :
    decode (w0 :: w1 :: ws) = .ok (.tonebytes (opaOf w0) w1, ws) :=
  decode_eq_ok.2 ⟨Nat.succ_ne_zero _, rfl, by simp [encodeWords, ← ht, word0_tagOf_opaOf]⟩

/-- A TONE takes the `NF` words after word 1 as its frequencies (30_encoding R74, R76). -/
theorem decode_of_tag_tone (ht : tagOf w0 = 2) {w1 : Word} {ws : List Word} (hl : nfOf w1 ≤ ws.length) :
    decode (w0 :: w1 :: ws) = .ok (.tone (opaOf w0) (rsvdOf w1) (ws.take (nfOf w1)), ws.drop (nfOf w1)) := by
  have hlen : (ws.take (nfOf w1)).length = nfOf w1 := List.length_take_of_le hl
  refine decode_eq_ok.2 ⟨by simp [wordsOf], by simpa only [encodable, hlen, decide_eq_true_eq] using nfOf_lt w1, ?_⟩
  simp [encodeWords, hlen, ← ht, word0_tagOf_opaOf, toneWord1_rsvdOf_nfOf]

theorem decode_of_tag_audio (ht : tagOf w0 = 3) (w1 : Word) (ws : List Word) :
    decode (w0 :: w1 :: ws) = .ok (.audio (opaOf w0) w1, ws) :=
  decode_eq_ok.2 ⟨Nat.succ_ne_zero _, rfl, by simp [encodeWords, ← ht, word0_tagOf_opaOf]⟩

end

/-- Settles O3: each of the four tags begins a descriptor, and 17 words are enough for the longest. -/
theorem everyWordBeginsADescriptor : Obligations.EveryWordBeginsADescriptor := by
  intro w0 ws hl
  obtain ⟨w1, ws, rfl⟩ := List.exists_cons_of_length_pos (Nat.lt_of_lt_of_le (Nat.succ_pos 15) hl)
  have hnf : nfOf w1 ≤ ws.length := by
    have := nfOf_lt w1
    rw [List.length_cons] at hl
    omega
  have hopa : w0.extractLsb' 0 30 = opaOf w0 := rfl
  have htag : w0.extractLsb' 30 2 = tagOf w0 := rfl
  rw [hopa, htag]
  rcases tag_cases (tagOf w0) with ht | ht | ht | ht
  · exact ⟨_, _, decode_of_tag_silence ht _, by simp [ht]⟩
  · exact ⟨_, _, decode_of_tag_tonebytes ht _ _, by simp [ht]⟩
  · exact ⟨_, _, decode_of_tag_tone ht hnf, by simp [ht]⟩
  · exact ⟨_, _, decode_of_tag_audio ht _ _, by simp [ht]⟩

/-- Settles O5: the eight rows are the encoder's words for their instructions, so they decode to them. -/
theorem workedEncodingsDecode : Obligations.WorkedEncodingsDecode :=
  ⟨decode_encodeWords (i := .silence 100000) (by decide) rfl, decode_encodeWords (i := .silence 400000) (by decide) rfl,
    decode_encodeWords (i := .silence 0) (by decide) rfl, decode_encodeWords (i := .tonebytes 58 0) (by decide) rfl,
    decode_encodeWords (i := .tonebytes 20 58) (by decide) rfl,
    decode_encodeWords (i := .tone 800000 0 [1050000]) (by decide) rfl,
    decode_encodeWords (i := .tone 800000 0 [853000, 960000]) (by decide) rfl,
    decode_encodeWords (i := .audio 220500 0) (by decide) rfl⟩

end Sys2Proof
end

section
/-! PROOFS. The assembler's operands and the expansions of the pseudo-instructions (30_encoding R86, R87). -/

namespace Sys2Proof.Machine

/-! Seconds. -/

/-- A decimal number of `scale`-ths that fits its field is exactly that many units. -/
theorem scaled_mkRat {scale limit n : Nat} (hs : scale ≠ 0) (hn : n < limit) :
    scaled scale limit (mkRat n scale) = some n := by
  have hden : ((mkRat n scale).den : Int) ≠ 0 := Int.natCast_ne_zero.2 (mkRat n scale).den_nz
  have hmul : (mkRat n scale).num * scale = n * (mkRat n scale).den :=
    ((Rat.mkRat_eq_iff hs (mkRat n scale).den_nz).1 (Rat.mkRat_self (mkRat n scale)).symm).symm
  have hnum : 0 ≤ (mkRat n scale).num := Rat.num_nonneg.2 (Rat.mkRat_nonneg (Int.natCast_nonneg n) scale)
  rw [scaled, hmul, Int.mul_emod_left, Int.mul_ediv_cancel _ hden, if_pos ⟨rfl, hnum, Int.ofNat_lt.2 hn⟩,
    Int.toNat_natCast]

/-- A number of ticks below 2^30 is a duration field. -/
theorem asmSeconds_mkRat {ticks : Nat} (ht : ticks < 2 ^ 30) :
    asmSeconds (mkRat ticks 100000) = some (BitVec.ofNat 30 ticks) := by
  rw [asmSeconds, Config.ticksPerSecond, scaled_mkRat (Nat.succ_ne_zero _) ht]
  rfl

/-- An attention line is refused below 8.0 s, and is otherwise a TONE of that duration. -/
theorem asmAttn_mkRat {ticks : Nat} (ht : ticks < 2 ^ 30) (freqs : List Word) :
    asmAttn (mkRat ticks 100000) freqs =
      if ticks < 800000 then none else some (.tone (BitVec.ofNat 30 ticks) 0 freqs) := by
  have hmin : Config.attnMin = 800000 := rfl
  simp only [asmAttn, asmSeconds_mkRat ht, BitVec.toNat_ofNat, Nat.mod_eq_of_lt ht, hmin]

/-! Strings. -/

/-- A string whose length fits its field is its bytes in BMEM and the TONEBYTES that sends them. -/
theorem asmString_of_fits {bs : List Byte} (hl : bs.length < 2 ^ 30) (base : Word) :
    asmString base.toNat bs =
      some [.initBytes base.toNat bs, .descriptor (.tonebytes (BitVec.ofNat 30 bs.length) base)] := by
  rw [asmString, asmBlock, if_pos ⟨hl, base.isLt⟩, BitVec.ofNat_toNat, BitVec.setWidth_eq]
  rfl

/-- The header string of registers that pass HdrBuild has at most 51 + 7 * 31 bytes (42_protocol_framer R149, R151). -/
theorem length_fmtHeader_le {s : State} (h : headerCheck s = none) : (fmtHeader s).length ≤ 268 := by
  obtain ⟨-, hloc, -, horg, -⟩ := (headerCheck_eq_none s).1 h
  rw [length_fmtHeader horg, headerLen]
  omega

theorem asmHeader_of_check {s : State} (h : headerCheck s = none) (base : Nat) :
    asmHeader base s = asmString base (fmtHeader s) := by
  rw [asmHeader, h]

theorem asmHeader_of_check_fails {s : State} (h : headerCheck s ≠ none) (base : Nat) : asmHeader base s = none := by
  obtain ⟨e, he⟩ := Option.ne_none_iff_exists'.1 h
  rw [asmHeader, he]

theorem asmWarning_of_check {s : State} (h : warningCheck s = none) :
    asmWarning s = some ((planInstrs s).map .descriptor) := by
  rw [asmWarning, h]

theorem asmWarning_of_check_fails {s : State} (h : warningCheck s ≠ none) : asmWarning s = none := by
  obtain ⟨e, he⟩ := Option.ne_none_iff_exists'.1 h
  rw [asmWarning, he]

/-- Settles O60: each line is its operands' equation; the seconds are a whole number of ticks, and a string always fits
the length field of its TONEBYTES. -/
theorem pseudoInstructionsExpand : Obligations.PseudoInstructionsExpand := by
  intro s ticks ht
  refine ⟨fun hmin => ?attn, fun hmin => ?short, ?silence, rfl, fun h base => ?header,
    fun h base => asmHeader_of_check_fails h base.toNat, fun base => ?eom, asmWarning_of_check, asmWarning_of_check_fails⟩
  case attn =>
    simp only [assembleLine, asmAttn_mkRat ht, if_neg (Nat.not_lt.2 hmin)]
    exact ⟨rfl, rfl⟩
  case short =>
    simp only [assembleLine, asmAttn_mkRat ht, if_pos hmin]
    exact ⟨rfl, rfl⟩
  case silence =>
    rw [assembleLine, asmSeconds_mkRat ht]
    rfl
  case header =>
    have hl : (fmtHeader s).length < 2 ^ 30 := Nat.lt_of_le_of_lt (length_fmtHeader_le h) (by decide)
    rw [assembleLine, asmHeader_of_check h, asmString_of_fits hl]
  case eom =>
    have hl : fmtEom.length < 2 ^ 30 := by decide
    rw [assembleLine, asmString_of_fits hl, length_fmtEom]
    rfl

end Sys2Proof.Machine
end

section
/-! PROOFS. The tone generator: the properties of the numerics, the single and the multi form in closed form, the bounds
P2 and M2 give a TONE, and what the meaning of a descriptor reports and emits (40_tone_generator R101 to R115). -/

namespace Sys2Proof.Machine

/-! Sample counts. -/

/-- Settles O43: the division of naturals in `ncount` is the floor of the quotient. -/
theorem sampleCountIsTheExactFloor : Obligations.SampleCountIsTheExactFloor := by
  intro sr ticks
  have hquot : (sr : Rat) * ((ticks : Rat) / 100000) = ((sr * ticks : Nat) : Rat) / (100000 : Nat) := by
    push_cast
    ring
  exact ⟨by rw [hquot, Rat.floor_natCast_div_natCast]; rfl, rfl⟩

/-! The numerics. -/

/-- Property P0 of `TONE_SAMPLE` (40_tone_generator R103). -/
@[simp] theorem toneSample_zero : toneSample 0 = posZero := by
  simp only [toneSample, if_true]

/-- Property M3 of `MIX` (40_tone_generator R109). -/
@[simp] theorem mix_singleton (v : Sample) : mix [v] = v := rfl

/-- Property M0 of `MIX` (40_tone_generator R109). -/
theorem mix_of_forall_posZero {vs : List Sample} (hne : vs ≠ []) (h : ∀ v ∈ vs, v = posZero) : mix vs = posZero := by
  match vs with
  | [] => exact absurd rfl hne
  | [v] => exact h v List.mem_cons_self
  | v :: w :: rest =>
    have hall : (v :: w :: rest).all (· == posZero) = true := List.all_eq_true.2 fun u hu => beq_iff_eq.2 (h u hu)
    simp only [mix, hall, if_true]

/-- Settles O44: each property is a branch of the definition or a value brought into range. -/
theorem numericsHaveTheirProperties : Obligations.NumericsHaveTheirProperties :=
  ⟨toneSample_zero, inUnit_toneSample, fun _ => mix_of_forall_posZero, fun _ => inUnit_mix, mix_singleton⟩

/-! The single form. -/

/-- The single form in one formula: its degenerate lengths fit it too, since the one sample of `N = 1` has phase 0. -/
theorem single_eq_map (n : Nat) (c : Rat) :
    single n c = (List.range n).map fun i : Nat => toneSample ((i : Rat) * c / ((n : Rat) - 1)) := by
  match n with
  | 0 => rfl
  | 1 => simp [single]
  | n + 2 => simp [single]

theorem length_single (n : Nat) (c : Rat) : (single n c).length = n := by simp [single_eq_map]

theorem getElem?_single {n i : Nat} (c : Rat) (hi : i < n) :
    (single n c)[i]? = some (toneSample ((i : Rat) * c / ((n : Rat) - 1))) := by
  simp [single_eq_map, hi]

/-- The single form begins with `+0.0` (40_tone_generator R106 (a)). -/
theorem getElem?_single_zero {n : Nat} (c : Rat) (hn : 1 ≤ n) : (single n c)[0]? = some posZero := by
  simp [getElem?_single c hn]

/-- The single form ends at its whole number of cycles (40_tone_generator R106 (b)). -/
theorem getElem?_single_last {n : Nat} (c : Rat) (hn : 2 ≤ n) : (single n c)[n - 1]? = some (toneSample c) := by
  have hcast : ((n - 1 : Nat) : Rat) = (n : Rat) - 1 := Nat.cast_pred (by omega)
  have hne : (n : Rat) - 1 ≠ 0 := by
    rw [← hcast]
    exact Nat.cast_ne_zero.2 (by omega)
  rw [getElem?_single c (by omega), hcast, mul_div_cancel_left₀ c hne]

theorem inUnit_of_mem_single {n : Nat} {c : Rat} {v : Sample} (hv : v ∈ single n c) : inUnit v = true := by
  rw [single_eq_map] at hv
  obtain ⟨i, -, rfl⟩ := List.mem_map.1 hv
  exact inUnit_toneSample _

/-- Settles O46: from the one formula of the single form. -/
theorem singleForm : Obligations.SingleForm := fun n c =>
  ⟨length_single n c, rfl, rfl, fun _ _ hi => getElem?_single c hi, getElem?_single_zero c, getElem?_single_last c,
    fun _ => inUnit_of_mem_single⟩

/-! The multi form. -/

/-- The multi form in one formula: a buffer of `N + 1` samples has phase divisor `N`, and without its last sample the mix
has `N` (40_tone_generator R108). -/
theorem multi_eq_map (sr ticks : Nat) (fs : List Rat) :
    multi sr ticks fs = (List.range (ncount sr ticks)).map fun i : Nat => mix (fs.map fun f =>
      toneSample ((i : Rat) * f * ((ticks : Rat) / 100000) / (ncount sr ticks : Rat))) := by
  have hsec : seconds ticks = (ticks : Rat) / 100000 := Rat.mkRat_eq_div _ _
  simp only [multi, List.range_succ, List.map_append, List.map_singleton, List.dropLast_concat, List.map_map]
  refine List.map_congr_left fun i hi => congrArg mix (List.map_congr_left fun f _ => ?_)
  have hlt : i < ncount sr ticks + 1 := Nat.lt_succ_of_lt (List.mem_range.1 hi)
  have hphase : (i : Rat) * (f * seconds ticks) / (((ncount sr ticks + 1 : Nat) : Rat) - 1) =
      (i : Rat) * f * ((ticks : Rat) / 100000) / (ncount sr ticks : Rat) := by
    rw [hsec, Nat.cast_succ, add_sub_cancel_right, mul_assoc]
  rw [Function.comp_apply, List.getD_eq_getElem?_getD, getElem?_single _ hlt, hphase, Option.getD_some]

theorem length_multi (sr ticks : Nat) (fs : List Rat) : (multi sr ticks fs).length = ncount sr ticks := by
  simp [multi_eq_map]

theorem getElem?_multi {sr ticks i : Nat} (fs : List Rat) (hi : i < ncount sr ticks) :
    (multi sr ticks fs)[i]? = some (mix (fs.map fun f =>
      toneSample ((i : Rat) * f * ((ticks : Rat) / 100000) / (ncount sr ticks : Rat)))) := by
  simp [multi_eq_map, hi]

/-- The multi form begins with `+0.0`, since each of its carriers does (40_tone_generator R110). -/
theorem getElem?_multi_zero {sr ticks : Nat} {fs : List Rat} (hne : fs ≠ []) (hn : 1 ≤ ncount sr ticks) :
    (multi sr ticks fs)[0]? = some posZero := by
  rw [getElem?_multi fs hn, mix_of_forall_posZero (by simpa using hne) fun v hv => ?_]
  obtain ⟨f, -, rfl⟩ := List.mem_map.1 hv
  simp

/-- Settles O47: from the one formula of the multi form. -/
theorem multiForm : Obligations.MultiForm := fun sr ticks fs hne =>
  ⟨length_multi sr ticks fs, fun _ hi => getElem?_multi fs hi, getElem?_multi_zero hne⟩

/-! The accuracy of a TONE. -/

/-- Under P2 a carrier's sample is near the sine of its phase, written in the reals. -/
theorem SineAccurate.abs_carrier_sub_sin_le {tol : ℝ} (h : SineAccurate tol) (n dur i f : Nat) :
    |((sampleValue (toneSample (carrierPhase n dur f i)) : Rat) : ℝ) -
      Real.sin (2 * Real.pi * ((i : ℝ) * ((f : ℝ) / 1000) * ((dur : ℝ) / 100000) / (n : ℝ)))| ≤ tol := by
  have hphase := h (carrierPhase n dur f i) (by rw [carrierPhase_eq]; positivity)
  rw [carrierPhase_eq] at hphase ⊢
  push_cast at hphase
  exact hphase

/-- Means of terms that are pairwise within `tol` are within `tol`. -/
theorem abs_mean_sub_mean_le {α : Type} {tol : ℝ} {a b : α → ℝ} {xs : List α} (hne : xs ≠ [])
    (h : ∀ x ∈ xs, |a x - b x| ≤ tol) :
    |(xs.map a).sum / (xs.length : ℝ) - (xs.map b).sum / (xs.length : ℝ)| ≤ tol := by
  have hsum : |(xs.map a).sum - (xs.map b).sum| ≤ (xs.length : ℝ) * tol := by
    clear hne
    induction xs with
    | nil => simp
    | cons x xs ih =>
      have hx := h x List.mem_cons_self
      have hxs := ih fun y hy => h y (List.mem_cons_of_mem x hy)
      have htri := abs_add_le (a x - b x) ((xs.map a).sum - (xs.map b).sum)
      rw [List.map_cons, List.map_cons, List.sum_cons, List.sum_cons, add_sub_add_comm, List.length_cons]
      push_cast
      linarith
  have hpos : (0 : ℝ) < xs.length := Nat.cast_pos.2 (List.length_pos_iff.2 hne)
  rw [← sub_div, abs_div, abs_of_pos hpos]
  exact (div_le_iff₀' hpos).2 hsum

/-- Under M2 a TONE's sample is near the mean of its carriers' samples, written in the reals. -/
theorem MixAccurate.abs_toneMix_sub_mean_le {tol : ℝ} (h : MixAccurate tol) (n dur : Nat) {fs : List Word}
    (hne : fs ≠ []) (i : Nat) :
    |((sampleValue (toneMix n dur fs i) : Rat) : ℝ) -
      (fs.map fun f => ((sampleValue (toneSample (carrierPhase n dur f.toNat i)) : Rat) : ℝ)).sum / (fs.length : ℝ)| ≤
        tol := by
  have hunit : (fs.map fun f => toneSample (carrierPhase n dur f.toNat i)).all inUnit = true := by
    refine List.all_eq_true.2 fun v hv => ?_
    obtain ⟨f, -, rfl⟩ := List.mem_map.1 hv
    exact inUnit_toneSample _
  have hmix : |((sampleValue (toneMix n dur fs i) : Rat) : ℝ) - _| ≤ tol := h _ (mt List.map_eq_nil_iff.1 hne) hunit
  rw [Rat.cast_div, Rat.cast_list_sum, List.map_map, List.map_map, List.length_map, Rat.cast_natCast] at hmix
  exact hmix

/-- A TONE of one carrier is that carrier (40_tone_generator R109 (M3)). -/
theorem toneMix_singleton (n dur : Nat) (f : Word) (i : Nat) :
    toneMix n dur [f] i = toneSample (carrierPhase n dur f.toNat i) := rfl

/-- Settles O45: the mix is near the mean of the carriers' samples by M2, and that mean near the mean of their sines by
P2; with one carrier M3 makes the mix the carrier itself. -/
theorem carriersAreTheMeanOfTheirSines : Obligations.CarriersAreTheMeanOfTheirSines := by
  intro tol hsine n dur i sine
  have hcarrier (f : Word) := hsine.abs_carrier_sub_sin_le n dur i f.toNat
  refine ⟨fun f => by rw [toneMix_singleton]; exact hcarrier f, fun tolMix hmix fs hne _ => ?_⟩
  have hmixed := hmix.abs_toneMix_sub_mean_le n dur hne i
  have hmeans := abs_mean_sub_mean_le hne fun f _ => hcarrier f
  have htri := (abs_sub_le _ _ _).trans (add_le_add hmixed hmeans)
  rwa [add_comm] at htri

/-! What the meaning of a descriptor reports and emits. -/

/-- A descriptor whose checks fail raises what they report. -/
theorem exec_of_fetchCheck_some {i : Instr} {e : ErrCause} {s : State} (hw : wordsOf i ≠ 0)
    (h : fetchCheck i s = some e) : exec i s = .next (raise e s) := by
  rw [exec_descriptor hw, descriptorStep, h]

/-- A descriptor that passes its checks and is not exhausted makes one EMIT. -/
theorem exec_of_not_exhausted {i : Instr} {s : State} (hw : wordsOf i ≠ 0) (hc : fetchCheck i s = none)
    (hx : exhausted i s = false) : exec i s = emitOf i s := by
  simp only [exec_descriptor hw, descriptorStep, hc, hx, Bool.false_eq_true, if_false]

theorem wordsOf_tone_ne_zero (dur : BitVec 30) (rsvd : BitVec 28) (freqs : List Word) :
    wordsOf (.tone dur rsvd freqs) ≠ 0 := by
  simp [wordsOf]

/-- Settles O14: a legal TONE passes its checks, and its phases are those of the rule. -/
theorem toneEmitsTheMixedCarriers : Obligations.ToneEmitsTheMixedCarriers := by
  intro dur freqs s hne hlen hsamp hroom
  have hemit : exec (.tone dur 0 freqs) s = emitThen (toneMix s.ncur dur.toNat freqs s.samp) nextSample s :=
    exec_of_not_exhausted (wordsOf_tone_ne_zero _ _ _) ((toneCheck_eq_none 0 freqs).2 ⟨rfl, hne, hlen⟩)
      (beq_false_of_ne hsamp)
  simp only [hemit, emitThen_of_room hroom, toneMix, carrierPhase_eq]
  rfl

/-! The checks that fail, in their order (60_exceptions R217). -/

theorem toneCheck_of_rsvd {rsvd : BitVec 28} (freqs : List Word) (h : rsvd ≠ 0) : toneCheck rsvd freqs = some .rsvd := by
  simp only [toneCheck, if_pos h]

theorem toneCheck_of_too_many {freqs : List Word} (h : Config.nfreqMax < freqs.length) :
    toneCheck 0 freqs = some .nFreq := by
  have hne : freqs.length ≠ 0 := by omega
  simp [toneCheck, hne, h]

theorem tonebytesCheck_of_bounds {len base : Nat} (s : State) (h : Config.bmemBytes < base + len) :
    tonebytesCheck len base s = some .bounds := by
  simp only [tonebytesCheck, if_pos h]

theorem tonebytesCheck_of_unwritten {len base : Nat} {s : State} (hb : base + len ≤ Config.bmemBytes) (hl : 0 < len)
    (hn : 0 < nbit s.srate.toNat) (hm : memRead s.bmem base = none) : tonebytesCheck len base s = some .uninit := by
  simp only [tonebytesCheck, if_neg (Nat.not_lt.2 hb), hl, hn, hm, and_self, if_true]

theorem audioCheck_of_bounds {len base : Nat} (h : Config.amemSamples < base + len) :
    audioCheck len base = some .bounds := by
  simp only [audioCheck, if_pos h]

/-- Settles O15: each error is the check that fails first, but for the AUDIO's `E_UNINIT`, which is its EMIT's. -/
theorem descriptorErrorsInOrder : Obligations.DescriptorErrorsInOrder := by
  intro s
  refine ⟨fun dur rsvd freqs => ⟨fun hr => ?rsvd, ?noFreq, ?nFreq⟩, fun len base =>
    ⟨fun hb => ?bytesBounds, fun hb hl hn hm => ?bytesUninit, fun hb => ?audioBounds, fun hb hsamp hm => ?audioUninit⟩⟩
  case rsvd => exact exec_of_fetchCheck_some (wordsOf_tone_ne_zero _ _ _) (toneCheck_of_rsvd freqs hr)
  case noFreq =>
    rintro rfl rfl
    exact exec_of_fetchCheck_some (wordsOf_tone_ne_zero _ _ _) rfl
  case nFreq =>
    rintro rfl hlen
    exact exec_of_fetchCheck_some (wordsOf_tone_ne_zero _ _ _) (toneCheck_of_too_many hlen)
  case bytesBounds => exact exec_of_fetchCheck_some (Nat.succ_ne_zero _) (tonebytesCheck_of_bounds s hb)
  case bytesUninit =>
    have hpos : 0 < len.toNat := Nat.pos_of_ne_zero fun h0 => hl (BitVec.eq_of_toNat_eq h0)
    exact exec_of_fetchCheck_some (Nat.succ_ne_zero _) (tonebytesCheck_of_unwritten hb hpos (Nat.pos_of_ne_zero hn) hm)
  case audioBounds => exact exec_of_fetchCheck_some (Nat.succ_ne_zero _) (audioCheck_of_bounds hb)
  case audioUninit =>
    have hemit : exec (.audio len base) s = emitAudio base.toNat s :=
      exec_of_not_exhausted (Nat.succ_ne_zero _) ((audioCheck_eq_none _ _).2 hb) (beq_false_of_ne hsamp)
    rw [hemit, emitAudio, hm]

end Sys2Proof.Machine
end

section
/-! PROOFS. The bit modulator: the symbols sample by sample and as whole bit segments, the EMIT of a TONEBYTES with its
gate, and the renders of bytes (41_bit_modulator R122 to R126, R129). -/

namespace Sys2Proof.Machine

open Sys2Proof.Safety

/-! The sample of a bit. -/

/-- The cycles of a bit in the rationals (41_bit_modulator R122). -/
theorem cast_toNat_cyc (b : Bool) : ((cyc b).toNat : Rat) = if b then 4 else 3 := by
  cases b <;> rfl

/-- In a bit that has a sample, the guard of the single form is for a bit of exactly one (40_tone_generator R105). -/
theorem bitSample_eq {n : Nat} (c i : Nat) (hn : n ≠ 0) :
    bitSample n c i = if n = 1 then posZero else toneSample ((i : Rat) * (c : Rat) / ((n : Rat) - 1)) := by
  have hguard : n ≤ 1 ↔ n = 1 := by omega
  simp only [bitSample, hguard, bitPhase_eq c i (Nat.one_le_iff_ne_zero.2 hn)]

/-- The single form of a whole number of cycles is what the EMITs of a bit compute, in order (41_bit_modulator R122). -/
theorem single_eq_map_bitSample (n c : Nat) : single n (c : Rat) = (List.range n).map (bitSample n c) := by
  match n with
  | 0 => rfl
  | 1 => rfl
  | n + 2 => simp [single, bitSample, bitPhase_eq]

/-! Renders. -/

theorem bitSeg_eq (sr : Nat) (b : Bool) : bitSeg sr b = single (nbit sr) (if b then 4 else 3) := by
  rw [bitSeg, cast_toNat_cyc]

@[simp] theorem length_bitSeg (sr : Nat) (b : Bool) : (bitSeg sr b).length = nbit sr := length_single _ _

@[simp] theorem length_byteSeg (sr : Nat) (v : Byte) : (byteSeg sr v).length = 8 * nbit sr := by
  simp only [byteSeg, List.length_flatMap, length_bitSeg, List.map_const', List.sum_replicate, List.length_range,
    smul_eq_mul]

theorem length_bytesRender (sr : Nat) (bs : List Byte) : (bytesRender sr bs).length = 8 * bs.length * nbit sr := by
  induction bs with
  | nil => simp
  | cons v bs ih =>
    rw [bytesRender_cons, List.length_append, length_byteSeg, ih, List.length_cons]
    ring

/-- Settles O48: a byte is its eight bit segments, each a single form of `NBIT` samples, and a string its bytes. -/
theorem bytesRenderBitByBit : Obligations.BytesRenderBitByBit := by
  intro sr v bs
  refine ⟨?bits, length_byteSeg sr v, bytesRender_nil sr, bytesRender_cons sr v bs, length_bytesRender sr bs⟩
  case bits =>
    simp only [byteSeg, bitSeg_eq]
    rfl

/-! The symbols, one sample a step (log 16). -/

/-- Inside a bit interval a symbol appends the sample of its bit and goes to the next (41_bit_modulator R123, R124). -/
theorem exec_decodeSymbol_of_lt (b : Bool) {s : State} (h : s.samp < nbit s.srate.toNat) (hroom : s.outcnt + 1 < 2 ^ 64) :
    exec (decodeSymbol b) s =
      .next (nextSample (pushSample (bitSample (nbit s.srate.toNat) (cyc b).toNat s.samp) s)) := by
  rw [exec_decodeSymbol, emitSymbol_of_lt h, emitThen_of_room hroom]

/-- A symbol whose bit interval is over does nothing (41_bit_modulator R123, R124). -/
theorem exec_decodeSymbol_of_le (b : Bool) {s : State} (h : nbit s.srate.toNat ≤ s.samp) :
    exec (decodeSymbol b) s = .next s := by
  rw [exec_decodeSymbol, emitSymbol, if_neg (Nat.not_lt.2 h)]

/-- Settles O17: both symbols are the bit segment with their cycle count, inside its interval or past it. -/
theorem markAndSpaceEmitTheBitSample : Obligations.MarkAndSpaceEmitTheBitSample := by
  intro s n
  refine ⟨fun hlt hroom => ?emits, fun hle => ⟨exec_decodeSymbol_of_le true hle, exec_decodeSymbol_of_le false hle⟩⟩
  case emits =>
    have hn : nbit s.srate.toNat ≠ 0 := Nat.ne_zero_of_lt hlt
    have hsym (b : Bool) : exec (decodeSymbol b) s = .next (nextSample (pushSample (if n = 1 then posZero else
        toneSample ((s.samp : Rat) * (if b then 4 else 3) / ((n : Rat) - 1))) s)) := by
      rw [exec_decodeSymbol_of_lt b hlt hroom, bitSample_eq _ _ hn, cast_toNat_cyc]
      rfl
    exact ⟨hsym true, hsym false⟩

/-! Many steps that each emit one sample. -/

/-- The state after `k` samples `f SAMP`, `f (SAMP + 1)`, ... of a segment have been emitted and nothing else has
happened. -/
def emitted (f : Nat → Sample) (k : Nat) (s : State) : State :=
  { s with out := s.out ++ (List.range' s.samp k).map f, outcnt := s.outcnt + k, samp := s.samp + k }

@[simp] theorem emitted_samp (f : Nat → Sample) (k : Nat) (s : State) : (emitted f k s).samp = s.samp + k := rfl
@[simp] theorem emitted_srate (f : Nat → Sample) (k : Nat) (s : State) : (emitted f k s).srate = s.srate := rfl

@[simp] theorem emitted_zero (f : Nat → Sample) (s : State) : emitted f 0 s = s := by simp [emitted]

/-- The first of the samples is one emission. -/
theorem emitted_succ (f : Nat → Sample) (k : Nat) (s : State) :
    emitted f (k + 1) s = emitted f k (nextSample (pushSample (f s.samp) s)) := by
  simp [emitted, nextSample, pushSample, List.range'_succ, Nat.add_assoc, Nat.add_comm 1]

/-- An instruction that emits the next sample at each of the `k` places emits all of them in `k` steps. -/
theorem repeatExec_eq_emitted {i : Instr} {f : Nat → Sample} {k : Nat} {s : State} (hroom : s.outcnt + k < 2 ^ 64)
    (h : ∀ j < k, exec i (emitted f j s) = emitThen (f (s.samp + j)) nextSample (emitted f j s)) :
    repeatExec i k s = .next (emitted f k s) := by
  induction k generalizing s with
  | zero => rw [emitted_zero, repeatExec_zero]
  | succ k ih =>
    have hroom' : s.outcnt + 1 < 2 ^ 64 := by omega
    have hfirst : exec i s = .next (nextSample (pushSample (f s.samp) s)) := by
      simpa [emitThen_of_room hroom'] using h 0 (Nat.succ_pos k)
    rw [repeatExec_of_next i k hfirst, emitted_succ]
    refine ih (by simpa [Nat.add_assoc, Nat.add_comm 1] using hroom) fun j hj => ?_
    simpa [emitted_succ, Nat.add_assoc, Nat.add_comm 1] using h (j + 1) (Nat.succ_lt_succ hj)

/-- From the first sample of a bit, `NBIT(SRATE)` steps of a symbol render its bit segment (41_bit_modulator R122). -/
theorem repeatExec_decodeSymbol (b : Bool) {s : State} (h0 : s.samp = 0) (hroom : s.outcnt + nbit s.srate.toNat < 2 ^ 64) :
    repeatExec (decodeSymbol b) (nbit s.srate.toNat) s = .next { s with
      out := s.out ++ bitSeg s.srate.toNat b, outcnt := s.outcnt + nbit s.srate.toNat, samp := nbit s.srate.toNat } := by
  have hrun := repeatExec_eq_emitted (f := bitSample (nbit s.srate.toNat) (cyc b).toNat) hroom fun j hj => by
    rw [exec_decodeSymbol, emitSymbol_of_lt (by simpa [h0] using hj), emitted_samp, emitted_srate]
  rw [hrun, emitted, h0, ← List.range_eq_range', ← single_eq_map_bitSample, Nat.zero_add]
  rfl

/-- Settles O18: the bit segments of the two symbols are the single forms of 4 and of 3 cycles. -/
theorem markAndSpaceRenderBitSegments : Obligations.MarkAndSpaceRenderBitSegments := by
  intro s n h0 hroom
  have hsym (b : Bool) := repeatExec_decodeSymbol b h0 hroom
  simp only [bitSeg_eq] at hsym
  exact ⟨hsym true, hsym false⟩

/-! The EMIT of a TONEBYTES. -/

/-- Inside its string, in BMEM and with its first byte written, a TONEBYTES makes one EMIT. -/
theorem exec_tonebytes_of_lt {len : BitVec 30} {base : Word} {s : State} (hb : base.toNat + len.toNat ≤ Config.bmemBytes)
    (hm : memRead s.bmem base.toNat ≠ none) (hn : s.ncur ≠ 0) (hlt : s.bytep < len.toNat) :
    exec (.tonebytes len base) s = emitTonebytes len.toNat base.toNat s := by
  have hx : exhausted (.tonebytes len base) s = false := by simp [exhausted, hn, hlt.ne]
  exact exec_of_not_exhausted (Nat.succ_ne_zero _) ((tonebytesCheck_eq_none _ _ _).2 ⟨hb, fun _ _ => hm⟩) hx

/-- Below bit 7 the next bit has the next index. -/
theorem toNat_bitp_succ {k : BitVec 3} (h : k ≠ 7) : (k + 1).toNat = k.toNat + 1 := by
  bv_omega

/-- After bits 0 to 6 of a byte of the string comes its next bit. -/
theorem gate_of_next_bit {len : Nat} (base : Nat) {s : State} (h : s.samp + 1 = s.ncur) (h7 : s.bitp ≠ 7)
    (hlt : s.bytep < len) :
    gate len base s = { s with
      samp := 0, bitp := s.bitp + 1, ccur := if s.shreg.getLsbD (s.bitp.toNat + 1) then 4 else 3 } := by
  rw [gate_of_bit h h7, nextBit_of_lt (s := { s with samp := 0 }) hlt, ← toNat_bitp_succ h7]
  rfl

/-- After the last byte there is no byte to load. -/
theorem gate_of_last_byte {len : Nat} (base : Nat) {s : State} (h : s.samp + 1 = s.ncur) (h7 : s.bitp = 7)
    (hlast : s.bytep + 1 = len) :
    gate len base s = { s with samp := 0, bitp := 0, bytep := s.bytep + 1 } := by
  rw [gate_of_byte h h7, nextByte]
  exact if_neg hlast.not_lt

/-- After another byte the next is loaded with the cycle count of its bit 0. -/
theorem gate_of_written_byte {len base : Nat} {s : State} {v : Byte} (h : s.samp + 1 = s.ncur) (h7 : s.bitp = 7)
    (hmore : s.bytep + 1 < len) (hm : memRead s.bmem (base + (s.bytep + 1)) = some v) :
    gate len base s = { s with
      samp := 0, bitp := 0, bytep := s.bytep + 1, shreg := v, ccur := if v.getLsbD 0 then 4 else 3 } := by
  simp only [gate_of_byte h h7, nextByte, if_pos hmore, hm]
  rfl

/-- An unwritten byte loads nothing, and the EMIT that starts it reports it (log 12). -/
theorem gate_of_unwritten_byte {len base : Nat} {s : State} (h : s.samp + 1 = s.ncur) (h7 : s.bitp = 7)
    (hmore : s.bytep + 1 < len) (hm : memRead s.bmem (base + (s.bytep + 1)) = none) :
    gate len base s = { s with samp := 0, bitp := 0, bytep := s.bytep + 1 } := by
  simp only [gate_of_byte h h7, nextByte, if_pos hmore, hm]

/-- Settles O16: an unreadable byte is the error; everywhere else the EMIT is its sample followed by the gate, whose five
moves are the remaining clauses. At bit 7 no byte starts, so none is unreadable there. -/
theorem tonebytesEmitsTheBitSampleAndGates : Obligations.TonebytesEmitsTheBitSampleAndGates := by
  intro len base s hb hm hn hlt hroom v out cnt unreadable
  have hexec := exec_tonebytes_of_lt hb hm hn hlt
  have hgate (hr : ¬ unreadable) {t : State} (ht : gate len.toNat base.toNat (pushSample v s) = t) :
      exec (.tonebytes len base) s = .next t := by
    have hv : bitSample s.ncur s.ccur.toNat s.samp = v := bitSample_eq _ _ hn
    rw [hexec, emitTonebytes_of_readable fun hsamp hbit hnone => hr ⟨hsamp, hbit, hnone⟩, hv, emitThen_of_room hroom, ht]
  have hread (h7 : s.bitp = 7) : ¬ unreadable := fun ⟨_, hbit, _⟩ => absurd (h7.symm.trans hbit) (by decide)
  refine ⟨fun ⟨hsamp, hbit, hnone⟩ => ?unreadable, fun hr hmid => ?sample, fun hr hend h7 => ?bit,
    fun hend h7 hlast => ?last, fun b hend h7 hmore hsome => ?written, fun hend h7 hmore hnone => ?unwritten⟩
  case unreadable => rw [hexec, emitTonebytes_of_unreadable hsamp hbit hnone]
  case sample => exact hgate hr (gate_of_sample (s := pushSample v s) hmid)
  case bit => exact hgate hr (gate_of_next_bit (s := pushSample v s) _ hend h7 hlt)
  case last => exact hgate (hread h7) (gate_of_last_byte (s := pushSample v s) _ hend h7 hlast)
  case written => exact hgate (hread h7) (gate_of_written_byte (s := pushSample v s) hend h7 hmore hsome)
  case unwritten => exact hgate (hread h7) (gate_of_unwritten_byte (s := pushSample v s) hend h7 hmore hnone)

end Sys2Proof.Machine
end

section
/-! PROOFS. The framer's strings: their bytes from the header registers, piece by piece, and their lengths (42_protocol_framer
R141 to R150, 30_encoding R83, R88). -/

namespace Sys2Proof.Machine

/-! The fixed strings and the lengths. -/

/-- Settles O40: the preamble and four bytes. -/
theorem eomIsTheFixedString : Obligations.EomIsTheFixedString := rfl

/-- Settles O38: the length is the sum of the lengths of the pieces. -/
theorem headerLength : Obligations.HeaderLength := fun _ h => length_fmtHeader h

/-! The issue time. -/

/-- A digit is its value above `0` (30_encoding R88). -/
theorem digit_eq_ofNat (g : Nat) : digit g = BitVec.ofNat 8 (0x30 + g) := (BitVec.ofNat_add 0x30 g).symm

/-- Settles O41: the digits are the quotients and remainders of which the model makes the seven bytes. -/
theorem timeDigitsReadBack : Obligations.TimeDigitsReadBack := by
  intro doy hour min hdoy hhour hmin
  refine ⟨doy / 100, doy / 10 % 10, doy % 10, hour / 10, hour % 10, min / 10, min % 10, by omega, by omega, by omega,
    by omega, by omega, by omega, by omega, ?bytes, by omega, by omega, by omega⟩
  case bytes => simp only [time7, digit_eq_ofNat, List.map_cons, List.map_nil]

/-! The callsign. -/

theorem callBytes_eq (s : State) : callBytes s =
    [s.hr[5].extractLsb' 0 8, s.hr[5].extractLsb' 8 8, s.hr[5].extractLsb' 16 8, s.hr[5].extractLsb' 24 8,
     s.hr[6].extractLsb' 0 8, s.hr[6].extractLsb' 8 8, s.hr[6].extractLsb' 16 8, s.hr[6].extractLsb' 24 8] := rfl

/-- No `-` is left in a rendered callsign: the substitute is another byte (42_protocol_framer R148). -/
theorem dash_notMem_call8 (call : List Byte) : dash ∉ call8 call := by
  have hsubst : Config.callSubst ≠ dash := by decide
  intro h
  obtain ⟨c, -, hc⟩ := List.mem_map.1 h
  split at hc
  · exact hsubst hc
  · contradiction

/-- Settles O42: the rendered callsign is the callsign's bytes, one by one. -/
theorem callsignDashesAreReplaced : Obligations.CallsignDashesAreReplaced := by
  intro s
  refine ⟨callBytes_eq s, by simp [call8, callBytes_eq], dash_notMem_call8 _, fun j c hc => ?_⟩
  rw [call8, List.getElem?_map, hc]
  rfl

/-! The location group. -/

/-- A list of pieces of one length, piece by piece. -/
theorem take_drop_flatMap_range {α : Type} {f : Nat → List α} {m : Nat} (hf : ∀ j, (f j).length = m) {k n : Nat}
    (hk : k < n) : (((List.range n).flatMap f).drop (m * k)).take m = f k := by
  obtain ⟨r, rfl⟩ : ∃ r, n = k + 1 + r := Nat.exists_eq_add_of_le hk
  have hbefore : ((List.range k).flatMap f).length = m * k := by simp [List.length_flatMap, hf, Nat.mul_comm]
  rw [List.range_add, List.range_succ, List.flatMap_append, List.flatMap_append, List.append_assoc, ← hbefore,
    List.drop_left, List.flatMap_singleton, ← hf k, List.take_left]

/-- Location code `k` in the header is a `-` and the six bytes of its two registers (42_protocol_framer R145, 10_state R38,
20_memory R56). -/
theorem take_drop_locGroup {s : State} {k : Nat} (hk : k < nlocOf s) {lo hi : Word} (hlo : s.hr[7 + 2 * k]? = some lo)
    (hhi : s.hr[8 + 2 * k]? = some hi) : ((locGroup s).drop (7 * k)).take 7 =
      [dash, lo.extractLsb' 0 8, lo.extractLsb' 8 8, lo.extractLsb' 16 8, lo.extractLsb' 24 8,
       hi.extractLsb' 0 8, hi.extractLsb' 8 8] := by
  have hlen (j : Nat) : (dash :: locBytes s j).length = 7 := by simp [locBytes, length_bytesOf]
  rw [locGroup, take_drop_flatMap_range hlen hk, locBytes, hrAt, hrAt, hlo, hhi]
  rfl

/-! The header. -/

/-- Settles O39: the pieces of the definition in their order, with the bytes of the originator as `org` and the location
group as `locs`. -/
theorem headerFollowsTheGrammar : Obligations.HeaderFollowsTheGrammar := by
  intro s
  have horg {v : BitVec 3} (h : s.hr[0].extractLsb' 0 3 = v) : orgBytes (orgOf s) = orgBytes v.toNat := by rw [orgOf, h]
  refine ⟨orgBytes (orgOf s), locGroup s, ?header, horg, horg, horg, horg, horg, length_locGroup s,
    fun k hk _ lo hi hlo hhi => take_drop_locGroup hk hlo hhi⟩
  case header =>
    simp only [fmtHeader, time7, digit_eq_ofNat, List.append_assoc]
    rfl

end Sys2Proof.Machine
end

section
/-! PROOFS. What START leaves: the words of a warning's plan, and the strings and the plan in memory after a WARNING START
that passes its checks (42_protocol_framer R153, 44_section_sequencer R180 to R187, R196). -/

namespace Sys2Proof.Machine

open Sys2Proof.Safety

/-! The words of the plan (44_section_sequencer R187). -/

/-- Word 0 of a value that fits the operand is the tag above the value. -/
theorem word0_setWidth (t : BitVec 2) {v : Word} (h : v.toNat < 2 ^ 30) : word0 t (v.setWidth 30) = word0 t 0 ||| v := by
  apply BitVec.eq_of_getLsbD_eq
  intro i hi
  simp only [word0, BitVec.getLsbD_or, BitVec.getLsbD_append, BitVec.getLsbD_setWidth]
  by_cases h30 : i < 30
  · simp [h30]
  · have hv : v.getLsbD i = false :=
      Nat.testBit_eq_false_of_lt (Nat.lt_of_lt_of_le h (Nat.pow_le_pow_right (by decide) (Nat.not_lt.1 h30)))
    simp [h30, hv]

theorem encodeWords_headerInstr {s : State} (h : nlocOf s ≤ 31) :
    encodeWords (headerInstr s) = [0x40000000#32 ||| BitVec.ofNat 32 (headerLen s), 0x00000000#32] := by
  have hlt : headerLen s < 2 ^ 30 := by rw [headerLen]; omega
  have hw := word0_setWidth 1 (v := BitVec.ofNat 32 (headerLen s)) (by rw [BitVec.toNat_ofNat]; omega)
  rw [BitVec.setWidth_ofNat_of_le (by decide)] at hw
  rw [headerInstr, encodeWords, hw]
  rfl

theorem encodeWords_attnTone {s : State} (h : s.attnDur.toNat < 2 ^ 30) :
    encodeWords (attnTone (attnk s) s) =
      if attnk s then [0x80000000#32 ||| s.attnDur, 0x00000002#32, 0x000D0408#32, 0x000EA600#32]
      else [0x80000000#32 ||| s.attnDur, 0x00000001#32, 0x00100590#32] := by
  rw [attnTone, encodeWords, word0_setWidth 2 h]
  cases attnk s <;> rfl

theorem encodeWords_messageInstr {s : State} (h : s.msgLen.toNat < 2 ^ 30) :
    encodeWords (messageInstr s) = [0xC0000000#32 ||| s.msgLen, s.msgBase] := by
  rw [messageInstr, encodeWords, word0_setWidth 3 h]
  rfl

theorem encodeWords_prerollInstr (s : State) :
    encodeWords (prerollInstr s) = [if preroll s then 0x00061A80#32 else 0x000186A0#32] := by
  rw [prerollInstr, encodeWords]
  cases preroll s <;> rfl

theorem packInstrs_append (is js : List Instr) : packInstrs (is ++ js) = packInstrs is ++ packInstrs js :=
  List.flatMap_append

/-- The plan of a warning takes 18 words or more, those of its first and its last part. -/
theorem le_length_packInstrs_planInstrs (s : State) : 18 ≤ (packInstrs (planInstrs s)).length := by
  have h1 : (packInstrs (part1 s)).length = 8 := rfl
  have h4 : (packInstrs (part4 s)).length = 10 := rfl
  simp only [planInstrs, packInstrs_append, List.length_append, h1, h4]
  omega

/-! A WARNING START that passes its checks. -/

/-- The state in which such a START fetches: the run is opened, and the strings and the plan are in memory. -/
def warningReady (s : State) : State := writePlan (writeStrings (openRun s))

theorem warningReady_plen (s : State) : (warningReady s).plen.toNat = (packInstrs (planInstrs s)).length := by
  have hle := length_packInstrs_planInstrs_le s
  simp only [warningReady, writePlan_plen, planInstrs_writeStrings, planInstrs_openRun, BitVec.toNat_ofNat]
  omega

/-- PMEM holds the plan from word 0 and is otherwise as it was. -/
theorem memRead_warningReady_pmem (s : State) (j : Nat) : memRead (warningReady s).pmem j =
    if j < (packInstrs (planInstrs s)).length then (packInstrs (planInstrs s))[j]? else memRead s.pmem j := by
  simp [warningReady, memRead_memWriteMany]

/-- BMEM holds the two strings from byte 0 and is otherwise as it was. -/
theorem memRead_warningReady_bmem (s : State) (j : Nat) : memRead (warningReady s).bmem j =
    if j < (fmtHeader s ++ fmtEom).length then (fmtHeader s ++ fmtEom)[j]? else memRead s.bmem j := by
  simp only [warningReady, writePlan_bmem, writeStrings_bmem, fmtHeader_openRun, openRun_bmem, memRead_memWriteMany,
    Nat.zero_le, true_and, Nat.zero_add, Nat.sub_zero]

/-- The plan begins with the header's section. -/
theorem descriptorAt_warningReady (s : State) : descriptorAt (warningReady s) 0 = .ok (headerInstr s) := by
  have hle := le_length_packInstrs_planInstrs s
  have hle' := length_packInstrs_planInstrs_le s
  have hsize := Config.le_pmemWords
  have hwords : wordsOf (headerInstr s) = 2 := rfl
  obtain ⟨rest, hpack⟩ : ∃ rest, packInstrs (planInstrs s) = encodeWords (headerInstr s) ++ rest := ⟨_, rfl⟩
  refine descriptorAt_eq_ok.2 ⟨by omega, rfl, ?_, by omega, fun j hj => ?_⟩
  · rw [warningReady_plen]
    omega
  · have hj' : j < 2 := hj
    rw [memRead_warningReady_pmem, if_pos (by omega), Nat.zero_add, hpack, List.getElem?_append_left hj,
      List.getElem?_eq_getElem hj]

/-- The header's section passes the checks of its FETCH: it lies in BMEM, and its first byte is written. -/
theorem fetchCheck_warningReady {s : State} (h : nlocOf s ≤ 31) :
    fetchCheck (headerInstr s) (warningReady s) = none := by
  have hsize := Config.le_bmemBytes
  have hlen : (BitVec.ofNat 30 (headerLen s)).toNat ≤ headerLen s := Nat.mod_le _ _
  have hfirst : 0 < (fmtHeader s ++ fmtEom).length := by simp [length_fmtEom]
  have hbound : headerLen s ≤ 268 := by rw [headerLen]; omega
  refine (tonebytesCheck_eq_none _ _ _).2 ⟨?_, fun _ _ => ?_⟩
  · show 0 + (BitVec.ofNat 30 (headerLen s)).toNat ≤ Config.bmemBytes
    omega
  · show memRead (warningReady s).bmem 0 ≠ none
    rw [memRead_warningReady_bmem, if_pos hfirst, List.getElem?_eq_getElem hfirst]
    exact Option.some_ne_none _

/-- START of a warning that passes its checks loads the header's section: it is in RUN, and what the host owns is as the
writes of the strings and the plan have left it. -/
theorem start_of_warning_passes {s : State} (h : modeDirect s = false) (hc : warningCheck s = none) :
    (start s).st = .run ∧ KeepsInputs (warningReady s) (start s) := by
  obtain ⟨-, hloc, -⟩ := (headerCheck_eq_none s).1 ((warningCheck_eq_none s).1 hc).1
  have hle := le_length_packInstrs_planInstrs s
  have hle' := length_packInstrs_planInstrs_le s
  have hsize := Config.le_pmemWords
  have hfits : ¬ Config.pmemWords < (warningReady s).plen.toNat := by rw [warningReady_plen]; omega
  have hpos : (warningReady s).pcw ≠ (warningReady s).plen.toNat := by
    rw [warningReady_plen]
    show 0 ≠ _
    omega
  have hstart : start s = load (headerInstr s) (warningReady s) := by
    rw [start_of_warning h hc, startPlan]
    exact (if_neg hfits).trans
      (fetch_of_descriptor hpos (descriptorAt_warningReady s) (fetchCheck_warningReady hloc))
  have hload := staysAtDescriptor_load (headerInstr s) (warningReady s)
  rw [hstart]
  exact ⟨hload.st, keepsInputs_of_clear_eq hload.clear⟩

/-- Settles O31: the words are those of the plan's descriptors, and the memories read as the two writes left them. -/
theorem warningStartStoresStringsAndPlan : Obligations.WarningStartStoresStringsAndPlan := by
  intro s hd hc hlen hl h g a e att msg plan strings
  obtain ⟨hheader, hattn⟩ := (warningCheck_eq_none s).1 hc
  obtain ⟨-, hloc, -, horg, -⟩ := (headerCheck_eq_none s).1 hheader
  obtain ⟨-, hdur⟩ := (attnCheck_eq_none s).1 hattn
  have hatt : packInstrs (part2 s) = att := by
    rw [part2, attended, apply_ite packInstrs]
    simp only [packInstrs, List.flatMap_cons, encodeWords_attnTone hdur]
    rfl
  have hmsg : packInstrs (part3 s) = msg := by
    rw [part3, apply_ite packInstrs]
    simp only [packInstrs, List.flatMap_cons, encodeWords_prerollInstr, encodeWords_messageInstr hlen]
    rfl
  have hplan : packInstrs (planInstrs s) = plan := by
    have h1 : packInstrs (part1 s) = h ++ g ++ h ++ g ++ h := by
      simp only [part1, packInstrs, List.flatMap_cons, encodeWords_headerInstr hloc]
      rfl
    simp only [planInstrs, packInstrs_append, h1, hatt, hmsg, plan, List.append_assoc]
    rfl
  have hstrings : strings.length = hl + 20 := by rw [List.length_append, length_fmtHeader horg, length_fmtEom, headerLen]
  obtain ⟨hst, hk⟩ := start_of_warning_passes hd hc
  have hpmem (j : Nat) := (hk.pmem j).trans (memRead_warningReady_pmem s j)
  have hbmem (j : Nat) := (hk.bmem j).trans (memRead_warningReady_bmem s j)
  rw [hplan] at hpmem
  refine ⟨hst, ?plen, ?least, ?most, hstrings, ?room, Config.le_bmemBytes, fun j hj => ?word, fun j hj => ?otherWord,
    fun j hj => ?byte, fun j hj => ?otherByte, hk.amem, hk.hr, hk.hrWritten, hk.srate, hk.cfg, hk.attnDur, hk.msgBase,
    hk.msgLen⟩
  case plen => rw [hk.plen, warningReady_plen, hplan]
  case least => exact hplan ▸ le_length_packInstrs_planInstrs s
  case most => exact hplan ▸ length_packInstrs_planInstrs_le s
  case room => omega
  case word => rw [hpmem, if_pos hj]
  case otherWord => rw [hpmem, if_neg (Nat.not_lt.2 hj)]
  case byte => exact (hbmem j).trans (if_pos (hstrings ▸ hj))
  case otherByte => exact (hbmem j).trans (if_neg (Nat.not_lt.2 (hstrings ▸ hj)))

end Sys2Proof.Machine
end

section
/-! PROOFS. The render so far: what a run has put into OUT at every moment, and so after an error (60_exceptions R215,
42_protocol_framer R152, 44_section_sequencer R196 to R202). -/

namespace Sys2Proof.Machine

open Sys2Proof.Safety

/-! Consecutive reads, and the sections of a longer list. -/

theorem memReadMany_add {w : Nat} {m : Mem w} {a j k : Nat} {us vs : List (BitVec w)} (hu : memReadMany m a j = some us)
    (hv : memReadMany m (a + j) k = some vs) : memReadMany m a (j + k) = some (us ++ vs) := by
  obtain ⟨hul, hu⟩ := memReadMany_eq_some.1 hu
  obtain ⟨hvl, hv⟩ := memReadMany_eq_some.1 hv
  refine memReadMany_eq_some.2 ⟨by rw [List.length_append, hul, hvl], fun n hn => ?_⟩
  by_cases hlt : n < j
  · rw [hu n hlt, List.getElem?_append_left (by omega)]
  · have hrest := hv (n - j) (by omega)
    rw [show a + j + (n - j) = a + n by omega] at hrest
    rw [hrest, List.getElem?_append_right (by omega), hul]

theorem memReadMany_succ {w : Nat} {m : Mem w} {a n : Nat} {vs : List (BitVec w)} {v : BitVec w}
    (hvs : memReadMany m a n = some vs) (hv : memRead m (a + n) = some v) :
    memReadMany m a (n + 1) = some (vs ++ [v]) :=
  memReadMany_add hvs (by simp [memReadMany, hv])

/-- The words of the descriptor at a place stand there. -/
theorem memReadMany_of_descriptorAt {s : State} {p : Nat} {i : Instr} (h : descriptorAt s p = .ok i) :
    memReadMany s.pmem p (wordsOf i) = some (encodeWords i) := by
  obtain ⟨-, -, -, -, hread⟩ := descriptorAt_eq_ok.1 h
  have hl := length_encodeWords i
  exact memReadMany_eq_some.2 ⟨hl, fun j hj => by rw [hread j (hl ▸ hj), List.getElem?_eq_getElem]⟩

/-- The section of a descriptor depends on BMEM, AMEM and `SRATE` alone. -/
theorem sectionOf_congr {s t : State} (i : Instr) (hb : t.bmem = s.bmem) (ha : t.amem = s.amem) (hr : t.srate = s.srate) :
    sectionOf i t = sectionOf i s := by
  cases i <;> simp only [sectionOf, hb, ha, hr]

theorem sectionsOf_congr {s t : State} (is : List Instr) (hb : t.bmem = s.bmem) (ha : t.amem = s.amem)
    (hr : t.srate = s.srate) : sectionsOf is t = sectionsOf is s := by
  induction is with
  | nil => rfl
  | cons i is ih => rw [sectionsOf, sectionsOf, sectionOf_congr i hb ha hr, ih]

theorem sectionsOf_concat {is : List Instr} {i : Instr} {s : State} {ss : List Section} {x : Section}
    (his : sectionsOf is s = some ss) (hi : sectionOf i s = some x) : sectionsOf (is ++ [i]) s = some (ss ++ [x]) := by
  induction is generalizing ss with
  | nil =>
    obtain rfl := Option.some.inj his
    exact sectionsOf_cons_eq_some.2 ⟨x, [], hi, rfl, rfl⟩
  | cons j is ih =>
    obtain ⟨y, ys, hj, hys, rfl⟩ := sectionsOf_cons_eq_some.1 his
    exact sectionsOf_cons_eq_some.2 ⟨y, ys ++ [x], hj, ih hys, rfl⟩

/-! The samples of a byte up to a place in it. -/

/-- The segments of bits 0 to `k` - 1 of a byte and the first `j` samples of bit `k`. -/
def bytePart (sr : Nat) (v : Byte) (k j : Nat) : List Sample :=
  (List.range k).flatMap (fun b => bitSeg sr (sym v b)) ++
    (List.range j).map (bitSample (nbit sr) (cyc (sym v k)).toNat)

@[simp] theorem bytePart_zero (sr : Nat) (v : Byte) : bytePart sr v 0 0 = [] := rfl

theorem bytePart_sample (sr : Nat) (v : Byte) (k j : Nat) :
    bytePart sr v k (j + 1) = bytePart sr v k j ++ [bitSample (nbit sr) (cyc (sym v k)).toNat j] := by
  simp [bytePart, List.range_succ]

theorem bytePart_bit (sr : Nat) (v : Byte) (k : Nat) : bytePart sr v k (nbit sr) = bytePart sr v (k + 1) 0 := by
  simp [bytePart, List.range_succ, bitSeg, single_eq_map_bitSample]

theorem bytePart_byte (sr : Nat) (v : Byte) : bytePart sr v 8 0 = byteSeg sr v := List.append_nil _

theorem bytesRender_concat (sr : Nat) (bs : List Byte) (v : Byte) :
    bytesRender sr (bs ++ [v]) = bytesRender sr bs ++ byteSeg sr v := by
  simp [bytesRender]

/-! What the descriptor at `PCW` has emitted. -/

@[simp] theorem load_out (i : Instr) (s : State) : (load i s).out = s.out := by
  rcases load_cases i s with h | ⟨n, h⟩ | ⟨n, v, h⟩ <;> rw [h] <;> rfl

/-- The samples `tail` are those that the loaded descriptor `i` has emitted up to its present place. -/
def EmittedPart (i : Instr) (tail : List Sample) (s : State) : Prop :=
  match i with
  | .silence _ => tail = List.replicate s.samp posZero
  | .tonebytes _ base => ∃ bs, memReadMany s.bmem base.toNat s.bytep = some bs ∧
      tail = bytesRender s.srate.toNat bs ++ bytePart s.srate.toNat s.shreg s.bitp.toNat s.samp
  | .tone dur _ freqs => tail = (List.range s.samp).map (toneMix s.ncur dur.toNat freqs)
  | .audio _ base => memReadMany s.amem base.toNat s.samp = some tail
  | .mark => False
  | .space => False
  | .attnSingle => False
  | .attnCombined => False

/-- FETCH loads a descriptor at its first place, where it has emitted nothing. -/
theorem emittedPart_load {i : Instr} {s : State} (hw : wordsOf i ≠ 0) (hb : BetweenDescriptors s) :
    EmittedPart i [] (load i s) := by
  have hfirst : (load i s).bytep = 0 ∧ (load i s).bitp = 0 ∧ (load i s).samp = 0 := by
    obtain ⟨h1, h2, h3, -⟩ := hb
    rcases load_cases i s with h | ⟨n, h⟩ | ⟨n, v, h⟩ <;> rw [h]
    · exact ⟨h1, h2, h3⟩
    · exact ⟨rfl, rfl, rfl⟩
    · exact ⟨rfl, rfl, rfl⟩
  obtain ⟨h1, h2, h3⟩ := hfirst
  cases i with
  | silence dur => simp [EmittedPart, h3]
  | tonebytes len base => exact ⟨[], by rw [h1]; rfl, by rw [h2, h3]; rfl⟩
  | tone dur rsvd freqs => simp [EmittedPart, h3]
  | audio len base => simp [EmittedPart, h3, memReadMany]
  | mark => exact absurd rfl hw
  | space => exact absurd rfl hw
  | attnSingle => exact absurd rfl hw
  | attnCombined => exact absurd rfl hw

/-- The mix of a TONE's carriers over its whole length is its render (40_tone_generator R108, R115). -/
theorem map_toneMix_eq_render (sr dur : Nat) (freqs : List Word) :
    (List.range (ncount sr dur)).map (toneMix (ncount sr dur) dur freqs) = render sr (.tone dur freqs) := by
  rw [render, multi_eq_map]
  refine List.map_congr_left fun i _ => ?_
  rw [toneMix, List.map_map]
  refine congrArg mix (List.map_congr_left fun f _ => ?_)
  rw [carrierPhase_eq, Function.comp_apply, hertz, Rat.mkRat_eq_div]
  rfl

/-- What an exhausted descriptor has emitted is the render of the section it stands for (44_section_sequencer R195,
R202). -/
theorem exists_section_of_exhausted {i : Instr} {tail : List Sample} {s : State} (hl : Loaded i s)
    (hp : EmittedPart i tail s) (hx : exhausted i s = true) :
    ∃ x, sectionOf i s = some x ∧ tail = render s.srate.toNat x := by
  cases i with
  | silence dur =>
    obtain ⟨hn, -⟩ : PlainSegment _ s := hl
    have hs : s.samp = s.ncur := by simpa [exhausted] using hx
    exact ⟨_, rfl, hp.trans (by rw [hs, hn]; rfl)⟩
  | tonebytes len base =>
    have hseg : ByteSegment len.toNat base.toNat s := hl
    obtain ⟨bs, hbs, htail⟩ := hp
    have hend : s.ncur = 0 ∨ s.bytep = len.toNat := by simpa [exhausted] using hx
    obtain ⟨hs, hb⟩ := hseg.ended hend
    have htail' : tail = bytesRender s.srate.toNat bs := by
      rw [htail, hs, hb]
      exact List.append_nil _
    rcases hend with h0 | hlen
    · have hsilent : nbit s.srate.toNat = 0 := hseg.ncur ▸ h0
      obtain ⟨x, hx, hr⟩ := sectionOf_tonebytes_of_silent len base hsilent
      exact ⟨x, hx, by rw [hr, htail', bytesRender_of_silent hsilent]⟩
    · exact ⟨_, sectionOf_tonebytes_of_written (hlen ▸ hbs), htail'⟩
  | tone dur rsvd freqs =>
    obtain ⟨hn, -⟩ : PlainSegment _ s := hl
    have hs : s.samp = s.ncur := by simpa [exhausted] using hx
    exact ⟨_, rfl, hp.trans (by rw [hs, hn, map_toneMix_eq_render])⟩
  | audio len base =>
    obtain ⟨hn, -⟩ : PlainSegment _ s := hl
    have hs : s.samp = s.ncur := by simpa [exhausted] using hx
    have hread : memReadMany s.amem base.toNat len.toNat = some tail := by rw [← hn, ← hs]; exact hp
    exact ⟨.audio tail, by simp [sectionOf, hread], rfl⟩
  | mark => exact hl.elim
  | space => exact hl.elim
  | attnSingle => exact hl.elim
  | attnCombined => exact hl.elim

/-- From `s` to `t` the descriptor `i` has emitted the sample `v` after `tail`. -/
structure EmitsOne (i : Instr) (tail : List Sample) (v : Sample) (s t : State) : Prop where
  stays : StaysAtDescriptor s t
  out : t.out = s.out ++ [v]
  loaded : Loaded i t
  part : EmittedPart i (tail ++ [v]) t

theorem emitsOne_nextSample {i : Instr} {tail : List Sample} {v : Sample} {s : State}
    (hi : ∀ len base, i ≠ .tonebytes len base) (hl : Loaded i s) (hx : exhausted i s = false)
    (hp : EmittedPart i (tail ++ [v]) (nextSample (pushSample v s))) :
    EmitsOne i tail v s (nextSample (pushSample v s)) :=
  ⟨staysAtDescriptor_nextSample v s, rfl, hl.nextSample_pushSample v hi hx, hp⟩

/-- The gate goes on to the sample, the bit or the byte after the one emitted. -/
theorem emittedPart_gate {len : BitVec 30} {base : Word} {tail : List Sample} {s : State}
    (hn : s.ncur = nbit s.srate.toNat) (hm : memRead s.bmem (base.toNat + s.bytep) = some s.shreg)
    (hlt : s.bytep < len.toNat) (hp : EmittedPart (.tonebytes len base) tail s) :
    EmittedPart (.tonebytes len base)
      (tail ++ [bitSample (nbit s.srate.toNat) (cyc (sym s.shreg s.bitp.toNat)).toNat s.samp])
      (gate len.toNat base.toNat s) := by
  obtain ⟨bs, hbs, rfl⟩ := hp
  rw [List.append_assoc, ← bytePart_sample]
  by_cases hs : s.samp + 1 = s.ncur
  · have hbit : bytePart s.srate.toNat s.shreg s.bitp.toNat (s.samp + 1) =
        bytePart s.srate.toNat s.shreg (s.bitp.toNat + 1) 0 := by rw [hs, hn, bytePart_bit]
    rw [hbit]
    by_cases h7 : s.bitp = 7
    · have hbyte : bytesRender s.srate.toNat bs ++ bytePart s.srate.toNat s.shreg (s.bitp.toNat + 1) 0 =
          bytesRender s.srate.toNat (bs ++ [s.shreg]) := by
        rw [h7, bytesRender_concat, ← bytePart_byte]
        rfl
      have hread := memReadMany_succ hbs hm
      rw [gate_of_byte hs h7, hbyte]
      rcases nextByte_cases len.toNat base.toNat { s with samp := 0 } with ⟨v, -, he⟩ | ⟨-, he⟩ <;> rw [he] <;>
        exact ⟨_, hread, (List.append_nil _).symm⟩
    · rw [gate_of_bit hs h7, nextBit_of_lt (s := { s with samp := 0 }) hlt, ← toNat_bitp_succ h7]
      exact ⟨bs, hbs, rfl⟩
  · rw [gate_of_sample hs]
    exact ⟨bs, hbs, rfl⟩

/-- One EMIT of a descriptor that is not exhausted is an `E_UNINIT` at its first unreadable element, or the emission of one
more sample of it. -/
theorem emitOf_progress {i : Instr} {tail : List Sample} {s : State} (hd : descriptorAt s s.pcw = .ok i) (hl : Loaded i s)
    (hp : EmittedPart i tail s) (hx : exhausted i s = false) :
    (emitOf i s = .next (raise .uninit s) ∧ RenderedBeforeError (raise .uninit s) tail) ∨
    ∃ v f, emitOf i s = emitThen v f s ∧ EmitsOne i tail v s (f (pushSample v s)) := by
  cases i with
  | silence dur =>
    refine .inr ⟨posZero, nextSample, rfl, emitsOne_nextSample (by simp) hl hx ?_⟩
    obtain rfl : tail = _ := hp
    exact List.replicate_succ'.symm
  | tone dur rsvd freqs =>
    refine .inr ⟨toneMix s.ncur dur.toNat freqs s.samp, nextSample, rfl, emitsOne_nextSample (by simp) hl hx ?_⟩
    obtain rfl : tail = _ := hp
    show _ = (List.range (s.samp + 1)).map (toneMix s.ncur dur.toNat freqs)
    simp [List.range_succ]
  | audio len base =>
    have hread : memReadMany s.amem base.toNat s.samp = some tail := hp
    cases hm : memRead s.amem (base.toNat + s.samp) with
    | none =>
      obtain ⟨hn, hle, -⟩ : PlainSegment _ s := hl
      have hne : s.samp ≠ s.ncur := by simpa [exhausted] using hx
      obtain ⟨htail, -⟩ := memReadMany_eq_some.1 hread
      refine .inl ⟨by simp [emitOf, emitAudio, hm], .inr (.inr ⟨errCodeOf_raise _ _, len, base, tail, hd, ?_, ?_, ?_, rfl⟩)⟩
      · omega
      · rw [htail]; exact hread
      · rw [htail]; exact hm
    | some v =>
      exact .inr ⟨v, nextSample, by simp [emitOf, emitAudio, hm],
        emitsOne_nextSample (by simp) hl hx (memReadMany_succ hread hm)⟩
  | tonebytes len base =>
    have hseg : ByteSegment len.toNat base.toNat s := hl
    have hle := hseg.bytep
    obtain ⟨hn, hb⟩ : s.ncur ≠ 0 ∧ s.bytep ≠ len.toNat := by simpa [exhausted] using hx
    have hlt : s.bytep < len.toNat := by omega
    rcases hseg.byte (Nat.pos_of_ne_zero hn) hlt with ⟨hm, hc⟩ | ⟨hm, -, hbit, hsamp⟩
    · refine .inr ⟨_, _, emitTonebytes_of_readable fun _ _ => by simp [hm], staysAtDescriptor_gate _ _ _ s, gate_out _ _ _,
        (hseg.pushSample _).gate hn hb hm hc, ?_⟩
      rw [hc, hseg.ncur]
      exact emittedPart_gate (s := pushSample _ s) hseg.ncur hm hlt hp
    · obtain ⟨bs, hbs, htail⟩ := hp
      obtain ⟨hlen, -⟩ := memReadMany_eq_some.1 hbs
      refine .inl ⟨emitTonebytes_of_unreadable hsamp hbit hm,
        .inr (.inl ⟨errCodeOf_raise _ _, len, base, bs, hd, hlen ▸ hlt, ?_, ?_, ?_⟩)⟩
      · rw [hlen]; exact hbs
      · rw [hlen]; exact hm
      · rw [htail, hsamp, hbit]
        exact List.append_nil _
  | mark => exact hl.elim
  | space => exact hl.elim
  | attnSingle => exact hl.elim
  | attnCombined => exact hl.elim

/-! What OUT holds. -/

/-- The plan before `PCW` is the descriptors `is`, which stand for the sections `ss`, and OUT is their render followed by
`tail` (44_section_sequencer R202). -/
structure RenderedSoFar (is : List Instr) (ss : List Section) (tail : List Sample) (s : State) : Prop where
  descriptors : ∀ i ∈ is, encodable i = true ∧ wordsOf i ≠ 0
  stored : memReadMany s.pmem 0 s.pcw = some (packInstrs is)
  count : is.length = s.secp
  sections : sectionsOf is s = some ss
  out : s.out = renderList s.srate.toNat ss ++ tail

section
variable {is : List Instr} {ss : List Section} {tail : List Sample} {s t : State}

/-- A move inside the descriptor at `PCW`, which may have emitted more of it. -/
theorem RenderedSoFar.of_clear_eq (h : RenderedSoFar is ss tail s) (hc : clear t = clear s) (hpcw : t.pcw = s.pcw)
    (hsecp : t.secp = s.secp) {vs : List Sample} (ho : t.out = s.out ++ vs) : RenderedSoFar is ss (tail ++ vs) t := by
  have same {α : Type} (f : State → α) : f (clear t) = f (clear s) := congrArg f hc
  have hpmem : t.pmem = s.pmem := same State.pmem
  have hsrate : t.srate = s.srate := same State.srate
  have hsame : sectionsOf is t = sectionsOf is s := sectionsOf_congr is (same State.bmem) (same State.amem) hsrate
  obtain ⟨hdesc, hstored, hcount, hsections, hout⟩ := h
  exact ⟨hdesc, by rw [hpmem, hpcw, hstored], by rw [hsecp, hcount], hsame.trans hsections,
    by rw [ho, hout, hsrate, List.append_assoc]⟩

theorem RenderedSoFar.raise (h : RenderedSoFar is ss tail s) (e : ErrCause) : RenderedSoFar is ss tail (raise e s) := by
  have := h.of_clear_eq (clear_raise e s) rfl rfl (vs := []) (List.append_nil _).symm
  rwa [List.append_nil] at this

/-- RETIRE of a descriptor whose whole section is in OUT. -/
theorem RenderedSoFar.advance {i : Instr} {x : Section} (h : RenderedSoFar is ss tail s)
    (hd : descriptorAt s s.pcw = .ok i) (hx : sectionOf i s = some x) (ht : tail = render s.srate.toNat x) :
    RenderedSoFar (is ++ [i]) (ss ++ [x]) [] (advance (wordsOf i) s) := by
  obtain ⟨hw, he, -⟩ := descriptorAt_eq_ok.1 hd
  obtain ⟨hdesc, hstored, hcount, hsections, hout⟩ := h
  have hread := memReadMany_of_descriptorAt hd
  rw [← Nat.zero_add s.pcw] at hread
  refine ⟨?desc, ?stored, by simp [hcount], ?sections, ?out⟩
  case desc =>
    intro j hj
    rcases List.mem_append.1 hj with hj | hj
    · exact hdesc j hj
    · exact List.mem_singleton.1 hj ▸ ⟨he, hw⟩
  case stored =>
    have hpack : packInstrs (is ++ [i]) = packInstrs is ++ encodeWords i := by simp [packInstrs]
    rw [hpack]
    exact memReadMany_add hstored hread
  case sections =>
    rw [sectionsOf_congr _ (advance_bmem _ s) (advance_amem _ s) (advance_srate _ s)]
    exact sectionsOf_concat hsections hx
  case out => simp [hout, ht]

end

/-! What OUT holds at every moment of a run. -/

/-- Where a run is, with what OUT holds there: at the end of the plan; in a loaded descriptor, part of which is in OUT;
ended in DONE; or ended in an error. -/
inductive RunRendered (s : State) : Prop
  | atEnd (hst : s.st = .run) (hend : s.pcw = s.plen.toNat) (is : List Instr) (ss : List Section)
      (h : RenderedSoFar is ss [] s)
  | inDescriptor (hst : s.st = .run) (i : Instr) (hd : descriptorAt s s.pcw = .ok i) (hc : fetchCheck i s = none)
      (hl : Loaded i s) (is : List Instr) (ss : List Section) (tail : List Sample) (hp : EmittedPart i tail s)
      (h : RenderedSoFar is ss tail s)
  | inDone (hst : s.st = .done) (hend : s.pcw = s.plen.toNat) (is : List Instr) (ss : List Section)
      (h : RenderedSoFar is ss [] s)
  | inError (hst : s.st = .error) (is : List Instr) (ss : List Section) (tail : List Sample)
      (h : RenderedSoFar is ss tail s) (he : RenderedBeforeError s tail)

/-- A place in the descriptor at `PCW`, reached by a move inside it. -/
theorem runRendered_of_stays {i : Instr} {is : List Instr} {ss : List Section} {tail vs : List Sample} {s t : State}
    (hst : s.st = .run) (hd : descriptorAt s s.pcw = .ok i) (hc : fetchCheck i s = none)
    (h : RenderedSoFar is ss tail s) (hm : StaysAtDescriptor s t) (ho : t.out = s.out ++ vs) (hl : Loaded i t)
    (hp : EmittedPart i (tail ++ vs) t) : RunRendered t := by
  have same {α : Type} (f : State → α) : f (clear t) = f (clear s) := congrArg f hm.clear
  have hd' : descriptorAt t t.pcw = .ok i := by
    rw [hm.pcw]
    exact (descriptorAt_congr _ (same State.pmem) (same State.plen)).trans hd
  have hc' : fetchCheck i t = none := (fetchCheck_congr i (same State.bmem) (same State.srate)).trans hc
  exact .inDescriptor (hm.st.trans hst) i hd' hc' hl is ss (tail ++ vs) hp (h.of_clear_eq hm.clear hm.pcw hm.secp ho)

/-- What FETCH finds wrong at a place: the cause the reading of its descriptor gives, or else that of its checks. -/
def FetchFails (e : ErrCause) (s : State) : Prop :=
  descriptorAt s s.pcw = .error e ∨ ∃ i, descriptorAt s s.pcw = .ok i ∧ fetchCheck i s = some e

theorem fetch_of_end {s : State} (h : s.pcw = s.plen.toNat) : fetch s = s := by
  simp only [fetch, if_pos h]

theorem fetch_of_fails {e : ErrCause} {s : State} (h : s.pcw ≠ s.plen.toNat) (he : FetchFails e s) :
    fetch s = raise e s := by
  rcases he with hd | ⟨i, hd, hc⟩
  · simp only [fetch, if_neg h, hd]
  · simp only [fetch, if_neg h, hd, hc]

/-- A descriptor is read and passes its checks, or FETCH finds something wrong. -/
theorem fetchFails_or_descriptor (s : State) :
    (∃ e, FetchFails e s) ∨ ∃ i, descriptorAt s s.pcw = .ok i ∧ fetchCheck i s = none := by
  cases hd : descriptorAt s s.pcw with
  | error e => exact .inl ⟨e, .inl hd⟩
  | ok i =>
    cases hc : fetchCheck i s with
    | some e => exact .inl ⟨e, .inr ⟨i, hd, hc⟩⟩
    | none => exact .inr ⟨i, rfl, hc⟩

/-- FETCH between descriptors ends at the end of the plan, in an error with nothing of the descriptor in OUT, or at the
first place of a descriptor. -/
theorem runRendered_fetch {is : List Instr} {ss : List Section} {s : State} (hst : s.st = .run)
    (hb : BetweenDescriptors s) (h : RenderedSoFar is ss [] s) : RunRendered (fetch s) := by
  by_cases hend : s.pcw = s.plen.toNat
  · rw [fetch_of_end hend]
    exact .atEnd hst hend is ss h
  · rcases fetchFails_or_descriptor s with ⟨e, he⟩ | ⟨i, hd, hc⟩
    · rw [fetch_of_fails hend he]
      exact .inError rfl is ss [] (h.raise e) (.inl ⟨rfl, e, errCodeOf_raise e s, he⟩)
    · obtain ⟨hw, -⟩ := descriptorAt_eq_ok.1 hd
      rw [fetch_of_descriptor hend hd hc]
      exact runRendered_of_stays hst hd hc h (staysAtDescriptor_load i s) (by rw [load_out, List.append_nil])
        (loaded_of_load hw hb hc) (emittedPart_load hw hb)

/-- Every step of the block goes on with the render: FINISH at the end of the plan, else RETIRE of a section that is in OUT
whole, or an EMIT of one more sample of it, or of none and `E_UNINIT`. -/
theorem RunRendered.blockStep {s t : State} (h : RunRendered s) (hb : blockStep s = .next t) : RunRendered t := by
  cases h with
  | atEnd hst hend is ss h =>
    cases (blockStep_of_end hst hend).symm.trans hb
    exact .inDone rfl hend is ss (h.of_clear_eq (clear_finish s) rfl rfl (vs := []) (List.append_nil _).symm)
  | inDescriptor hst i hd hc hl is ss tail hp h =>
    obtain ⟨hw, -, hfits, -⟩ := descriptorAt_eq_ok.1 hd
    have hstep : exec i s = .next t := (blockStep_of_descriptor hst (by omega) hd).symm.trans hb
    rcases exec_descriptor_cases hw s with ⟨e, he, -⟩ | ⟨-, hx, he⟩ | ⟨-, hx, he⟩
    · cases hc.symm.trans he
    · cases he.symm.trans hstep
      obtain ⟨x, hsec, htail⟩ := exists_section_of_exhausted hl hp hx
      exact runRendered_fetch hst ⟨rfl, rfl, rfl, rfl, rfl, rfl⟩ (h.advance hd hsec htail)
    · have hemit : emitOf i s = .next t := he.symm.trans hstep
      rcases emitOf_progress hd hl hp hx with ⟨hr, herr⟩ | ⟨v, f, hr, hone⟩
      · cases hr.symm.trans hemit
        exact .inError rfl is ss tail (h.raise .uninit) herr
      · obtain ⟨-, rfl⟩ := emitThen_eq_next.1 (hr.symm.trans hemit)
        exact runRendered_of_stays hst hd hc h hone.stays hone.out hone.loaded hone.part
  | inDone hst hend is ss h =>
    cases (blockStep_of_not_run (s := s) (by simp [hst])).symm.trans hb
    exact .inDone hst hend is ss h
  | inError hst is ss tail h he =>
    cases (blockStep_of_not_run (s := s) (by simp [hst])).symm.trans hb
    exact .inError hst is ss tail h he

/-! START. -/

/-- In `u` the run of `s` has been opened: nothing of it has happened. -/
structure JustOpened (s u : State) : Prop where
  st : u.st = .run
  work : WorkClear u
  out : u.out = []
  outcnt : u.outcnt = 0
  inputs : u.inputs = s.inputs

theorem justOpened_openRun (s : State) : JustOpened s (openRun s) :=
  ⟨rfl, ⟨rfl, rfl, rfl, rfl, rfl, rfl, rfl, rfl⟩, rfl, rfl, rfl⟩

/-- START opens a run, and then raises an error or fetches. -/
theorem start_cases (s : State) : ∃ u, JustOpened s u ∧ ((∃ e, start s = raise e u) ∨ start s = fetch u) := by
  have hopen := justOpened_openRun s
  have plan (u : State) : (∃ e, startPlan u = raise e u) ∨ startPlan u = fetch u := by
    rw [startPlan]
    split
    · exact .inl ⟨_, rfl⟩
    · exact .inr rfl
  cases hd : modeDirect s with
  | true => exact ⟨openRun s, hopen, start_of_direct hd ▸ plan _⟩
  | false =>
    cases hc : warningCheck s with
    | some e => exact ⟨openRun s, hopen, .inl ⟨e, start_of_warning_error hd hc⟩⟩
    | none =>
      obtain ⟨hst, ⟨h1, h2, h3, h4, h5, h6, h7, h8⟩, hout, hcnt, hin⟩ := hopen
      exact ⟨warningReady s, ⟨hst, ⟨h1, h2, h3, h4, h5, h6, h7, h8⟩, hout, hcnt, hin⟩,
        start_of_warning hd hc ▸ plan _⟩

/-- START leaves OUT empty, in whichever state it ends. -/
theorem start_out_outcnt (s : State) : (start s).out = [] ∧ (start s).outcnt = 0 := by
  obtain ⟨u, hu, ⟨e, h⟩ | h⟩ := start_cases s
  · exact ⟨by rw [h, raise_out, hu.out], by rw [h, raise_outcnt, hu.outcnt]⟩
  · exact ⟨by rw [h, fetch_out, hu.out], by rw [h, fetch_outcnt, hu.outcnt]⟩

@[simp] theorem start_inputs (s : State) : (start s).inputs = s.inputs := by
  obtain ⟨u, hu, ⟨e, h⟩ | h⟩ := start_cases s <;> simp [h, hu.inputs]

/-- A START that begins a run is at the first place of the plan, with nothing rendered. -/
theorem runRendered_start {s : State} (hst : (start s).st = .run) : RunRendered (start s) := by
  obtain ⟨u, hu, ⟨e, h⟩ | h⟩ := start_cases s
  · rw [h] at hst
    cases hst
  · obtain ⟨hpcw, hsecp, h1, h2, h3, h4, h5, h6⟩ := hu.work
    rw [h]
    exact runRendered_fetch (is := []) (ss := []) hu.st ⟨h1, h2, h3, h4, h5, h6⟩
      ⟨by simp, by rw [hpcw]; rfl, hsecp.symm, rfl, hu.out⟩

/-- A check of a WARNING START that fails is an error in section 0, and leaves everything the host owns as it was
(42_protocol_framer R152). -/
theorem start_of_failed_check {s : State} {e : ErrCause} (hd : modeDirect s = false) (hc : warningCheck s = some e) :
    (start s).st = .error ∧ errCodeOf (start s) = errCode e ∧ errSecOf (start s) = 0 ∧ KeepsInputs s (start s) := by
  rw [start_of_warning_error hd hc]
  exact ⟨rfl, errCodeOf_raise _ _, errSecOf_raise _ _, keepsInputs_of_clear_eq (by simp)⟩

/-! Runs without accesses of the host. -/

/-- A step of the block leaves everything the host owns as it was. -/
theorem clear_of_blockStep {s t : State} (h : blockStep s = .next t) : clear t = clear s := by
  rcases blockStep_cases s with ⟨-, hs⟩ | ⟨-, -, hs⟩ | ⟨-, -, e, -, hs⟩ | ⟨-, -, i, hd, hs⟩ <;> rw [hs] at h
  · cases h
    rfl
  · cases h
    exact clear_finish s
  · cases h
    exact clear_raise e s
  · obtain ⟨hw, -⟩ := descriptorAt_eq_ok.1 hd
    exact clear_of_exec (by rintro rfl; exact hw rfl) (by rintro rfl; exact hw rfl) h

/-- What every step of the block keeps, a run without accesses of the host keeps. -/
theorem runSteps_induction {P : State → Prop} (hstep : ∀ s t, P s → blockStep s = .next t → P t) {k : Nat} {s t : State}
    (hi : s.inputs = []) (hs : P s) (h : runSteps k s = .next t) : P t := by
  induction k generalizing s with
  | zero =>
    cases h
    exact hs
  | succ k ih =>
    have hblock := step_of_no_inputs hi
    cases hb : blockStep s with
    | next u =>
      rw [runSteps_of_next k (hblock.trans hb)] at h
      exact ih ((keepsInputs_of_clear_eq (clear_of_blockStep hb)).inputs.trans hi) (hstep s u hs hb) h
    | fault r => cases (runSteps_of_fault k (hblock.trans hb)).symm.trans h
    | refused r => cases (runSteps_of_refused k (hblock.trans hb)).symm.trans h

/-- Settles O30: START leaves OUT empty; a failed check is an error of the opened run; and a run that begins at the render
of nothing goes on with the render, so that in an error OUT holds what it says. -/
theorem outputAfterAnErrorIsTheRenderSoFar : Obligations.OutputAfterAnErrorIsTheRenderSoFar := by
  refine ⟨fun s _ => start_out_outcnt s, fun s e hd hc => ?check, fun s t k hi _ hst hrun hterr => ?run⟩
  case check =>
    obtain ⟨h1, h2, h3, hk⟩ := start_of_failed_check hd hc
    obtain ⟨hout, hcnt⟩ := start_out_outcnt s
    exact ⟨h1, h2, h3, hout, hcnt, hk⟩
  case run =>
    have hi' : (start s).inputs = [] := (start_inputs s).trans hi
    cases runSteps_induction (fun _ _ => RunRendered.blockStep) hi' (runRendered_start hst) hrun with
    | inError _ is ss tail h he =>
      exact ⟨packInstrs is, is, ss, tail, h.stored, packedPlanDecodesToItsDescriptors is h.descriptors, h.count, h.sections,
        h.out, he⟩
    | atEnd hst' => simp [hterr] at hst'
    | inDescriptor hst' => simp [hterr] at hst'
    | inDone hst' => simp [hterr] at hst'

end Sys2Proof.Machine
end

section
/-! PROOFS. The attention kinds: the duration check, the descriptor each kind appends to the plan, and their frame
(43_attention_signal R161 to R164, 44_section_sequencer R187). -/

namespace Sys2Proof.Machine

/-! Words appended to the plan (44_section_sequencer R187). -/

theorem appendPlan_eq (ws : List Word) (s : State) : appendPlan ws s =
    { s with pmem := memWriteMany s.pmem s.plen.toNat ws, plen := s.plen + BitVec.ofNat 32 ws.length } := by
  rw [appendPlan, BitVec.ofNat_add, BitVec.ofNat_toNat, BitVec.setWidth_eq]

/-- The appended words are read from the old end of the plan on. -/
theorem memRead_appendPlan_inside {ws : List Word} (s : State) {j : Nat} {v : Word} (h : ws[j]? = some v) :
    memRead (appendPlan ws s).pmem (s.plen.toNat + j) = some v := by
  obtain ⟨hj, -⟩ := List.getElem?_eq_some_iff.1 h
  rw [appendPlan_pmem, memRead_memWriteMany, if_pos (by omega), Nat.add_sub_cancel_left, h]

theorem memRead_appendPlan_outside {ws : List Word} (s : State) {a : Nat}
    (h : a < s.plen.toNat ∨ s.plen.toNat + ws.length ≤ a) : memRead (appendPlan ws s).pmem a = memRead s.pmem a :=
  memRead_memWriteMany_outside ws s.pmem (by omega)

/-! The descriptor of a kind. -/

theorem encodeWords_attnTone_single {s : State} (h : s.attnDur.toNat < 2 ^ 30) :
    encodeWords (attnTone false s) = [0x80000000#32 ||| s.attnDur, 0x00000001#32, 0x00100590#32] := by
  rw [attnTone, encodeWords, word0_setWidth 2 h]
  rfl

theorem encodeWords_attnTone_combined {s : State} (h : s.attnDur.toNat < 2 ^ 30) :
    encodeWords (attnTone true s) =
      [0x80000000#32 ||| s.attnDur, 0x00000002#32, 0x000D0408#32, 0x000EA600#32] := by
  rw [attnTone, encodeWords, word0_setWidth 2 h]
  rfl

/-- A TONE of one frequency or of two (43_attention_signal R164). -/
theorem wordsOf_attnTone (combined : Bool) (s : State) : wordsOf (attnTone combined s) = if combined then 4 else 3 := by
  cases combined <;> rfl

/-! The duration check (43_attention_signal R161). -/

theorem attnCheck_of_short {s : State} (h : s.attnDur.toNat < 800000) : attnCheck s = some .attnDur :=
  if_pos h

theorem attnCheck_of_long {s : State} (h : 2 ^ 30 ≤ s.attnDur.toNat) : attnCheck s = some .rsvd := by
  have hmin : ¬ s.attnDur.toNat < Config.attnMin := by
    rw [Config.attnMin]
    omega
  rw [attnCheck, if_neg hmin, if_pos h]

/-! The meaning of a kind. -/

theorem exec_decodeAttn (combined : Bool) (s : State) : exec (decodeAttn combined) s = attnConstruct combined s := by
  cases combined <;> rfl

theorem attnConstruct_of_check_error (combined : Bool) {s : State} {e : ErrCause} (h : attnCheck s = some e) :
    attnConstruct combined s = .next (raise e s) := by
  rw [attnConstruct, h]

theorem noRoom_eq_false {n : Nat} {s : State} :
    noRoom n s = false ↔ s.plen.toNat + n ≤ Config.pmemWords ∧ s.plen.toNat + n < 2 ^ 32 := by
  simp only [noRoom, Bool.or_eq_false_iff, decide_eq_false_iff_not, Nat.not_lt, Nat.not_le]

/-- A duration that passes and room for the kind's words: they are appended, and nothing else changes. -/
theorem attnConstruct_appends {combined : Bool} {s : State} {ws : List Word} (hc : attnCheck s = none)
    (hws : encodeWords (attnTone combined s) = ws)
    (hsize : s.plen.toNat + ws.length ≤ Config.pmemWords) (hcount : s.plen.toNat + ws.length < 2 ^ 32) :
    ∃ m, attnConstruct combined s = .next { s with pmem := m, plen := s.plen + BitVec.ofNat 32 ws.length } ∧
      (∀ j v, ws[j]? = some v → memRead m (s.plen.toNat + j) = some v) ∧
      ∀ a, a < s.plen.toNat ∨ s.plen.toNat + ws.length ≤ a → memRead m a = memRead s.pmem a := by
  have hlen : wordsOf (attnTone combined s) = ws.length := by rw [← hws, length_encodeWords]
  have hroom : noRoom (wordsOf (attnTone combined s)) s = false := noRoom_eq_false.2 (hlen ▸ ⟨hsize, hcount⟩)
  refine ⟨(appendPlan ws s).pmem, ?_, fun _ _ => memRead_appendPlan_inside s, fun _ => memRead_appendPlan_outside s⟩
  simp only [attnConstruct, hc, hroom, hws, appendPlan_eq, Bool.false_eq_true, if_false]

/-- Settles O21: both kinds make the one check, which reports the cause before anything is written. -/
theorem attentionKindsRefuseBadDurations : Obligations.AttentionKindsRefuseBadDurations := by
  have refused {s : State} {e : ErrCause} (h : attnCheck s = some e) :
      exec .attnSingle s = .next (raise e s) ∧ exec .attnCombined s = .next (raise e s) :=
    ⟨attnConstruct_of_check_error false h, attnConstruct_of_check_error true h⟩
  exact fun s => ⟨fun hshort => refused (attnCheck_of_short hshort), fun hlong => refused (attnCheck_of_long hlong)⟩

/-- Settles O20: a duration that passes and room for the words leave the append, whose words are the kind's TONE. -/
theorem attentionKindExtendsThePlan : Obligations.AttentionKindExtendsThePlan := by
  intro s hmin hmax
  have hc : attnCheck s = none := (attnCheck_eq_none s).2 ⟨hmin, hmax⟩
  refine ⟨fun hsize hcount => ?single, fun hsize hcount => ?combined⟩
  case single =>
    obtain ⟨m, hexec, hread, hkeep⟩ := attnConstruct_appends hc (encodeWords_attnTone_single hmax) hsize hcount
    exact ⟨m, hexec, hread 0 _ rfl, hread 1 _ rfl, hread 2 _ rfl, hkeep⟩
  case combined =>
    obtain ⟨m, hexec, hread, hkeep⟩ := attnConstruct_appends hc (encodeWords_attnTone_combined hmax) hsize hcount
    exact ⟨m, hexec, hread 0 _ rfl, hread 1 _ rfl, hread 2 _ rfl, hread 3 _ rfl, hkeep⟩

/-- Settles O24: an error, or the append, which writes as many words as the kind's TONE has. -/
theorem attentionFrame : Obligations.AttentionFrame := by
  intro combined s t h
  rw [exec_decodeAttn] at h
  obtain ⟨e, he⟩ | ⟨-, -, happend⟩ := attnConstruct_cases combined s
  case inl =>
    cases he.symm.trans h
    exact .inl ⟨e, rfl⟩
  case inr =>
    cases happend.symm.trans h
    refine .inr ⟨rfl, fun a ha => memRead_appendPlan_outside s ?_⟩
    rwa [length_encodeWords, wordsOf_attnTone]

end Sys2Proof.Machine
end

section
/-! PROOFS. The steps of the sequencer, one at a time: what FETCH loads, what EMIT, RETIRE and FINISH change, and that in a
run one of them is always enabled (44_section_sequencer R172, R173, R195 to R200). -/

namespace Sys2Proof.Machine

open Sys2Proof.Safety

/-! The descriptor at `PCW`, and the step that runs it. -/

/-- Written words of the plan that decode to an instruction, with no word left over, are its descriptor. -/
theorem descriptorAt_of_decode {s : State} {p : Nat} {ws : List Word} {i : Instr} (hfits : p + ws.length ≤ s.plen.toNat)
    (hsize : s.plen.toNat ≤ Config.pmemWords) (hread : memReadMany s.pmem p ws.length = some ws)
    (hdec : decode ws = .ok (i, [])) : descriptorAt s p = .ok i := by
  obtain ⟨hw, he, hws⟩ := decode_eq_ok.1 hdec
  obtain rfl : ws = encodeWords i := by rw [hws, List.append_nil]
  obtain ⟨-, hread⟩ := memReadMany_eq_some.1 hread
  rw [length_encodeWords] at hfits
  exact descriptorAt_eq_ok.2 ⟨hw, he, hfits, hfits.trans hsize, fun j hj => by
    rw [hread j hj, List.getElem?_eq_getElem hj]⟩

/-- A descriptor that can be read lies before the end of the plan. -/
theorem ne_plen_of_descriptorAt {s : State} {p : Nat} {i : Instr} (hd : descriptorAt s p = .ok i) : p ≠ s.plen.toNat := by
  obtain ⟨hw, -, hlt, -⟩ := descriptorAt_eq_ok.1 hd
  omega

/-- Settles O6: the words are the descriptor at `PCW`, which the block's step runs; a `hold` leaves the step to the
block. -/
theorem stepRunsTheDecodedDescriptor : Obligations.StepRunsTheDecodedDescriptor := by
  intro s ws i rest hst hsize hfits hread hdec
  have hd : descriptorAt s s.pcw = .ok i := descriptorAt_of_decode hfits hsize hread hdec
  have hp := ne_plen_of_descriptorAt hd
  refine ⟨fun hi => ?free, fun hi => ?hold⟩
  case free => rw [step_of_no_inputs hi, blockStep_of_descriptor hst hp hd]
  case hold =>
    rw [step_of_hold hi]
    exact blockStep_of_descriptor (s := { s with inputs := rest }) hst hp ((descriptorAt_congr _ rfl rfl).trans hd)

/-- Settles O7: with no access to come the step is the block's, which is FINISH at the end of the plan and nothing outside
RUN. -/
theorem finishEndsTheRunAndNothingFollows : Obligations.FinishEndsTheRunAndNothingFollows := by
  intro s hi
  rw [step_of_no_inputs hi]
  exact ⟨blockStep_of_end, blockStep_of_not_run⟩

/-! RETIRE. -/

theorem exhausted_tonebytes (len : BitVec 30) (base : Word) (s : State) :
    exhausted (.tonebytes len base) s = true ↔ s.ncur = 0 ∨ s.bytep = len.toNat := by
  simp [exhausted]

/-- A descriptor without bytes is exhausted at the end of its segment. -/
theorem exhausted_of_not_tonebytes {i : Instr} (hw : wordsOf i ≠ 0) (hi : ∀ len base, i ≠ .tonebytes len base) (s : State) :
    exhausted i s = true ↔ s.samp = s.ncur := by
  cases i with
  | silence dur => exact beq_iff_eq
  | tone dur rsvd freqs => exact beq_iff_eq
  | audio len base => exact beq_iff_eq
  | tonebytes len base => exact absurd rfl (hi len base)
  | mark => exact absurd rfl hw
  | space => exact absurd rfl hw
  | attnSingle => exact absurd rfl hw
  | attnCombined => exact absurd rfl hw

/-- A descriptor that passes its checks and is exhausted retires. -/
theorem exec_of_exhausted {i : Instr} {s : State} (hw : wordsOf i ≠ 0) (hc : fetchCheck i s = none)
    (hx : exhausted i s = true) : exec i s = .next (retire (wordsOf i) s) := by
  simp only [exec_descriptor hw, descriptorStep, hc, hx, if_true]

/-- Settles O8: `Exhausted()` by the kind of the descriptor, and RETIRE as the move followed by FETCH. -/
theorem exhaustedDescriptorRetires : Obligations.ExhaustedDescriptorRetires := by
  intro i s hw
  refine ⟨⟨?bytes, fun hi => exhausted_of_not_tonebytes hw hi s⟩, fun hc hx => exec_of_exhausted hw hc hx⟩
  case bytes =>
    rintro len base rfl
    exact exhausted_tonebytes len base s

/-! FETCH. -/

/-- A TONEBYTES that has no byte, or no sample a bit, loads no byte. -/
theorem loadTonebytes_of_silent {len base : Nat} {s : State} (h : len = 0 ∨ nbit s.srate.toNat = 0) :
    loadTonebytes len base s = openSegment (nbit s.srate.toNat) s := by
  have hno : ¬ (0 < len ∧ 0 < nbit s.srate.toNat) := by omega
  simp only [loadTonebytes, if_neg hno]

/-- Any other loads its first byte, with `BITP` = 0. -/
theorem loadTonebytes_of_written {len base : Nat} {s : State} {v : Byte} (hl : 0 < len) (hn : 0 < nbit s.srate.toNat)
    (hm : memRead s.bmem base = some v) :
    loadTonebytes len base s = loadByte v (openSegment (nbit s.srate.toNat) s) := by
  simp only [loadTonebytes, hl, hn, and_self, if_true, hm]

/-- Settles O9: FETCH of a descriptor that passes its checks is its load, by the kind of the descriptor. -/
theorem fetchLoadsTheSegment : Obligations.FetchLoadsTheSegment := by
  intro s hp
  refine ⟨fun dur hd => fetch_of_descriptor hp hd rfl, fun dur freqs hd hne hlen => ?tone, fun len base hd hb => ?audio,
    fun len base hd hb => ⟨fun hsilent => ?silent, fun v hl hn hm => ?written⟩⟩
  case tone => exact fetch_of_descriptor hp hd ((toneCheck_eq_none 0 freqs).2 ⟨rfl, hne, hlen⟩)
  case audio => exact fetch_of_descriptor hp hd ((audioCheck_eq_none _ _).2 hb)
  case silent =>
    have hsilent' : len.toNat = 0 ∨ nbit s.srate.toNat = 0 := hsilent.imp_left fun h => congrArg BitVec.toNat h
    have hc : fetchCheck (.tonebytes len base) s = none := (tonebytesCheck_eq_none _ _ _).2 ⟨hb, by omega⟩
    exact (fetch_of_descriptor hp hd hc).trans (loadTonebytes_of_silent hsilent')
  case written =>
    have hpos : 0 < len.toNat := Nat.pos_of_ne_zero fun h0 => hl (BitVec.eq_of_toNat_eq h0)
    have hc : fetchCheck (.tonebytes len base) s = none :=
      (tonebytesCheck_eq_none _ _ _).2 ⟨hb, fun _ _ => by simp [hm]⟩
    exact (fetch_of_descriptor hp hd hc).trans (loadTonebytes_of_written hpos (Nat.pos_of_ne_zero hn) hm)

/-- A plan that fits PMEM is fetched at the end of START. -/
theorem startPlan_of_fits {s : State} (h : s.plen.toNat ≤ Config.pmemWords) : startPlan s = fetch s := by
  rw [startPlan, if_neg (Nat.not_lt.2 h)]

/-- A plan that does not is an error. -/
theorem startPlan_of_too_long {s : State} (h : Config.pmemWords < s.plen.toNat) : startPlan s = raise .bounds s := by
  rw [startPlan, if_pos h]

/-- Settles O28: in DIRECT mode nothing comes between the opening of the run and the size of the plan. -/
theorem directStartFetchesThePlan : Obligations.DirectStartFetchesThePlan := fun _ hd =>
  ⟨fun hlong => (start_of_direct hd).trans (startPlan_of_too_long hlong),
    fun hfits => (start_of_direct hd).trans (startPlan_of_fits hfits)⟩

/-! EMIT. -/

/-- Before the end of its segment a SILENCE emits `+0.0`. -/
theorem exec_silence_of_ne (dur : BitVec 30) {s : State} (h : s.samp ≠ s.ncur) :
    exec (.silence dur) s = emitThen posZero nextSample s :=
  exec_of_not_exhausted (Nat.succ_ne_zero _) rfl (beq_false_of_ne h)

/-- Settles O11: the one EMIT of a SILENCE, with room for its sample. -/
theorem silenceEmitsPositiveZero : Obligations.SilenceEmitsPositiveZero := fun dur _ hsamp hroom =>
  (exec_silence_of_ne dur hsamp).trans (emitThen_of_room hroom)

/-- Settles O12: each of the `NCUR` steps from sample 0 on is an EMIT of `+0.0`. -/
theorem silenceRendersItsDuration : Obligations.SilenceRendersItsDuration := by
  intro dur s n h0 hn hroom
  have hrun := repeatExec_eq_emitted (i := .silence dur) (f := fun _ => posZero) hroom fun j hj => by
    refine exec_silence_of_ne dur ?_
    show s.samp + j ≠ s.ncur
    omega
  rw [hrun, emitted, List.map_const', List.length_range', h0, Nat.zero_add]
  rfl

/-- Settles O13: the one EMIT of an AUDIO, whose sample is written and has room. -/
theorem audioCopiesTheSample : Obligations.AudioCopiesTheSample := by
  intro len base s v hb hsamp hroom hm
  have hemit : exec (.audio len base) s = emitAudio base.toNat s :=
    exec_of_not_exhausted (Nat.succ_ne_zero _) ((audioCheck_eq_none _ _).2 hb) (beq_false_of_ne hsamp)
  rw [hemit, emitAudio, hm]
  exact emitThen_of_room hroom

@[simp] theorem gate_ncur (len base : Nat) (s : State) : (gate len base s).ncur = s.ncur := by
  obtain ⟨_, _, _, _, _, h⟩ := gate_changes len base s
  rw [h]

/-- Settles O23: of the things a meaning can do only the two emissions append a sample, and the one that is followed by the
gate is a TONEBYTES. -/
theorem emitFrame : Obligations.EmitFrame := by
  intro i s t v h1 h2 h hout
  rcases exec_cases h1 h2 h with ⟨e, rfl⟩ | ⟨-, rfl⟩ | ⟨-, rfl⟩ | ⟨x, -, rfl⟩ | ⟨len, base, x, -, hi, rfl⟩
  · simp at hout
  · simp at hout
  · simp at hout
  · obtain rfl : x = v := by simpa using hout
    exact ⟨rfl, rfl, rfl, rfl, rfl, fun _ => rfl⟩
  · exact ⟨gate_pcw _ _ _, gate_secp _ _ _, gate_ncur _ _ _, gate_st _ _ _, gate_errinfo _ _ _,
      fun hn => absurd hi (hn len base)⟩

/-! In a run a step is always enabled (44_section_sequencer R203). -/

theorem keepsWork_finish (s : State) : KeepsWork s (finish s) := ⟨rfl, rfl, rfl, rfl, rfl, rfl, rfl, rfl⟩

theorem keepsWork_raise (e : ErrCause) (s : State) : KeepsWork s (raise e s) := ⟨rfl, rfl, rfl, rfl, rfl, rfl, rfl, rfl⟩

/-- Settles O54: FINISH at the end of the plan; else the fetched descriptor retires or makes one EMIT, which has room for
its sample or raises `E_UNINIT`. -/
theorem runningBlockNeverStalls : Obligations.RunningBlockNeverStalls := by
  intro s h hst hi hroom
  rw [step_of_no_inputs hi]
  obtain ⟨⟨-, -, -, hf⟩, -⟩ := h.run hst
  rcases hf with ⟨hp, -⟩ | ⟨i, hd, hc, -⟩
  · exact ⟨_, blockStep_of_end hst hp, .inl ⟨rfl, rfl, keepsWork_finish s⟩⟩
  · obtain ⟨hw, -⟩ := descriptorAt_eq_ok.1 hd
    rw [blockStep_of_descriptor hst (ne_plen_of_descriptorAt hd) hd]
    by_cases hx : exhausted i s = true
    · refine ⟨_, exec_of_exhausted hw hc hx, .inr (.inl ⟨?_, retire_secp _ s, retire_out _ s⟩)⟩
      rw [retire_pcw]
      omega
    · rw [exec_of_not_exhausted hw hc (Bool.eq_false_of_not_eq_true hx)]
      rcases emitOf_cases hw s with he | ⟨-, v, he⟩ | ⟨len, base, v, -, he⟩ <;> rw [he]
      · exact ⟨_, rfl, .inr (.inr (.inr ⟨rfl, rfl, keepsWork_raise _ s, errCodeOf_raise _ s⟩))⟩
      · exact ⟨_, emitThen_of_room hroom, .inr (.inr (.inl ⟨v, hst, rfl, rfl, rfl⟩))⟩
      · exact ⟨_, emitThen_of_room hroom, .inr (.inr (.inl ⟨v, by simpa using hst, by simp, by simp, by simp⟩))⟩

end Sys2Proof.Machine
end

section
/-! PROOFS. The plan of a warning: its descriptors and its sections, its length in samples, and that what a WARNING START
stores decodes to it (44_section_sequencer R180 to R191, R202). -/

namespace Sys2Proof.Machine

open Sys2Proof.Safety

/-! The descriptors of the plan (44_section_sequencer R180 to R185). -/

/-- The kinds of descriptor in the plan of a warning, with the policy under which each is there. -/
theorem mem_planInstrs {i : Instr} {s : State} : i ∈ planInstrs s ↔
    i = headerInstr s ∨ i = gapInstr ∨ i = eomInstr s ∨ i = .silence Config.trail ∨
    attended s = true ∧ i = attnTone (attnk s) s ∨ msgp s = true ∧ (i = prerollInstr s ∨ i = messageInstr s) := by
  have h1 : i ∈ part1 s ↔ i = headerInstr s ∨ i = gapInstr := by grind [part1]
  have h2 : i ∈ part2 s ↔ attended s = true ∧ (i = gapInstr ∨ i = attnTone (attnk s) s) := by grind [part2]
  have h3 : i ∈ part3 s ↔ msgp s = true ∧ (i = prerollInstr s ∨ i = messageInstr s) := by grind [part3]
  have h4 : i ∈ part4 s ↔ i = gapInstr ∨ i = eomInstr s ∨ i = .silence Config.trail := by
    simp only [part4, List.mem_cons, List.not_mem_nil]
    grind
  simp only [planInstrs, List.mem_append, h1, h2, h3, h4]
  grind

/-- A TONE is in the plan exactly when the attention group is. -/
theorem exists_tone_mem_planInstrs (s : State) :
    (∃ dur rsvd freqs, .tone dur rsvd freqs ∈ planInstrs s) ↔ attended s = true := by
  simp [mem_planInstrs, headerInstr, gapInstr, eomInstr, attnTone, prerollInstr, messageInstr]

/-- An AUDIO is in the plan exactly when the message is. -/
theorem exists_audio_mem_planInstrs (s : State) : (∃ len base, .audio len base ∈ planInstrs s) ↔ msgp s = true := by
  simp [mem_planInstrs, headerInstr, gapInstr, eomInstr, attnTone, prerollInstr, messageInstr]

theorem attended_eq_true (s : State) : attended s = true ↔ apol s = true ∨ crit s = true ∧ msgp s = true := by
  simp [attended]

/-- The plan as sections: 5 and 7 for the header and the end of the message, 3 for attention and 2 for a message. -/
theorem length_warningPlan (s : State) (msg : List Sample) :
    (warningPlan s msg).length = 12 + (if attended s then 3 else 0) + (if msgp s then 2 else 0) := by
  cases ha : attended s <;> cases hm : msgp s <;>
    simp [warningPlan, sections1, sections2, sections3, sections4, ha, hm]

theorem length_planInstrs (s : State) :
    (planInstrs s).length = 12 + (if attended s then 3 else 0) + (if msgp s then 2 else 0) := by
  cases ha : attended s <;> cases hm : msgp s <;> simp [planInstrs, part1, part2, part3, part4, ha, hm]

/-- Settles O49: which descriptors are in the plan, and how many. -/
theorem planFollowsThePolicyTable : Obligations.PlanFollowsThePolicyTable := fun s msg =>
  ⟨(exists_tone_mem_planInstrs s).trans (attended_eq_true s), exists_audio_mem_planInstrs s, attended_eq_true s,
    length_warningPlan s msg, (length_planInstrs s).trans (length_warningPlan s msg).symm⟩

/-! The length of a warning (44_section_sequencer R191). -/

/-- A whole number of seconds has that many times `SRATE` samples. -/
theorem ncount_seconds (sr k : Nat) : ncount sr (k * 100000) = k * sr := by
  rw [ncount, Config.ticksPerSecond, ← Nat.mul_assoc, Nat.mul_div_cancel _ (by decide), Nat.mul_comm]

theorem length_render_silence (sr ticks : Nat) : (render sr (.silence ticks)).length = ncount sr ticks :=
  List.length_replicate

theorem length_render_tone (sr ticks : Nat) (freqs : List Word) : (render sr (.tone ticks freqs)).length = ncount sr ticks :=
  length_multi _ _ _

theorem length_render_toneBytes (sr : Nat) (bs : List Byte) :
    (render sr (.toneBytes bs)).length = 8 * bs.length * nbit sr := length_bytesRender sr bs

/-- The gap and the trailing silence are 1.0 s. -/
theorem length_render_gapSection (sr : Nat) : (render sr gapSection).length = sr :=
  (length_render_silence sr _).trans ((ncount_seconds sr 1).trans (Nat.one_mul sr))

theorem length_render_preroll (sr : Nat) (long : Bool) :
    (render sr (.silence (if long then Config.prerollLong else Config.gap).toNat)).length =
      if long then 4 * sr else sr := by
  rw [length_render_silence]
  cases long with
  | true => exact ncount_seconds sr 4
  | false => exact (ncount_seconds sr 1).trans (Nat.one_mul sr)

theorem length_renderList_sections1 (sr : Nat) {s : State} (h : orgOf s ≤ 4) :
    (renderList sr (sections1 s)).length = 3 * (8 * headerLen s * nbit sr) + 2 * sr := by
  simp only [sections1, renderList_cons, renderList_nil, List.length_append, List.length_nil, length_render_toneBytes,
    length_render_gapSection, length_fmtHeader h]
  ring

theorem length_renderList_sections2 (sr : Nat) (s : State) :
    (renderList sr (sections2 s)).length = if attended s then 2 * sr + ncount sr s.attnDur.toNat else 0 := by
  rw [sections2]
  split
  · simp only [renderList_cons, renderList_nil, List.length_append, List.length_nil, length_render_gapSection,
      length_render_tone]
    ring
  · rfl

theorem length_renderList_sections3 (sr : Nat) (s : State) (msg : List Sample) :
    (renderList sr (sections3 s msg)).length =
      if msgp s then (if preroll s then 4 * sr else sr) + msg.length else 0 := by
  rw [sections3]
  split
  · rw [renderList_cons, List.length_append, length_render_preroll, renderList_cons, renderList_nil, List.append_nil]
    rfl
  · rfl

theorem length_renderList_sections4 (sr : Nat) :
    (renderList sr sections4).length = 3 * sr + 3 * (8 * 20 * nbit sr) + sr := by
  have htrail : (render sr (.silence Config.trail.toNat)).length = sr := length_render_gapSection sr
  simp only [sections4, renderList_cons, renderList_nil, List.length_append, List.length_nil, length_render_toneBytes,
    length_render_gapSection, htrail, length_fmtEom]
  ring

/-- Settles O50: the sum of the lengths of the four parts. -/
theorem warningLength : Obligations.WarningLength := by
  intro s msg horg hmsg sr
  simp only [warningPlan, renderList_append, List.length_append, length_renderList_sections1 sr horg,
    length_renderList_sections2, length_renderList_sections3, length_renderList_sections4, hmsg, headerLen]
  ring

/-! The plan in memory. -/

/-- The descriptors in memory depend on PMEM and `PLEN` alone. -/
theorem planDescriptors_congr {s t : State} (hm : t.pmem = s.pmem) (hp : t.plen = s.plen) :
    planDescriptors t = planDescriptors s := by
  simp only [planDescriptors, hm, hp]

/-- States that agree in everything the host owns hold the same sections. -/
theorem planSections_of_clear_eq {s t : State} (h : clear t = clear s) : planSections t = planSections s := by
  have same {α : Type} (f : State → α) : f (clear t) = f (clear s) := congrArg f h
  have hplan : planDescriptors t = planDescriptors s := planDescriptors_congr (same State.pmem) (same State.plen)
  rw [planSections, planSections, hplan]
  cases planDescriptors s with
  | none => rfl
  | some is => exact sectionsOf_congr is (same State.bmem) (same State.amem) (same State.srate)

/-- A plan in two parts stands for sections exactly when each part does. -/
theorem sectionsOf_append_eq_some {is js : List Instr} {s : State} {ss : List Section} :
    sectionsOf (is ++ js) s = some ss ↔
      ∃ xs ys, sectionsOf is s = some xs ∧ sectionsOf js s = some ys ∧ ss = xs ++ ys := by
  induction is generalizing ss with
  | nil => simp [sectionsOf]
  | cons i is ih =>
    rw [List.cons_append]
    constructor
    · intro h
      obtain ⟨x, zs, hi, hzs, rfl⟩ := sectionsOf_cons_eq_some.1 h
      obtain ⟨xs, ys, hxs, hys, rfl⟩ := ih.1 hzs
      exact ⟨x :: xs, ys, sectionsOf_cons_eq_some.2 ⟨x, xs, hi, hxs, rfl⟩, hys, rfl⟩
    · rintro ⟨xs, ys, hxs, hys, rfl⟩
      obtain ⟨x, zs, hi, hzs, rfl⟩ := sectionsOf_cons_eq_some.1 hxs
      exact sectionsOf_cons_eq_some.2 ⟨x, zs ++ ys, hi, ih.2 ⟨zs, ys, hzs, hys, rfl⟩, rfl⟩

theorem sectionsOf_append {is js : List Instr} {s : State} {ss ts : List Section} (his : sectionsOf is s = some ss)
    (hjs : sectionsOf js s = some ts) : sectionsOf (is ++ js) s = some (ss ++ ts) :=
  sectionsOf_append_eq_some.2 ⟨ss, ts, his, hjs, rfl⟩

/-- Every descriptor of the plan has an encoding. -/
theorem encodable_of_mem_planInstrs {i : Instr} {s : State} (h : i ∈ planInstrs s) :
    encodable i = true ∧ wordsOf i ≠ 0 := by
  rcases mem_planInstrs.1 h with rfl | rfl | rfl | rfl | ⟨-, rfl⟩ | ⟨-, rfl | rfl⟩
  case inr.inr.inr.inr.inl => cases hk : attnk s <;> exact ⟨rfl, Nat.succ_ne_zero _⟩
  all_goals exact ⟨rfl, Nat.succ_ne_zero _⟩

/-- The words that a WARNING START stores are the plan's descriptors. -/
theorem planDescriptors_warningReady (s : State) : planDescriptors (warningReady s) = some (planInstrs s) := by
  have hread : memReadMany (warningReady s).pmem 0 (warningReady s).plen.toNat = some (packInstrs (planInstrs s)) := by
    refine memReadMany_eq_some.2 ⟨(warningReady_plen s).symm, fun k hk => ?_⟩
    rw [warningReady_plen] at hk
    rw [Nat.zero_add, memRead_warningReady_pmem, if_pos hk]
  simp only [planDescriptors, hread]
  exact packedPlanDecodesToItsDescriptors _ fun i hi => encodable_of_mem_planInstrs hi

/-! What the descriptors of the plan stand for, in the state that has the strings in BMEM. -/

/-- The length field of the header's section holds `HL`. -/
theorem toNat_headerLen {s : State} {w : Nat} (hw : 9 ≤ w) (h : nlocOf s ≤ 31) :
    (BitVec.ofNat w (headerLen s)).toNat = headerLen s := by
  have hlt : headerLen s < 2 ^ 9 := by rw [headerLen]; omega
  exact Nat.mod_eq_of_lt (hlt.trans_le (Nat.pow_le_pow_right (by decide) hw))

section
variable {s : State} (hloc : nlocOf s ≤ 31) (horg : orgOf s ≤ 4)
include hloc horg

theorem sectionOf_headerInstr : sectionOf (headerInstr s) (warningReady s) = some (.toneBytes (fmtHeader s)) := by
  have hlen := length_fmtHeader horg
  refine sectionOf_tonebytes_of_written (memReadMany_eq_some.2 ?_)
  rw [toNat_headerLen (by decide) hloc]
  refine ⟨hlen, fun k hk => ?_⟩
  have hk' : k < (fmtHeader s ++ fmtEom).length := by
    rw [List.length_append]
    omega
  show memRead (warningReady s).bmem (0 + k) = _
  rw [Nat.zero_add, memRead_warningReady_bmem, if_pos hk', List.getElem?_append_left (hlen ▸ hk)]

/-- The end-of-message string stands after the header. -/
theorem memRead_warningReady_eom {k : Nat} (hk : k < 20) :
    memRead (warningReady s).bmem ((BitVec.ofNat 32 (headerLen s)).toNat + k) = fmtEom[k]? := by
  have hlen := length_fmtHeader horg
  have hk' : headerLen s + k < (fmtHeader s ++ fmtEom).length := by
    rw [List.length_append, length_fmtEom, hlen]
    exact Nat.add_lt_add_left hk _
  rw [toNat_headerLen (by decide) hloc, memRead_warningReady_bmem, if_pos hk', List.getElem?_append_right (by omega), hlen,
    Nat.add_sub_cancel_left]

theorem sectionOf_eomInstr : sectionOf (eomInstr s) (warningReady s) = some (.toneBytes fmtEom) :=
  sectionOf_tonebytes_of_written
    (memReadMany_eq_some.2 ⟨length_fmtEom, fun _ hk => memRead_warningReady_eom hloc horg hk⟩)

/-- The end-of-message section passes the checks of its FETCH: the two strings have at most 288 bytes. -/
theorem fetchCheck_eomInstr : fetchCheck (eomInstr s) (warningReady s) = none := by
  have hsize := Config.le_bmemBytes
  refine (tonebytesCheck_eq_none _ _ _).2 ⟨?_, fun _ _ => ?_⟩
  · rw [toNat_headerLen (by decide) hloc, headerLen]
    show _ + 20 ≤ _
    omega
  · have hfirst := memRead_warningReady_eom hloc horg (k := 0) (by decide)
    rw [Nat.add_zero] at hfirst
    rw [hfirst]
    exact Option.some_ne_none _

end

theorem sectionOf_silence (dur : BitVec 30) (u : State) : sectionOf (.silence dur) u = some (.silence dur.toNat) := rfl

theorem sectionOf_attnTone {s : State} (combined : Bool) (u : State) (h : s.attnDur.toNat < 2 ^ 30) :
    sectionOf (attnTone combined s) u = some (.tone s.attnDur.toNat (attnFreqs combined)) := by
  rw [attnTone, sectionOf, BitVec.toNat_setWidth, Nat.mod_eq_of_lt h]

/-- The TONE of a kind has one frequency or two, and its reserved bits zero. -/
theorem fetchCheck_attnTone (combined : Bool) (s u : State) : fetchCheck (attnTone combined s) u = none := by
  have hmax := Config.le_nfreqMax
  refine (toneCheck_eq_none _ _).2 ⟨rfl, ?_⟩
  cases combined with
  | true => exact ⟨List.cons_ne_nil _ _, hmax⟩
  | false => exact ⟨List.cons_ne_nil _ _, (Nat.le_succ 1).trans hmax⟩

/-- The section of the message is the samples of AMEM that the registers name. -/
theorem sectionOf_messageInstr {s : State} (h : s.msgLen.toNat < 2 ^ 30) :
    sectionOf (messageInstr s) (warningReady s) = (message s).map .audio := by
  rw [messageInstr, sectionOf, BitVec.toNat_setWidth, Nat.mod_eq_of_lt h]
  rfl

/-- The plan's descriptors stand for the sections of `Plan(w)` (44_section_sequencer R184, R187). -/
theorem sectionsOf_planInstrs {s : State} {msg : List Sample} (hc : warningCheck s = none)
    (hlen : s.msgLen.toNat < 2 ^ 30) (hmsg : msgp s = true → message s = some msg) :
    sectionsOf (planInstrs s) (warningReady s) = some (warningPlan s msg) := by
  obtain ⟨hheader, hattn⟩ := (warningCheck_eq_none s).1 hc
  obtain ⟨-, hloc, -, horg, -⟩ := (headerCheck_eq_none s).1 hheader
  obtain ⟨-, hdur⟩ := (attnCheck_eq_none s).1 hattn
  have hgap (u : State) : sectionOf gapInstr u = some gapSection := rfl
  refine sectionsOf_append (sectionsOf_append (sectionsOf_append ?part1 ?part2) ?part3) ?part4
  case part1 => simp only [part1, sectionsOf, sectionOf_headerInstr hloc horg, hgap, Option.map_some, sections1]
  case part2 =>
    rw [part2, sections2]
    split
    · simp only [sectionsOf, sectionOf_attnTone _ _ hdur, hgap, Option.map_some]
    · rfl
  case part3 =>
    rw [part3, sections3]
    split
    next hm => simp only [sectionsOf, prerollInstr, sectionOf_messageInstr hlen, hmsg hm, sectionOf_silence, Option.map_some]
    next => rfl
  case part4 =>
    simp only [part4, sectionsOf, sectionOf_eomInstr hloc horg, hgap, sectionOf_silence, Option.map_some, sections4]

/-! START of a warning. -/

/-- The plan of a warning fits PMEM, so START fetches it. -/
theorem start_eq_fetch_warningReady {s : State} (hd : modeDirect s = false) (hc : warningCheck s = none) :
    start s = fetch (warningReady s) := by
  have hle := length_packInstrs_planInstrs_le s
  have hsize := Config.le_pmemWords
  rw [start_of_warning hd hc]
  exact startPlan_of_fits ((warningReady_plen s).trans_le (by omega))

/-- Settles O58: FETCH leaves the memories as the strings and the plan were stored, which decode to the sections. -/
theorem warningPlanInMemoryIsThePlan : Obligations.WarningPlanInMemoryIsThePlan := by
  intro s msg hd hc hlen hmsg
  rw [start_eq_fetch_warningReady hd hc, planSections_of_clear_eq (clear_fetch _), planSections,
    planDescriptors_warningReady]
  exact sectionsOf_planInstrs hc hlen hmsg

end Sys2Proof.Machine
end

section
/-! PROOFS. Whole runs: a run takes one step for each sample, each descriptor and its end, and a run over a legal plan is
never in error and renders the plan (44_section_sequencer R176, R196, R202, R203). -/

namespace Sys2Proof.Machine

open Sys2Proof.Safety

/-! Words in memory and the descriptors they are. -/

/-- Consecutive reads of a list in two parts are those of the parts. -/
theorem memReadMany_append {w : Nat} {m : Mem w} {a : Nat} {us vs : List (BitVec w)}
    (h : memReadMany m a (us ++ vs).length = some (us ++ vs)) :
    memReadMany m a us.length = some us ∧ memReadMany m (a + us.length) vs.length = some vs := by
  obtain ⟨-, h⟩ := memReadMany_eq_some.1 h
  rw [List.length_append] at h
  refine ⟨memReadMany_eq_some.2 ⟨rfl, fun k hk => ?_⟩, memReadMany_eq_some.2 ⟨rfl, fun k hk => ?_⟩⟩
  · rw [h k (by omega), List.getElem?_append_left hk]
  · rw [Nat.add_assoc, h _ (by omega), List.getElem?_append_right (by omega), Nat.add_sub_cancel_left]

/-- Of two runs of reads from one address the shorter begins the longer. -/
theorem isPrefix_of_memReadMany {w : Nat} {m : Mem w} {a j k : Nat} {us vs : List (BitVec w)}
    (hus : memReadMany m a j = some us) (hvs : memReadMany m a k = some vs) (hjk : j ≤ k) : us <+: vs := by
  obtain ⟨hul, hu⟩ := memReadMany_eq_some.1 hus
  obtain ⟨-, hv⟩ := memReadMany_eq_some.1 hvs
  refine List.prefix_iff_getElem?.2 fun n hn => ?_
  rw [← hv n (by omega), hu n (by omega), List.getElem?_eq_getElem]

@[simp] theorem packInstrs_cons (i : Instr) (is : List Instr) : packInstrs (i :: is) = encodeWords i ++ packInstrs is := rfl

/-- The words that decode to a list of descriptors are their packed words. -/
theorem eq_packInstrs_of_decodeAll {fuel : Nat} {ws : List Word} {is : List Instr} (h : decodeAll fuel ws = some is) :
    ws = packInstrs is ∧ ∀ i ∈ is, encodable i = true ∧ wordsOf i ≠ 0 := by
  induction fuel generalizing ws is with
  | zero =>
    cases ws with
    | nil =>
      obtain rfl := Option.some.inj h
      exact ⟨rfl, by simp⟩
    | cons w ws => cases h
  | succ fuel ih =>
    cases ws with
    | nil =>
      obtain rfl := Option.some.inj h
      exact ⟨rfl, by simp⟩
    | cons w ws =>
      cases hd : decode (w :: ws) with
      | error e => simp [decodeAll, hd] at h
      | ok x =>
        obtain ⟨i, rest⟩ := x
        rw [decodeAll_of_decode fuel hd] at h
        obtain ⟨js, hjs, rfl⟩ := Option.map_eq_some_iff.1 h
        obtain ⟨hw, he, hws⟩ := decode_eq_ok.1 hd
        obtain ⟨rfl, hall⟩ := ih hjs
        exact ⟨hws, List.forall_mem_cons.2 ⟨⟨he, hw⟩, hall⟩⟩

/-- A packed plan that begins another is that of its first descriptors. -/
theorem isPrefix_of_packInstrs {is js : List Instr} (his : ∀ i ∈ is, encodable i = true ∧ wordsOf i ≠ 0)
    (hjs : ∀ j ∈ js, encodable j = true ∧ wordsOf j ≠ 0) (h : packInstrs is <+: packInstrs js) : is <+: js := by
  induction is generalizing js with
  | nil => exact List.nil_prefix
  | cons i is ih =>
    obtain ⟨⟨he, hw⟩, his'⟩ := List.forall_mem_cons.1 his
    obtain ⟨rest, hrest⟩ := h
    rw [packInstrs_cons, List.append_assoc] at hrest
    have hread := decode_encodeWords_append hw he (packInstrs is ++ rest)
    rw [hrest] at hread
    cases js with
    | nil => cases hread
    | cons j js =>
      obtain ⟨⟨hej, hwj⟩, hjs⟩ := List.forall_mem_cons.1 hjs
      rw [packInstrs_cons, decode_encodeWords_append hwj hej] at hread
      obtain ⟨rfl, htail⟩ := Prod.mk.inj (Except.ok.inj hread)
      exact List.cons_prefix_cons.2 ⟨rfl, ih his' hjs ⟨rest, htail.symm⟩⟩

/-- What the words of a plan say, taken apart: they are the packed words of its descriptors. -/
theorem planDescriptors_eq_some {s : State} {is : List Instr} (h : planDescriptors s = some is) :
    memReadMany s.pmem 0 s.plen.toNat = some (packInstrs is) ∧ ∀ i ∈ is, encodable i = true ∧ wordsOf i ≠ 0 := by
  rw [planDescriptors] at h
  cases hr : memReadMany s.pmem 0 s.plen.toNat with
  | none => simp [hr] at h
  | some ws =>
    simp only [hr] at h
    obtain ⟨rfl, hall⟩ := eq_packInstrs_of_decodeAll h
    exact ⟨rfl, hall⟩

/-! What a step in RUN is. -/

/-- The four things a step of the block in RUN can do. -/
inductive StepInRun (s t : State) : Prop
  | finish (hend : s.pcw = s.plen.toNat) (h : t = finish s)
  | raise (e : ErrCause) (h : t = raise e s)
  | retire (i : Instr) (hd : descriptorAt s s.pcw = .ok i) (h : t = retire (wordsOf i) s)
  | emit (v : Sample) (hm : StaysAtDescriptor s t) (hout : t.out = s.out ++ [v]) (hcnt : t.outcnt = s.outcnt + 1)
      (hroom : s.outcnt + 1 < 2 ^ 64)

theorem stepInRun_of_blockStep {s t : State} (hst : s.st = .run) (h : blockStep s = .next t) : StepInRun s t := by
  rcases blockStep_cases s with ⟨hn, -⟩ | ⟨-, hp, hs⟩ | ⟨-, -, e, -, hs⟩ | ⟨-, -, i, hd, hs⟩
  · exact absurd hst hn
  · cases hs.symm.trans h
    exact .finish hp rfl
  · cases hs.symm.trans h
    exact .raise e rfl
  · obtain ⟨hw, -⟩ := descriptorAt_eq_ok.1 hd
    rcases exec_cases (by rintro rfl; exact hw rfl) (by rintro rfl; exact hw rfl) (hs.symm.trans h) with
      ⟨e, he⟩ | ⟨-, hr⟩ | ⟨hw0, -⟩ | ⟨v, hroom, rfl⟩ | ⟨len, base, v, hroom, -, rfl⟩
    · exact .raise e he
    · exact .retire i hd hr
    · exact absurd hw0 hw
    · exact .emit v (staysAtDescriptor_nextSample v s) rfl rfl hroom
    · exact .emit v (staysAtDescriptor_gate _ _ v s) (gate_out _ _ _) (gate_outcnt _ _ _) hroom

/-- OUT only grows. -/
theorem out_isPrefix_of_blockStep {s t : State} (h : blockStep s = .next t) : s.out <+: t.out := by
  by_cases hst : s.st = .run
  · cases stepInRun_of_blockStep hst h with
    | finish _ ht => rw [ht, finish_out]
    | raise e ht => rw [ht, raise_out]
    | retire i _ ht => rw [ht, retire_out]
    | emit v _ hout => exact ⟨[v], hout.symm⟩
  · cases (blockStep_of_not_run hst).symm.trans h
    exact List.prefix_rfl

/-! How far a run has come after `k` steps. -/

/-- Where a run is `k` steps after its START, with no access of the host to come: in RUN it has made one step for each
sample and for each descriptor behind it (44_section_sequencer R203). -/
structure RunAt (k : Nat) (s : State) : Prop where
  rendered : RunRendered s
  inside : s.pcw ≤ s.plen.toNat
  steps : s.st = .run → s.out.length + s.secp = k
  counted : s.outcnt = s.out.length
  bounded : s.outcnt < 2 ^ 64
  errinfo : s.st ≠ .error → s.errinfo = 0
  inputs : s.inputs = []

theorem RunAt.blockStep {k : Nat} {s t : State} (h : RunAt k s) (hb : blockStep s = .next t) : RunAt (k + 1) t := by
  have hrend := h.rendered.blockStep hb
  have hclear := clear_of_blockStep hb
  have hin : t.inputs = [] := (keepsInputs_of_clear_eq hclear).inputs.trans h.inputs
  have hplen : t.plen = s.plen := (keepsInputs_of_clear_eq hclear).plen
  have hinside := h.inside
  have hcounted := h.counted
  by_cases hst : s.st = .run
  · have hsteps := h.steps hst
    have herr : s.errinfo = 0 := h.errinfo (by simp [hst])
    cases stepInRun_of_blockStep hst hb with
    | finish _ ht =>
      subst ht
      exact ⟨hrend, hinside, by simp, hcounted, h.bounded, fun _ => herr, hin⟩
    | raise e ht =>
      subst ht
      exact ⟨hrend, hinside, by simp, hcounted, h.bounded, by simp, hin⟩
    | retire i hd ht =>
      subst ht
      obtain ⟨-, -, hfits, -⟩ := descriptorAt_eq_ok.1 hd
      refine ⟨hrend, ?_, fun _ => ?_, by simpa using hcounted, by simpa using h.bounded, fun hne => ?_, hin⟩
      · rw [hplen, retire_pcw]
        exact hfits
      · rw [retire_out, retire_secp]
        omega
      · rcases fetch_st_errinfo (advance (wordsOf i) s) with ⟨-, he⟩ | he
        · exact he.trans herr
        · exact absurd he hne
    | emit v hm hout hcnt hroom =>
      refine ⟨hrend, ?_, fun _ => ?_, ?_, hcnt ▸ hroom, fun _ => hm.errinfo.trans herr, hin⟩
      · rw [hplen, hm.pcw]
        exact hinside
      · rw [hout, hm.secp, List.length_append, List.length_singleton]
        omega
      · rw [hcnt, hout, List.length_append, List.length_singleton, hcounted]
  · cases (blockStep_of_not_run hst).symm.trans hb
    exact ⟨hrend, hinside, fun hr => absurd hr hst, hcounted, h.bounded, h.errinfo, hin⟩

/-- A run of a step more is a step and a run. -/
theorem runSteps_succ_eq_next {k : Nat} {s t : State} (h : runSteps (k + 1) s = .next t) :
    ∃ u, step s = .next u ∧ runSteps k u = .next t := by
  cases hs : step s with
  | next u => exact ⟨u, rfl, (runSteps_of_next k hs).symm.trans h⟩
  | fault r => cases (runSteps_of_fault k hs).symm.trans h
  | refused r => cases (runSteps_of_refused k hs).symm.trans h

theorem RunAt.runSteps {j k : Nat} {s t : State} (h : RunAt j s) (hr : runSteps k s = .next t) : RunAt (j + k) t := by
  induction k generalizing j s with
  | zero =>
    cases hr
    exact h
  | succ k ih =>
    obtain ⟨u, hs, hr⟩ := runSteps_succ_eq_next hr
    rw [step_of_no_inputs h.inputs] at hs
    rw [← Nat.succ_add_eq_add_succ]
    exact ih (h.blockStep hs) hr

/-- FETCH of the first descriptor, once the run is opened, is the first moment of the run. -/
theorem runAt_fetch {s u : State} (hu : JustOpened s u) (he : u.errinfo = 0) (hi : s.inputs = []) : RunAt 0 (fetch u) := by
  obtain ⟨hst, ⟨hpcw, hsecp, h1, h2, h3, h4, h5, h6⟩, hout, hcnt, hin⟩ := hu
  have hrend : RunRendered (fetch u) := runRendered_fetch (is := []) (ss := []) hst ⟨h1, h2, h3, h4, h5, h6⟩
    ⟨by simp, by rw [hpcw]; rfl, hsecp.symm, rfl, hout⟩
  refine ⟨hrend, by simp [hpcw], fun _ => by simp [hout, hsecp], by simp [hcnt, hout], by simp [hcnt], fun hne => ?_,
    by rw [fetch_inputs, hin, hi]⟩
  rcases fetch_st_errinfo u with ⟨-, h⟩ | h
  · exact h.trans he
  · exact absurd h hne

theorem clear_of_runSteps {k : Nat} {s t : State} (hi : s.inputs = []) (h : runSteps k s = .next t) : clear t = clear s :=
  runSteps_induction (P := fun u => clear u = clear s) (fun _ _ hu hb => (clear_of_blockStep hb).trans hu) hi rfl h

theorem out_isPrefix_of_runSteps {k : Nat} {s t : State} (hi : s.inputs = []) (h : runSteps k s = .next t) :
    s.out <+: t.out :=
  runSteps_induction (P := fun u => s.out <+: u.out) (fun _ _ hu hb => hu.trans (out_isPrefix_of_blockStep hb)) hi
    List.prefix_rfl h

/-! A legal plan, and where a run is in it. -/

/-- The plan in memory is the descriptors `is`, which fit PMEM, pass their checks and stand for the sections `ss`. -/
structure LegalPlan (is : List Instr) (ss : List Section) (s : State) : Prop where
  fits : s.plen.toNat ≤ Config.pmemWords
  descriptors : planDescriptors s = some is
  checks : ∀ i ∈ is, fetchCheck i s = none
  sections : sectionsOf is s = some ss

/-- A legal plan is the host's: no step of the block touches it. -/
theorem LegalPlan.of_clear_eq {is : List Instr} {ss : List Section} {s t : State} (h : LegalPlan is ss s)
    (hc : clear t = clear s) : LegalPlan is ss t := by
  have same {α : Type} (f : State → α) : f (clear t) = f (clear s) := congrArg f hc
  have hplen : t.plen = s.plen := same State.plen
  have hbmem : t.bmem = s.bmem := same State.bmem
  have hsrate : t.srate = s.srate := same State.srate
  obtain ⟨hfits, hdesc, hchecks, hsec⟩ := h
  exact ⟨hplen ▸ hfits, (planDescriptors_congr (same State.pmem) hplen).trans hdesc,
    fun i hi => (fetchCheck_congr i hbmem hsrate).trans (hchecks i hi),
    (sectionsOf_congr is hbmem (same State.amem) hsrate).trans hsec⟩

section
variable {is js : List Instr} {ss ts : List Section} {tail : List Sample} {s : State}

/-- What has been rendered is the beginning of the plan; the rest of it stands in PMEM from `PCW` to its end. -/
theorem LegalPlan.rest (hp : LegalPlan is ss s) (h : RenderedSoFar js ts tail s) (hin : s.pcw ≤ s.plen.toNat) :
    ∃ ks us, is = js ++ ks ∧ ss = ts ++ us ∧ sectionsOf ks s = some us ∧
      memReadMany s.pmem s.pcw (packInstrs ks).length = some (packInstrs ks) ∧
      s.pcw + (packInstrs ks).length = s.plen.toNat ∧ ∀ i ∈ ks, encodable i = true ∧ wordsOf i ≠ 0 := by
  obtain ⟨hread, hall⟩ := planDescriptors_eq_some hp.descriptors
  have hstored := h.stored
  obtain ⟨ks, rfl⟩ := isPrefix_of_packInstrs h.descriptors hall (isPrefix_of_memReadMany hstored hread hin)
  obtain ⟨xs, us, hxs, hus, rfl⟩ := sectionsOf_append_eq_some.1 hp.sections
  obtain rfl := Option.some.inj (hxs.symm.trans h.sections)
  obtain ⟨hlen, -⟩ := memReadMany_eq_some.1 hread
  obtain ⟨hpcw, -⟩ := memReadMany_eq_some.1 hstored
  rw [packInstrs_append] at hread hlen
  obtain ⟨-, hrest⟩ := memReadMany_append (by rw [hlen]; exact hread)
  rw [List.length_append, hpcw] at hlen
  rw [Nat.zero_add, hpcw] at hrest
  exact ⟨ks, us, rfl, rfl, hus, hrest, hlen, fun i hi => hall i (List.mem_append_right _ hi)⟩

/-- At the end of the plan all of it has been rendered. -/
theorem LegalPlan.at_end (hp : LegalPlan is ss s) (h : RenderedSoFar js ts tail s) (hend : s.pcw = s.plen.toNat) :
    js = is ∧ ts = ss := by
  obtain ⟨ks, us, rfl, rfl, hus, -, hlen, hall⟩ := hp.rest h hend.le
  obtain rfl : ks = [] := by
    have := length_le_length_packInstrs fun i hi => (hall i hi).2
    exact List.length_eq_zero_iff.1 (by omega)
  obtain rfl := Option.some.inj hus
  simp

/-- Before its end the next descriptor of the plan is the one at `PCW`. -/
theorem LegalPlan.at_descriptor (hp : LegalPlan is ss s) (h : RenderedSoFar js ts tail s) (hin : s.pcw ≤ s.plen.toNat)
    (hne : s.pcw ≠ s.plen.toNat) :
    ∃ i x is' ss', is = js ++ i :: is' ∧ ss = ts ++ x :: ss' ∧ descriptorAt s s.pcw = .ok i ∧
      fetchCheck i s = none ∧ sectionOf i s = some x := by
  obtain ⟨ks, us, rfl, rfl, hus, hrest, hlen, hall⟩ := hp.rest h hin
  cases ks with
  | nil => exact absurd hlen hne
  | cons i is' =>
    obtain ⟨x, ss', hx, -, rfl⟩ := sectionsOf_cons_eq_some.1 hus
    obtain ⟨he, hw⟩ := hall i List.mem_cons_self
    rw [packInstrs_cons] at hrest hlen
    obtain ⟨hread, -⟩ := memReadMany_append hrest
    rw [List.length_append] at hlen
    have hd : descriptorAt s s.pcw = .ok i :=
      descriptorAt_of_decode (by omega) hp.fits hread (decode_encodeWords hw he)
    exact ⟨i, x, is', ss', rfl, rfl, hd, hp.checks i (by simp), hx⟩

/-- FETCH meets no error in a legal plan. -/
theorem LegalPlan.fetch_st (hp : LegalPlan is ss s) (h : RenderedSoFar js ts tail s) (hin : s.pcw ≤ s.plen.toNat)
    (hst : s.st = .run) : (fetch s).st = .run := by
  by_cases hend : s.pcw = s.plen.toNat
  · rw [fetch_of_end hend, hst]
  · obtain ⟨i, -, -, -, -, -, hd, hc, -⟩ := hp.at_descriptor h hin hend
    rw [fetch_of_descriptor hend hd hc, (staysAtDescriptor_load i s).st, hst]

end

/-! How much a descriptor emits. -/

theorem length_bytePart (sr : Nat) (v : Byte) (k j : Nat) : (bytePart sr v k j).length = k * nbit sr + j := by
  simp [bytePart, List.length_flatMap]

/-- The place in a string is at most at its end. -/
theorem place_le_of_byteSegment {len base : Nat} {s : State} (h : ByteSegment len base s) :
    8 * s.bytep * nbit s.srate.toNat + (s.bitp.toNat * nbit s.srate.toNat + s.samp) ≤ 8 * len * nbit s.srate.toNat := by
  obtain ⟨hncur, hle, -, hended, hsamp, -⟩ := h
  rw [← hncur]
  by_cases hend : s.ncur = 0 ∨ s.bytep = len
  · obtain ⟨h1, h2⟩ := hended hend
    rw [h1, h2]
    simpa using Nat.mul_le_mul_right s.ncur (Nat.mul_le_mul_left 8 hle)
  · obtain ⟨hn, hb⟩ := not_or.1 hend
    have hbit : s.bitp.toNat + 1 ≤ 8 := s.bitp.isLt
    have hs := hsamp (Nat.pos_of_ne_zero hn)
    calc 8 * s.bytep * s.ncur + (s.bitp.toNat * s.ncur + s.samp)
        ≤ 8 * s.bytep * s.ncur + (s.bitp.toNat + 1) * s.ncur := by
          rw [Nat.add_mul s.bitp.toNat]
          omega
      _ ≤ 8 * s.bytep * s.ncur + 8 * s.ncur := Nat.add_le_add_left (Nat.mul_le_mul_right _ hbit) _
      _ = 8 * (s.bytep + 1) * s.ncur := by ring
      _ ≤ 8 * len * s.ncur := Nat.mul_le_mul_right _ (Nat.mul_le_mul_left 8 (by omega))

/-- A TONEBYTES that stands for a section has all its bytes written, or no sample a bit. -/
theorem sectionOf_tonebytes_eq_some {len : BitVec 30} {base : Word} {s : State} {x : Section}
    (h : sectionOf (.tonebytes len base) s = some x) :
    (∃ bs, memReadMany s.bmem base.toNat len.toNat = some bs ∧ x = .toneBytes bs) ∨ nbit s.srate.toNat = 0 := by
  cases hm : memReadMany s.bmem base.toNat len.toNat with
  | some bs =>
    rw [sectionOf_tonebytes_of_written hm] at h
    exact .inl ⟨bs, rfl, (Option.some.inj h).symm⟩
  | none =>
    have hsilent : nbit s.srate.toNat = 0 ∧ Section.toneBytes [] = x := by simpa [sectionOf, hm] using h
    exact .inr hsilent.1

/-- What a descriptor has emitted is at most as long as the render of its section. -/
theorem length_le_of_emittedPart {i : Instr} {x : Section} {tail : List Sample} {s : State} (hl : Loaded i s)
    (hp : EmittedPart i tail s) (hx : sectionOf i s = some x) : tail.length ≤ (render s.srate.toNat x).length := by
  cases i with
  | silence dur =>
    obtain ⟨-, hle, -⟩ : PlainSegment _ s := hl
    obtain rfl : tail = _ := hp
    obtain rfl := Option.some.inj hx
    rwa [length_render_silence, List.length_replicate]
  | tone dur rsvd freqs =>
    obtain ⟨-, hle, -⟩ : PlainSegment _ s := hl
    obtain rfl : tail = _ := hp
    obtain rfl := Option.some.inj hx
    rwa [length_render_tone, List.length_map, List.length_range]
  | audio len base =>
    obtain ⟨-, hle, -⟩ : PlainSegment _ s := hl
    obtain ⟨xs, hxs, rfl⟩ := Option.map_eq_some_iff.1 hx
    obtain ⟨htail, -⟩ := memReadMany_eq_some.1 hp
    obtain ⟨hlen, -⟩ := memReadMany_eq_some.1 hxs
    rw [htail]
    exact hle.trans hlen.ge
  | tonebytes len base =>
    have hseg : ByteSegment len.toNat base.toNat s := hl
    obtain ⟨bs, hbs, rfl⟩ := hp
    obtain ⟨hbs, -⟩ := memReadMany_eq_some.1 hbs
    have hplace := place_le_of_byteSegment hseg
    rw [List.length_append, length_bytesRender, length_bytePart, hbs]
    rcases sectionOf_tonebytes_eq_some hx with ⟨cs, hcs, rfl⟩ | h0
    · obtain ⟨hcs, -⟩ := memReadMany_eq_some.1 hcs
      rwa [length_render_toneBytes, hcs]
    · rw [h0, Nat.mul_zero] at hplace ⊢
      exact hplace.trans (Nat.zero_le _)
  | mark => exact hl.elim
  | space => exact hl.elim
  | attnSingle => exact hl.elim
  | attnCombined => exact hl.elim

/-- Where the section of a descriptor is known, each element its EMIT reads is written, so the EMIT emits. -/
theorem emitOf_of_section {i : Instr} {x : Section} {tail : List Sample} {s : State} (hd : descriptorAt s s.pcw = .ok i)
    (hc : fetchCheck i s = none) (hl : Loaded i s) (hp : EmittedPart i tail s) (hx : exhausted i s = false)
    (hs : sectionOf i s = some x) :
    ∃ v f, emitOf i s = emitThen v f s ∧ EmitsOne i tail v s (f (pushSample v s)) := by
  refine (emitOf_progress hd hl hp hx).resolve_left fun ⟨_, herr⟩ => ?_
  have hd' : descriptorAt (raise .uninit s) (raise .uninit s).pcw = .ok i := (descriptorAt_congr _ rfl rfl).trans hd
  rcases herr with ⟨-, e, -, hfail⟩ | ⟨-, len, base, bs, hd2, hlt, -, hm, -⟩ | ⟨-, len, base, xs, hd2, hlt, -, hm, -⟩
  · rcases hfail with hfail | ⟨j, hd2, hfail⟩
    · cases hd'.symm.trans hfail
    · obtain rfl := Except.ok.inj (hd'.symm.trans hd2)
      cases ((fetchCheck_congr i rfl rfl).trans hc).symm.trans hfail
  · obtain rfl := Except.ok.inj (hd'.symm.trans hd2)
    have hseg : ByteSegment len.toNat base.toNat s := hl
    obtain ⟨hn, -⟩ : s.ncur ≠ 0 ∧ s.bytep ≠ len.toNat := by simpa [exhausted] using hx
    rcases sectionOf_tonebytes_eq_some hs with ⟨cs, hcs, -⟩ | h0
    · obtain ⟨hlen, hread⟩ := memReadMany_eq_some.1 hcs
      cases hm.symm.trans ((hread _ hlt).trans (List.getElem?_eq_getElem (hlen ▸ hlt)))
    · exact hn (hseg.ncur.trans h0)
  · obtain rfl := Except.ok.inj (hd'.symm.trans hd2)
    obtain ⟨cs, hcs, -⟩ := Option.map_eq_some_iff.1 hs
    obtain ⟨hlen, hread⟩ := memReadMany_eq_some.1 hcs
    cases hm.symm.trans ((hread _ hlt).trans (List.getElem?_eq_getElem (hlen ▸ hlt)))

/-! A run over a legal plan. -/

section
variable {is : List Instr} {ss : List Section} {s : State}

/-- OUT is never longer than the render of the plan, and the position never past its descriptors. -/
theorem LegalPlan.run_le (hp : LegalPlan is ss s) (h : RunRendered s) (hin : s.pcw ≤ s.plen.toNat) (hst : s.st ≠ .error) :
    s.out.length ≤ (renderList s.srate.toNat ss).length ∧ s.secp ≤ is.length := by
  have ended {js : List Instr} {ts : List Section} (hend : s.pcw = s.plen.toNat) (h : RenderedSoFar js ts [] s) :
      s.out.length ≤ (renderList s.srate.toNat ss).length ∧ s.secp ≤ is.length := by
    obtain ⟨rfl, rfl⟩ := hp.at_end h hend
    rw [h.out, List.append_nil, h.count]
    exact ⟨le_rfl, le_rfl⟩
  cases h with
  | atEnd _ hend js ts h => exact ended hend h
  | inDone _ hend js ts h => exact ended hend h
  | inError herr => exact absurd herr hst
  | inDescriptor _ i hd _ hl js ts tail hpart h =>
    obtain ⟨j, x, js', ts', rfl, rfl, hj, -, hx⟩ := hp.at_descriptor h hin (ne_plen_of_descriptorAt hd)
    obtain rfl := Except.ok.inj (hd.symm.trans hj)
    have htail := length_le_of_emittedPart hl hpart hx
    rw [h.out, ← h.count]
    simp only [renderList_append, renderList_cons, List.length_append, List.length_cons]
    omega

/-- As long as OUT has room for the render of a legal plan, every step of the block answers, and not with an error. -/
theorem RunAt.exists_step {k : Nat} (h : RunAt k s) (hp : LegalPlan is ss s) (hst : s.st ≠ .error)
    (hlen : (renderList s.srate.toNat ss).length < 2 ^ 64) : ∃ t, Machine.blockStep s = .next t ∧ t.st ≠ .error := by
  have hin := h.inside
  cases h.rendered with
  | atEnd hrun hend => exact ⟨_, blockStep_of_end hrun hend, by simp⟩
  | inDone hdone => exact ⟨s, blockStep_of_not_run (by simp [hdone]), hst⟩
  | inError herr => exact absurd herr hst
  | inDescriptor hrun i hd hc hl js ts tail hpart hsofar =>
    obtain ⟨hw, -, hfits, -⟩ := descriptorAt_eq_ok.1 hd
    have hne := ne_plen_of_descriptorAt hd
    rw [blockStep_of_descriptor hrun hne hd]
    obtain ⟨j, x, -, -, -, -, hj, -, hx⟩ := hp.at_descriptor hsofar hin hne
    obtain rfl := Except.ok.inj (hd.symm.trans hj)
    by_cases hex : exhausted i s = true
    · obtain ⟨y, hy, htail⟩ := exists_section_of_exhausted hl hpart hex
      have hfetch : (retire (wordsOf i) s).st = .run :=
        (hp.of_clear_eq (clear_advance _ s)).fetch_st (hsofar.advance hd hy htail) hfits hrun
      exact ⟨_, exec_of_exhausted hw hc hex, by simp [hfetch]⟩
    · have hex' := Bool.eq_false_of_not_eq_true hex
      obtain ⟨v, f, hemit, hone⟩ := emitOf_of_section hd hc hl hpart hex' hx
      have hstays := hone.stays
      have hnext : RunRendered (f (pushSample v s)) :=
        runRendered_of_stays hrun hd hc hsofar hstays hone.out hone.loaded hone.part
      have hk := keepsInputs_of_clear_eq hstays.clear
      have hrun' : (f (pushSample v s)).st = .run := hstays.st.trans hrun
      have hin' : (f (pushSample v s)).pcw ≤ (f (pushSample v s)).plen.toNat := by
        rw [hstays.pcw, hk.plen]
        exact hin
      obtain ⟨hout, -⟩ := (hp.of_clear_eq hstays.clear).run_le hnext hin' (by simp [hrun'])
      rw [hone.out, List.length_append, List.length_singleton, hk.srate, ← h.counted] at hout
      rw [exec_of_not_exhausted hw hc hex', hemit]
      exact ⟨_, emitThen_of_room (hout.trans_lt hlen), by simp [hrun']⟩

/-- So a run over a legal plan goes on without end, and is never in error. -/
theorem RunAt.exists_run (h : RunAt 0 s) (hp : LegalPlan is ss s) (hst : s.st ≠ .error)
    (hlen : (renderList s.srate.toNat ss).length < 2 ^ 64) (k : Nat) : ∃ t, Safety.runSteps k s = .next t ∧ t.st ≠ .error := by
  induction k with
  | zero => exact ⟨s, rfl, hst⟩
  | succ k ih =>
    obtain ⟨u, hrun, hu⟩ := ih
    have hclear := clear_of_runSteps h.inputs hrun
    have hsrate : u.srate = s.srate := (keepsInputs_of_clear_eq hclear).srate
    have hat := h.runSteps hrun
    obtain ⟨t, hb, ht⟩ := hat.exists_step (hp.of_clear_eq hclear) hu (hsrate ▸ hlen)
    exact ⟨t, by rw [runSteps_succ_end hrun, step_of_no_inputs hat.inputs, hb], ht⟩

/-- It is in DONE after one step for each sample, one for each descriptor and one more (44_section_sequencer R203), with
the whole plan in OUT. -/
theorem RunAt.reaches_done (h : RunAt 0 s) (hp : LegalPlan is ss s) (hst : s.st ≠ .error)
    (hlen : (renderList s.srate.toNat ss).length < 2 ^ 64) :
    ∃ t, Safety.runSteps ((renderList s.srate.toNat ss).length + is.length + 1) s = .next t ∧ Succeeded t ∧
      t.out = renderList s.srate.toNat ss ∧ t.errinfo = 0 ∧ t.pcw = s.plen.toNat ∧ t.secp = is.length := by
  obtain ⟨t, hrun, ht⟩ := h.exists_run hp hst hlen ((renderList s.srate.toNat ss).length + is.length + 1)
  have hclear := clear_of_runSteps h.inputs hrun
  have hk := keepsInputs_of_clear_eq hclear
  have hp' := hp.of_clear_eq hclear
  have hat := h.runSteps hrun
  have hnotrun : t.st ≠ .run := by
    intro hr
    have hsteps := hat.steps hr
    have hle := hp'.run_le hat.rendered hat.inside ht
    rw [hk.srate] at hle
    omega
  cases hat.rendered with
  | atEnd hr => exact absurd hr hnotrun
  | inDescriptor hr => exact absurd hr hnotrun
  | inError herr => exact absurd herr ht
  | inDone hdone hend js ts hsofar =>
    obtain ⟨rfl, rfl⟩ := hp'.at_end hsofar hend
    have hout := hsofar.out
    rw [List.append_nil, hk.srate] at hout
    exact ⟨t, hrun, hdone, hout, hat.errinfo ht, hend.trans (by rw [hk.plen]), hsofar.count.symm⟩

/-- The same from the opening of the run: FETCH meets no error at the first descriptor of a legal plan. -/
theorem LegalPlan.reaches_done {u : State} (hp : LegalPlan is ss u) (hu : JustOpened s u) (he : u.errinfo = 0)
    (hi : s.inputs = []) (hlen : (renderList u.srate.toNat ss).length < 2 ^ 64) :
    ∃ t, Safety.runSteps ((renderList u.srate.toNat ss).length + is.length + 1) (fetch u) = .next t ∧ Succeeded t ∧
      t.out = renderList u.srate.toNat ss ∧ t.errinfo = 0 ∧ t.pcw = u.plen.toNat ∧ t.secp = is.length := by
  have hpcw := hu.work.pcw
  have hsofar : RenderedSoFar [] [] [] u := ⟨by simp, by rw [hpcw]; rfl, hu.work.secp.symm, rfl, hu.out⟩
  have hfetch : (fetch u).st = .run := hp.fetch_st hsofar (by omega) hu.st
  have hdone := (runAt_fetch hu he hi).reaches_done (hp.of_clear_eq (clear_fetch u)) (by simp [hfetch])
  rw [fetch_srate, fetch_plen] at hdone
  exact hdone hlen

end

/-- The write of 1 to `CTRL` in IDLE is START (10_state R27). -/
theorem hostWriteCr_start {s : State} (h : s.st = .idle) : hostWriteCr 0 1 s = start s :=
  (hostWriteCr_ctrl 1 s).trans (writeCtrl_of_start rfl rfl h)

/-- Settles O56: the opened run has the same plan, which START fetches. -/
theorem directRunRendersThePlan : Obligations.DirectRunRendersThePlan := by
  intro s is ss hi hidle hd hfits hplan hchecks hsec hlen
  have hp : LegalPlan is ss (openRun s) := LegalPlan.of_clear_eq ⟨hfits, hplan, hchecks, hsec⟩ (clear_openRun s)
  rw [hostWriteCr_start hidle, start_of_direct hd, startPlan_of_fits (s := openRun s) hfits]
  exact hp.reaches_done (justOpened_openRun s) rfl hi hlen

end Sys2Proof.Machine
end

section
/-! PROOFS. The runs of warnings and the runs without an error: each ends in DONE with the render of the plan in memory
(44_section_sequencer R190, R196, R202). -/

namespace Sys2Proof.Machine

open Sys2Proof.Safety

/-! The run of a warning. -/

theorem justOpened_warningReady (s : State) : JustOpened s (warningReady s) :=
  ⟨rfl, ⟨rfl, rfl, rfl, rfl, rfl, rfl, rfl, rfl⟩, rfl, rfl, rfl⟩

/-- The plan of a warning is legal when its message is inside AMEM: its strings and its TONE always pass their checks. -/
theorem legalPlan_warningReady {s : State} {msg : List Sample} (hc : warningCheck s = none)
    (hlen : s.msgLen.toNat < 2 ^ 30)
    (hmsg : msgp s = true → message s = some msg ∧ s.msgBase.toNat + s.msgLen.toNat ≤ Config.amemSamples) :
    LegalPlan (planInstrs s) (warningPlan s msg) (warningReady s) := by
  obtain ⟨-, hloc, -, horg, -⟩ := (headerCheck_eq_none s).1 ((warningCheck_eq_none s).1 hc).1
  refine ⟨?fits, planDescriptors_warningReady s, fun i hi => ?check,
    sectionsOf_planInstrs hc hlen fun hm => (hmsg hm).1⟩
  case fits =>
    have hle := length_packInstrs_planInstrs_le s
    have hsize := Config.le_pmemWords
    rw [warningReady_plen]
    omega
  case check =>
    rcases mem_planInstrs.1 hi with rfl | rfl | rfl | rfl | ⟨-, rfl⟩ | ⟨hm, rfl | rfl⟩
    · exact fetchCheck_warningReady hloc
    · rfl
    · exact fetchCheck_eomInstr hloc horg
    · rfl
    · exact fetchCheck_attnTone (attnk s) s _
    · rfl
    · refine (audioCheck_eq_none _ _).2 ?_
      rw [BitVec.toNat_setWidth, Nat.mod_eq_of_lt hlen]
      exact (hmsg hm).2

/-- `Construct(w)` of a warning that passes its checks is the render of its plan (44_section_sequencer R190). -/
theorem construct_of_check {s : State} (msg : List Sample) (h : warningCheck s = none) :
    construct s msg = some (renderList s.srate.toNat (warningPlan s msg)) := by
  rw [construct, h]

/-- Settles O59: the stored plan is legal, so START fetches it and the run reaches DONE with its render. -/
theorem warningRunEmitsConstruct : Obligations.WarningRunEmitsConstruct := by
  intro s msg hi hidle hd hc hlen hmsg hroom
  obtain ⟨t, hrun, hdone, hout, herr, -⟩ :=
    (legalPlan_warningReady hc hlen hmsg).reaches_done (justOpened_warningReady s) rfl hi hroom
  rw [hostWriteCr_start hidle, start_eq_fetch_warningReady hd hc]
  exact ⟨_, t, hrun, hdone, by rw [construct_of_check msg hc, hout]; rfl, herr⟩

/-! A run without an error. -/

/-- A warning whose START is no error has passed its checks. -/
theorem warningCheck_of_start {s : State} (hd : modeDirect s = false) (h : (start s).st ≠ .error) :
    warningCheck s = none := by
  cases hc : warningCheck s with
  | none => rfl
  | some e =>
    rw [start_of_warning_error hd hc] at h
    exact absurd (raise_st _ _) h

/-- A START without an error opens a run and fetches its first descriptor. -/
theorem start_eq_fetch {s : State} (h : (start s).st ≠ .error) :
    ∃ u, JustOpened s u ∧ u.errinfo = 0 ∧ u.srate = s.srate ∧ start s = fetch u := by
  have plan {u : State} (hu : start s = startPlan u) : start s = fetch u := by
    by_cases hfits : u.plen.toNat ≤ Config.pmemWords
    · exact hu.trans (startPlan_of_fits hfits)
    · rw [hu, startPlan_of_too_long (Nat.not_le.1 hfits)] at h
      exact absurd (raise_st _ _) h
  cases hd : modeDirect s with
  | true => exact ⟨openRun s, justOpened_openRun s, rfl, rfl, plan (start_of_direct hd)⟩
  | false =>
    exact ⟨warningReady s, justOpened_warningReady s, rfl, rfl,
      plan (start_of_warning hd (warningCheck_of_start hd h))⟩

/-- A run has at most 2^64 samples and at most as many descriptors as `PLEN` has words, so after that many steps it is no
longer in RUN. -/
theorem RunAt.st_ne_run {k : Nat} {s : State} (h : RunAt k s) (hk : 2 ^ 64 + 2 ^ 32 ≤ k) : s.st ≠ .run := by
  intro hst
  have hsteps := h.steps hst
  have hbounded := h.bounded
  have hcounted := h.counted
  have hinside := h.inside
  have hplen : s.plen.toNat < 2 ^ 32 := s.plen.isLt
  have hsecp {js : List Instr} {ts : List Section} {tail : List Sample} (hsofar : RenderedSoFar js ts tail s) :
      s.secp ≤ s.pcw := by
    obtain ⟨hlen, -⟩ := memReadMany_eq_some.1 hsofar.stored
    rw [← hsofar.count, ← hlen]
    exact length_le_length_packInstrs fun i hi => (hsofar.descriptors i hi).2
  have hle : s.secp ≤ s.pcw := by
    cases h.rendered with
    | atEnd _ _ _ _ hsofar => exact hsecp hsofar
    | inDescriptor _ _ _ _ _ _ _ _ _ hsofar => exact hsecp hsofar
    | inDone _ _ _ _ hsofar => exact hsecp hsofar
    | inError _ _ _ _ hsofar => exact hsecp hsofar
  omega

/-- At the end of the plan the sections rendered are those the plan decodes to. -/
theorem planSections_of_renderedSoFar {is : List Instr} {ss : List Section} {tail : List Sample} {s : State}
    (h : RenderedSoFar is ss tail s) (hend : s.pcw = s.plen.toNat) : planSections s = some ss := by
  have hread := h.stored
  rw [hend] at hread
  have hplan : planDescriptors s = some is := by
    simp only [planDescriptors, hread]
    exact packedPlanDecodesToItsDescriptors is h.descriptors
  simp only [planSections, hplan]
  exact h.sections

theorem exists_sectionOf_of_mem {is : List Instr} {i : Instr} {s : State} {ss : List Section}
    (h : sectionsOf is s = some ss) (hi : i ∈ is) : ∃ x, sectionOf i s = some x := by
  obtain ⟨js, ks, rfl⟩ := List.append_of_mem hi
  obtain ⟨_, _, -, hks, -⟩ := sectionsOf_append_eq_some.1 h
  obtain ⟨x, _, hx, -⟩ := sectionsOf_cons_eq_some.1 hks
  exact ⟨x, hx⟩

/-- A warning whose stored plan stands for sections has its message, and the sections are `Plan(w)`. -/
theorem exists_message_of_planSections {s : State} {ss : List Section} (hd : modeDirect s = false)
    (hc : warningCheck s = none) (hlen : s.msgLen.toNat < 2 ^ 30) (hplan : planSections (start s) = some ss) :
    ∃ msg, (msgp s = true → message s = some msg) ∧ ss = warningPlan s msg := by
  obtain ⟨msg, hmsg⟩ : ∃ msg, msgp s = true → message s = some msg := by
    by_cases hm : msgp s = true
    · have hplan' := hplan
      rw [start_eq_fetch_warningReady hd hc, planSections_of_clear_eq (clear_fetch _), planSections,
        planDescriptors_warningReady] at hplan'
      obtain ⟨x, hx⟩ := exists_sectionOf_of_mem hplan' (mem_planInstrs.2 (by simp [hm]) : messageInstr s ∈ planInstrs s)
      rw [sectionOf_messageInstr hlen] at hx
      obtain ⟨msg, hmsg, -⟩ := Option.map_eq_some_iff.1 hx
      exact ⟨msg, fun _ => hmsg⟩
    · exact ⟨[], fun h => absurd h hm⟩
  exact ⟨msg, hmsg, Option.some.inj (hplan.symm.trans (warningPlanInMemoryIsThePlan s msg hd hc hlen hmsg))⟩

/-- At every moment before a run has ended, and after, OUT begins what it is at the end. -/
theorem out_isPrefix_of_ended {j k : Nat} {s t u : State} (hi : s.inputs = []) (hu : runSteps j s = .next u)
    (ht : runSteps k s = .next t) (hst : t.st ≠ .run) : u.out <+: t.out := by
  have inputs {n : Nat} {v : State} (hv : runSteps n s = .next v) : v.inputs = [] :=
    (keepsInputs_of_clear_eq (clear_of_runSteps hi hv)).inputs.trans hi
  rcases Nat.le_total j k with hjk | hjk
  · obtain ⟨m, rfl⟩ := Nat.exists_eq_add_of_le hjk
    exact out_isPrefix_of_runSteps (inputs hu) ((runSteps_add m hu).symm.trans ht)
  · obtain ⟨m, rfl⟩ := Nat.exists_eq_add_of_le hjk
    cases ((runSteps_add m ht).trans (runSteps_of_rest m hst (inputs ht))).symm.trans hu
    exact List.prefix_rfl

/-- Settles O57: after the steps a run can have at most it has ended, not in an error, so at the end of its plan with the
render of all of it; what the plan decodes to no step has changed. -/
theorem runWithoutErrorRendersThePlan : Obligations.RunWithoutErrorRendersThePlan := by
  intro s hi hidle hrun
  rw [hostWriteCr_start hidle] at hrun ⊢
  have hstart : (start s).st ≠ .error := by
    obtain ⟨t, ht, hne⟩ := hrun 0
    cases ht
    exact hne
  obtain ⟨u, hopen, herrinfo, hsrate, hfetch⟩ := start_eq_fetch hstart
  have hat : RunAt 0 (start s) := hfetch ▸ runAt_fetch hopen herrinfo hi
  obtain ⟨k, hk⟩ : ∃ k, 2 ^ 64 + 2 ^ 32 ≤ k := ⟨_, le_rfl⟩
  obtain ⟨t, ht, hne⟩ := hrun k
  have hatk := hat.runSteps ht
  have hnotrun : t.st ≠ .run := hatk.st_ne_run (by omega)
  have hclear := clear_of_runSteps hat.inputs ht
  have hrate : t.srate = s.srate := by
    rw [(keepsInputs_of_clear_eq hclear).srate, hfetch, fetch_srate, hsrate]
  cases hatk.rendered with
  | atEnd hr => exact absurd hr hnotrun
  | inDescriptor hr => exact absurd hr hnotrun
  | inError herr => exact absurd herr hne
  | inDone hdone hend is ss hsofar =>
    have hplan : planSections (start s) = some ss :=
      (planSections_of_clear_eq hclear).symm.trans (planSections_of_renderedSoFar hsofar hend)
    have hout : t.out = renderList s.srate.toNat ss := by rw [hsofar.out, List.append_nil, hrate]
    refine ⟨k, t, ss, ht, hdone, hplan, hout, fun hd hlen => ?warning,
      fun j v hv => out_isPrefix_of_ended hat.inputs hv ht hnotrun⟩
    case warning =>
      have hc := warningCheck_of_start hd hstart
      obtain ⟨msg, hmsg, rfl⟩ := exists_message_of_planSections hd hc hlen hplan
      exact ⟨msg, hmsg, rfl, by rw [construct_of_check msg hc, hout]⟩

end Sys2Proof.Machine
end

section
/-! PROOFS. The errors: what raising one records, and which check reports one first, in a FETCH and at a WARNING START
(60_exceptions R211, R214, R217). -/

namespace Sys2Proof

/-! The first word of a descriptor that cannot be read decides (30_encoding R76, 60_exceptions R217 "in a FETCH" (1),
(2)). -/

/-- A run of reads stops at its first error. -/
theorem readRun_of_first_error {ε α : Type} {read : Nat → Except ε α} {e : ε} {k j n : Nat} (hj : j < n)
    (hok : ∀ m, m < j → ∃ v, read (k + m) = .ok v) (he : read (k + j) = .error e) : readRun read k n = .error e := by
  induction n generalizing k j with
  | zero => exact absurd hj (Nat.not_lt_zero j)
  | succ n ih =>
    cases j with
    | zero =>
      have hk : read k = .error e := he
      simp only [readRun, hk]
    | succ j =>
      obtain ⟨v, hk⟩ : ∃ v, read k = .ok v := hok 0 (Nat.succ_pos j)
      have hrest : readRun read (k + 1) n = .error e := by
        refine ih (Nat.lt_of_succ_lt_succ hj) (fun m hm => ?_) ?_
        · rw [Nat.add_assoc, Nat.add_comm 1 m]
          exact hok (m + 1) (Nat.succ_lt_succ hm)
        · rw [Nat.add_assoc, Nat.add_comm 1 j]
          exact he
      simp only [readRun, hk, hrest]

/-- The decoder reads the words of a descriptor in order: the words it has read tell it to ask for the next one, so the
first error among them is its answer. -/
theorem decodeWith_of_first_error {ε : Type} {read : Nat → Except ε Word} {e : ε} {i : Instr} {j : Nat}
    (hi : encodable i = true) (hj : j < wordsOf i)
    (hok : ∀ k (hk : k < (encodeWords i).length), k < j → read k = .ok (encodeWords i)[k]) (he : read j = .error e) :
    decodeWith read = .error e := by
  rcases j with _ | _ | j
  case zero => simp only [decodeWith, he]
  case succ.zero =>
    have hlen : 0 < (encodeWords i).length := by rw [length_encodeWords]; omega
    have h0 : read 0 = .ok (encodeWords i)[0] := hok 0 hlen Nat.one_pos
    have h1 : read 1 = .error e := he
    have htag : tagOf (encodeWords i)[0] ≠ 0 := by
      cases i with
      | silence dur => exact absurd hj (Nat.lt_irrefl 1)
      | tonebytes len base => simp [encodeWords]
      | tone dur rsvd freqs => simp [encodeWords]
      | audio len base => simp [encodeWords]
      | mark | space | attnSingle | attnCombined => exact absurd hj (Nat.not_lt_zero _)
    simp only [decodeWith, h0, if_neg htag, h1]
  case succ.succ =>
    cases i with
    | tone dur rsvd freqs =>
      have hlen : freqs.length < 16 := of_decide_eq_true hi
      have h0 : read 0 = .ok (word0 2 dur) := hok 0 (by simp [encodeWords]) (by omega)
      have h1 : read 1 = .ok (toneWord1 rsvd freqs.length) := hok 1 (by simp [encodeWords]) (by omega)
      have hjf : j < freqs.length := by simp only [wordsOf] at hj; omega
      have hrun : readRun read 2 freqs.length = .error e := by
        refine readRun_of_first_error hjf (fun m hm => ⟨_, hok (2 + m) ?_ (by omega)⟩) (by rwa [Nat.add_comm])
        simp only [encodeWords, List.length_cons]
        omega
      simp [decodeWith, h0, h1, nfOf_toneWord1 rsvd hlen, hrun]
    | silence | tonebytes | audio | mark | space | attnSingle | attnCombined =>
      simp only [wordsOf] at hj
      omega

end Sys2Proof

namespace Sys2Proof.Machine

/-! What raising an error records (60_exceptions R211, R214). -/

/-- Settles O26: the two fields of the word ERRINFO takes, and the code of each cause. -/
theorem raiseRecordsCauseAndSection : Obligations.RaiseRecordsCauseAndSection := by
  refine ⟨fun e s => ⟨rfl, errCodeOf_raise e s, ?ordinal⟩, rfl, rfl, rfl, rfl, rfl, rfl, rfl, rfl, rfl⟩
  case ordinal => rw [errSecOf_raise, toNat_errSec]

/-! The checks of a FETCH (60_exceptions R217 "in a FETCH"). -/

theorem readPlan_of_beyond {s : State} {a : Nat} (h : s.plen.toNat ≤ a) : readPlan s a = .error .bounds := by
  rw [readPlan, if_pos h]

theorem readPlan_of_unwritten {s : State} {a : Nat} (hsize : s.plen.toNat ≤ Config.pmemWords) (ha : a < s.plen.toNat)
    (hm : memRead s.pmem a = none) : readPlan s a = .error .uninit := by
  rw [readPlan, if_neg (Nat.not_le.2 ha), if_neg (Nat.not_le.2 (ha.trans_le hsize)), hm]

/-- FETCH reports the first word of its descriptor that cannot be read. -/
theorem fetch_of_first_error {s : State} {i : Instr} {j : Nat} {e : ErrCause} (hp : s.pcw ≠ s.plen.toNat)
    (hsize : s.plen.toNat ≤ Config.pmemWords) (hi : encodable i = true) (hj : j < wordsOf i)
    (hok : ∀ k, k < j → s.pcw + k < s.plen.toNat ∧ memRead s.pmem (s.pcw + k) = (encodeWords i)[k]?)
    (he : readPlan s (s.pcw + j) = .error e) : fetch s = raise e s := by
  refine fetch_of_fails hp (.inl (decodeWith_of_first_error hi hj (fun k hk hkj => ?_) he))
  obtain ⟨hin, hm⟩ := hok k hkj
  exact readPlan_eq_ok.2 ⟨hin, hin.trans_le hsize, hm.trans (List.getElem?_eq_getElem hk)⟩

/-- FETCH reports the check that fails first of a descriptor it has read. -/
theorem fetch_of_failed_check {s : State} {i : Instr} {e : ErrCause} (hp : s.pcw ≠ s.plen.toNat)
    (hd : descriptorAt s s.pcw = .ok i) (hc : fetchCheck i s = some e) : fetch s = raise e s :=
  fetch_of_fails hp (.inr ⟨i, hd, hc⟩)

/-- Settles O10: the words of the descriptor in address order, then the checks of its kind. -/
theorem fetchReportsTheFirstError : Obligations.FetchReportsTheFirstError := by
  intro s hp hsize
  refine ⟨fun i j hi hj hok => ⟨fun hb => ?wordBounds, fun hb hm => ?wordUninit⟩,
    fun dur rsvd freqs hd => ⟨fun hr => ?rsvd, ?noFreq, ?nFreq⟩,
    fun len base hd => ⟨fun hb => ?bytesBounds, fun hb hl hn hm => ?bytesUninit⟩, fun len base hd hb => ?audioBounds⟩
  case wordBounds => exact fetch_of_first_error hp hsize hi hj hok (readPlan_of_beyond hb)
  case wordUninit => exact fetch_of_first_error hp hsize hi hj hok (readPlan_of_unwritten hsize hb hm)
  case rsvd => exact fetch_of_failed_check hp hd (toneCheck_of_rsvd freqs hr)
  case noFreq =>
    rintro rfl rfl
    exact fetch_of_failed_check hp hd rfl
  case nFreq =>
    rintro rfl hlen
    exact fetch_of_failed_check hp hd (toneCheck_of_too_many hlen)
  case bytesBounds => exact fetch_of_failed_check hp hd (tonebytesCheck_of_bounds s hb)
  case bytesUninit =>
    have hpos : 0 < len.toNat := Nat.pos_of_ne_zero fun h0 => hl (BitVec.eq_of_toNat_eq h0)
    exact fetch_of_failed_check hp hd (tonebytesCheck_of_unwritten hb hpos (Nat.pos_of_ne_zero hn) hm)
  case audioBounds => exact fetch_of_failed_check hp hd (audioCheck_of_bounds hb)

/-! The checks of a WARNING START (60_exceptions R217 "at a WARNING START" (1) to (7)). Each lemma takes the checks before
its own as passed. -/

section
variable {s : State}

theorem headerCheck_of_unwritten (h : fixedWritten s = false) : headerCheck s = some .uninit := by
  rw [headerCheck, if_pos h]

theorem headerCheck_of_too_many_locs (hf : fixedWritten s = true) (h : 31 < nlocOf s) :
    headerCheck s = some .locCount := by
  have hmax : Config.maxLoc < nlocOf s := h
  simp only [headerCheck, hf, Bool.true_eq_false, if_false, if_pos hmax]

/-- With HR0 to HR6 written and `NLOC` in range, the location registers are next. -/
theorem headerCheck_of_countable (hf : fixedWritten s = true) (hn : nlocOf s ≤ 31) :
    headerCheck s =
      if locsWritten s = false then some .uninit
      else if 4 < orgOf s then some .org
      else if timeBad s = true then some .time
      else none := by
  have hmax : ¬ Config.maxLoc < nlocOf s := Nat.not_lt.2 hn
  simp only [headerCheck, hf, Bool.true_eq_false, if_false, if_neg hmax]

theorem headerCheck_of_unwritten_loc (hf : fixedWritten s = true) (hn : nlocOf s ≤ 31) (h : locsWritten s = false) :
    headerCheck s = some .uninit := by
  rw [headerCheck_of_countable hf hn, if_pos h]

theorem headerCheck_of_bad_org (hf : fixedWritten s = true) (hn : nlocOf s ≤ 31) (hl : locsWritten s = true)
    (h : 4 < orgOf s) : headerCheck s = some .org := by
  simp only [headerCheck_of_countable hf hn, hl, Bool.true_eq_false, if_false, if_pos h]

theorem headerCheck_of_bad_time (hf : fixedWritten s = true) (hn : nlocOf s ≤ 31) (hl : locsWritten s = true)
    (ho : orgOf s ≤ 4) (h : timeBad s = true) : headerCheck s = some .time := by
  simp only [headerCheck_of_countable hf hn, hl, Bool.true_eq_false, if_false, if_neg (Nat.not_lt.2 ho), if_pos h]

theorem warningCheck_of_header {e : ErrCause} (h : headerCheck s = some e) : warningCheck s = some e := by
  rw [warningCheck, h]

theorem warningCheck_of_attn {e : ErrCause} (hh : headerCheck s = none) (h : attnCheck s = some e) :
    warningCheck s = some e := by
  rw [warningCheck, hh, h]

end

/-- Settles O29: START raises what its checks report; each clause is the check that fails first, the header's five before
the two of the attention duration. -/
theorem warningStartChecksInOrder : Obligations.WarningStartChecksInOrder := by
  intro s hd
  have fails {e : ErrCause} (h : headerCheck s = some e) : start s = raise e (openRun s) :=
    start_of_warning_error hd (warningCheck_of_header h)
  have failsAttn {e : ErrCause} (hh : headerCheck s = none) (h : attnCheck s = some e) : start s = raise e (openRun s) :=
    start_of_warning_error hd (warningCheck_of_attn hh h)
  simp only [← fixedWritten_eq_true, ← locsWritten_eq_true, ← timeBad_eq_false, Bool.not_eq_true, Bool.not_eq_false]
  refine ⟨fun hf => ?fixed, fun hf hn => ?count, fun hf hn hl => ?locs, fun hf hn hl ho => ?org,
    fun hf hn hl ho ht => ?time, fun hf hn hl ho ht ha => ?short, fun hf hn hl ho ht ha => ?long⟩
  case fixed => exact fails (headerCheck_of_unwritten hf)
  case count => exact fails (headerCheck_of_too_many_locs hf hn)
  case locs => exact fails (headerCheck_of_unwritten_loc hf hn hl)
  case org => exact fails (headerCheck_of_bad_org hf hn hl ho)
  case time => exact fails (headerCheck_of_bad_time hf hn hl ho ht)
  case short => exact failsAttn ((headerCheck_eq_none s).2 ⟨hf, hn, hl, ho, ht⟩) (attnCheck_of_short ha)
  case long => exact failsAttn ((headerCheck_eq_none s).2 ⟨hf, hn, hl, ho, ht⟩) (attnCheck_of_long ha)

end Sys2Proof.Machine
end
